-- ==== Sys2Proof/Word.lean ====
section
/-! DEFINITION. The word types of the block: every register and the host data bus are 32 bits wide
(00_scope.md R8, REG_W), a symbol is one byte (R8, SYM_W), and a codeword is a finite sequence of
bits (R10). -/

namespace Sys2Proof

/-- A register value, a command word or bus data: 32 bits (00_scope.md R8, REG_W = 32). -/
abbrev Word := BitVec 32

/-- A byte of DMEM, a symbol or a bit character: 8 bits (00_scope.md R8, SYM_W = 8). -/
abbrev Byte := BitVec 8

/-- A codeword, first bit first (00_scope.md R10): `true` is the bit 1. -/
abbrev Codeword := List Bool

end Sys2Proof
end

