-- ==== Sys2Proof/Config.lean ====
section
/-! DEFINITION. What this implementation of the block fixes (00_scope.md R8) and the free values:
constants without a body, so that nothing can be proved about what they are. -/

namespace Sys2Proof.Config

/-- Number of codebook table entries, NSYM = 2^SYM_W (00_scope.md R8). -/
abbrev nsym : Nat := 256

/-- Longest codeword the table can hold, in bits, L_MAX (00_scope.md R8). -/
abbrev lMax : Nat := 32

/-- Largest DMEM_SIZE, the size of the upper half of the host window (00_scope.md R8). -/
abbrev maxDmemSize : Nat := 0x80000

/-- The parameter DMEM_SIZE: any integer with 1 ≤ DMEM_SIZE ≤ 0x80000 (00_scope.md R8, OPEN). The
bound travels with the number, so no state has an illegal size. -/
abbrev DmemSize := { n : Nat // 1 ≤ n ∧ n ≤ 0x80000 }

/-- The reference value of DMEM_SIZE (00_scope.md R8). DESIGN CHOICE (log 1): `State.reset` takes
it; no statement about every state rests on it. -/
def referenceDmemSize : DmemSize := ⟨4096, by decide⟩

/-- The bit character of the bit 0, BIT0 (00_scope.md R8, 30_encoding.md R97). -/
def bit0 : Byte := 0x30#8

/-- The bit character of the bit 1, BIT1 (00_scope.md R8, 30_encoding.md R97). -/
def bit1 : Byte := 0x31#8

/-- The constant of the ID register (10_state.md R24). -/
def idValue : Word := 0x48554646#32

/-- The constant of the PARAM register: SYM_W in [7:0], L_MAX in [15:8] (10_state.md R25). -/
def paramValue : Word := 0x00002008#32

/-- Host offset of DMEM[0] (20_memory.md R61, R62). -/
abbrev dmemBase : Nat := 0x80000

/-- Bytes of the register region (20_memory.md R61). -/
abbrev registerRegion : Nat := 0x1000

/-- FREE VALUE (log 2). The byte that DMEM holds at an address nobody has written since reset number
`epoch` (70_reset_and_hazards.md R281: every byte holds any value). -/
opaque freeResetByte (epoch addr : Nat) : Byte

/-- FREE VALUE (log 3). The byte a destination address holds after the job of draw `draw` ended with
LOOKUP_ERROR, DECODE_ERROR or OUTPUT_OVERFLOW (60_exceptions.md R253: any value). -/
opaque freeFailByte (draw addr : Nat) : Byte

/-- FREE VALUE (log 4). Which of several matching entries the job of draw `draw` emits as its symbol
number `n`, as a number taken modulo the count of matching entries (43_decode.md R195). -/
opaque freeChoice (draw n : Nat) : Nat

end Sys2Proof.Config
end

