-- ==== Sys2Proof/Syntax.lean ====
section
/-! DEFINITION. The commands of the block as syntax: one constructor for each row of the opcode map
(30_encoding.md R93). -/

namespace Sys2Proof

/-- A legal command. `sym` is the field SYM (30_encoding.md R91, every byte is a legal symbol);
`v` is the flag V of DECODE (`DECODE.V` is `decode true`). -/
inductive Instr where
  /-- `NOP` (40_command_lifecycle.md R125). -/
  | nop
  /-- `TBL.CLEAR` (41_codebook_table.md R141). -/
  | tblClear
  /-- `TBL.WRITE sym` (41_codebook_table.md R142). -/
  | tblWrite (sym : Byte)
  /-- `TBL.INVAL sym` (41_codebook_table.md R144). -/
  | tblInval (sym : Byte)
  /-- `TBL.READ sym` (41_codebook_table.md R145). -/
  | tblRead (sym : Byte)
  /-- `TBL.CHECK` (41_codebook_table.md R147). -/
  | tblCheck
  /-- `ENCODE` (42_encode.md R170). -/
  | encode
  /-- `DECODE` (`v = false`) and `DECODE.V` (`v = true`) (43_decode.md R191). -/
  | decode (v : Bool)
  deriving DecidableEq, Repr

end Sys2Proof
end

