-- ==== Sys2Proof/WellFormed.lean ====
section
/-! DEFINITION. Well-formedness of the syntax. A command's operands are exactly as wide as its
fields, so the check of a command cannot fail; a codeword written as an operand (`TBL.LOAD sym, "c"`)
must be non-empty and at most L_MAX bits long. -/

namespace Sys2Proof

/-- A command is well-formed when its symbol indexes the table (30_encoding.md R91: 0..255). The
operand's type already says so: `Instr.wellFormed_of_type`. -/
def Instr.wellFormed : Instr → Bool
  | .tblWrite sym => decide (sym.toNat < Config.nsym)
  | .tblInval sym => decide (sym.toNat < Config.nsym)
  | .tblRead sym => decide (sym.toNat < Config.nsym)
  | .nop => true
  | .tblClear => true
  | .tblCheck => true
  | .encode => true
  | .decode _ => true

theorem Instr.wellFormed_of_type (i : Instr) : i.wellFormed = true := by
  cases i with
  | tblWrite sym => exact decide_eq_true sym.isLt
  | tblInval sym => exact decide_eq_true sym.isLt
  | tblRead sym => exact decide_eq_true sym.isLt
  | nop => rfl
  | tblClear => rfl
  | tblCheck => rfl
  | encode => rfl
  | decode v => rfl

/-- A codeword the table can hold: 1 to L_MAX bits (30_encoding.md R96, R101). -/
def Codeword.wellFormed (c : Codeword) : Bool :=
  decide (1 ≤ c.length) && decide (c.length ≤ Config.lMax)

end Sys2Proof
end

