-- ==== Sys2Proof/Decode.lean ====
section
/-! DEFINITION. The command word (30_encoding.md R90 to R95): the decoder, total on every 32-bit
word and rejecting an illegal word by the field that makes it illegal; the encoder; and the opcode
map as the spec prints it, rows of match and mask. -/

namespace Sys2Proof

/-- Why a word is illegal (30_encoding.md R92, R93). -/
inductive IllegalWord where
  /-- The OPC is that of no row. -/
  | unassignedOpcode (opc : Byte)
  /-- The reserved field RSV is not 0. -/
  | reservedField (rsv : Byte)
  /-- A FLAGS bit that the command does not define is 1. -/
  | undefinedFlags (flags : Byte)
  /-- SYM is not 0 in a command that has no symbol operand. -/
  | unusedSymbol (sym : Byte)
  deriving DecidableEq, Repr

/-- OPC = w[31:24] (30_encoding.md R91). -/
def opcField (w : Word) : Byte := w.extractLsb' 24 8

/-- RSV = w[23:16] (30_encoding.md R90). -/
def rsvField (w : Word) : Byte := w.extractLsb' 16 8

/-- FLAGS = w[15:8] (30_encoding.md R90). -/
def flagsField (w : Word) : Byte := w.extractLsb' 8 8

/-- SYM = w[7:0] (30_encoding.md R91). -/
def symField (w : Word) : Byte := w.extractLsb' 0 8

/-- V = w[8] (30_encoding.md R91). -/
def vField (w : Word) : Bool := w.getLsbD 8

/-- A command without operand fields: RSV, FLAGS and SYM must be 0. -/
def decodePlain (w : Word) (i : Instr) : Except IllegalWord Instr :=
  if rsvField w ≠ 0 then .error (.reservedField (rsvField w))
  else if flagsField w ≠ 0 then .error (.undefinedFlags (flagsField w))
  else if symField w ≠ 0 then .error (.unusedSymbol (symField w))
  else .ok i

/-- A command with the operand SYM: RSV and FLAGS must be 0. -/
def decodeSym (w : Word) (i : Byte → Instr) : Except IllegalWord Instr :=
  if rsvField w ≠ 0 then .error (.reservedField (rsvField w))
  else if flagsField w ≠ 0 then .error (.undefinedFlags (flagsField w))
  else .ok (i (symField w))

/-- A command with the flag V: RSV, FLAGS[7:1] and SYM must be 0. -/
def decodeFlagV (w : Word) (i : Bool → Instr) : Except IllegalWord Instr :=
  if rsvField w ≠ 0 then .error (.reservedField (rsvField w))
  else if flagsField w &&& 0xFE#8 ≠ 0 then .error (.undefinedFlags (flagsField w))
  else if symField w ≠ 0 then .error (.unusedSymbol (symField w))
  else .ok (i (vField w))

/-- The decoder: the command of a word, or the field that makes the word illegal
(30_encoding.md R92, R93). -/
def decodeWord (w : Word) : Except IllegalWord Instr :=
  if opcField w = 0x00#8 then decodePlain w .nop
  else if opcField w = 0x01#8 then decodePlain w .tblClear
  else if opcField w = 0x02#8 then decodeSym w .tblWrite
  else if opcField w = 0x03#8 then decodeSym w .tblInval
  else if opcField w = 0x04#8 then decodeSym w .tblRead
  else if opcField w = 0x05#8 then decodePlain w .tblCheck
  else if opcField w = 0x10#8 then decodePlain w .encode
  else if opcField w = 0x11#8 then decodeFlagV w .decode
  else .error (.unassignedOpcode (opcField w))

/-- A command word from its fields (30_encoding.md R90), RSV 0. -/
def commandWord (opc flags sym : Byte) : Word := opc ++ 0x00#8 ++ flags ++ sym

/-- The encoder: the word of a command (30_encoding.md R93, R99). -/
def encode : Instr → Word
  | .nop => commandWord 0x00 0x00 0x00
  | .tblClear => commandWord 0x01 0x00 0x00
  | .tblWrite sym => commandWord 0x02 0x00 sym
  | .tblInval sym => commandWord 0x03 0x00 sym
  | .tblRead sym => commandWord 0x04 0x00 sym
  | .tblCheck => commandWord 0x05 0x00 0x00
  | .encode => commandWord 0x10 0x00 0x00
  | .decode false => commandWord 0x11 0x00 0x00
  | .decode true => commandWord 0x11 0x01 0x00

/-- A row of the opcode map (30_encoding.md R93). -/
structure OpcodeRow where
  /-- The mnemonic of the row. -/
  mnemonic : String
  /-- The column "match". -/
  pattern : Word
  /-- The column "mask". -/
  mask : Word
  deriving DecidableEq, Repr

/-- A word matches a row when `(w AND mask) = match` (30_encoding.md R92). -/
def OpcodeRow.matchesWord (r : OpcodeRow) (w : Word) : Bool := w &&& r.mask == r.pattern

/-- The opcode map, row by row as 30_encoding.md R93 prints it. -/
def opcodeMap : List OpcodeRow :=
  [⟨"NOP", 0x00000000#32, 0xFFFFFFFF#32⟩,
   ⟨"TBL.CLEAR", 0x01000000#32, 0xFFFFFFFF#32⟩,
   ⟨"TBL.WRITE", 0x02000000#32, 0xFFFFFF00#32⟩,
   ⟨"TBL.INVAL", 0x03000000#32, 0xFFFFFF00#32⟩,
   ⟨"TBL.READ", 0x04000000#32, 0xFFFFFF00#32⟩,
   ⟨"TBL.CHECK", 0x05000000#32, 0xFFFFFFFF#32⟩,
   ⟨"ENCODE", 0x10000000#32, 0xFFFFFFFF#32⟩,
   ⟨"DECODE", 0x11000000#32, 0xFFFFFEFF#32⟩]

/-- The word is legal: some row of the opcode map matches it (30_encoding.md R92). -/
def legalWord (w : Word) : Bool := opcodeMap.any fun r => r.matchesWord w

/-- The mnemonic of a command's row (30_encoding.md R93). -/
def Instr.mnemonic : Instr → String
  | .nop => "NOP"
  | .tblClear => "TBL.CLEAR"
  | .tblWrite _ => "TBL.WRITE"
  | .tblInval _ => "TBL.INVAL"
  | .tblRead _ => "TBL.READ"
  | .tblCheck => "TBL.CHECK"
  | .encode => "ENCODE"
  | .decode _ => "DECODE"

/-- The command the decoder reads from the word numbered as spec/opcode_table.json numbers its
bits. A command is exactly 32 bits (30_encoding.md R95), so no longer row exists. -/
def decodeTableWord (nbits w : Nat) : Option Instr :=
  if nbits ≤ 32 then
    match decodeWord (BitVec.ofNat 32 (w % 2 ^ nbits)) with
    | .ok i => some i
    | .error _ => none
  else none

end Sys2Proof
end

