-- ==== Sys2Proof/Machine/State.lean ====
section
/-! DEFINITION. The state of the block (10_state.md R20), of the world outside it that is yet to act
on it, and the state after reset. Plain data throughout. -/

namespace Sys2Proof.Machine

/-- Nothing stops this machine: "No behaviour of the block is `stuck`: every job completes"
(93_implementation_defined.md), an error is a completion record and never a trap (60_exceptions.md
R254), and a bus error is an answer on the bus (20_memory.md R65). So no fault reason exists
(log 16, safe: no run is cut short). -/
inductive Fault where
  deriving DecidableEq, Repr

/-- The reasons for which a step has no meaning. -/
inductive Refusal where
  /-- Raised by an arm of `exec` for a command that has no meaning yet (safe); no arm raises it. -/
  | notModelled (mnemonic : String)
  deriving DecidableEq, Repr

/-- The error codes the block writes (60_exceptions.md R250); 4 and 10 to 15 are never written. -/
inductive ErrCode where
  | none | lookupError | decodeError | validationError | illegalCmd | badEntry | rangeError
  | overlapError | outputOverflow
  deriving DecidableEq, Repr

/-- A codebook table entry (10_state.md R40). -/
structure Entry where
  valid : Bool
  len : BitVec 6
  bits : Word
  deriving DecidableEq, Repr

/-- The codebook table T[0..255] (10_state.md R40). -/
abbrev Table := Vector Entry Config.nsym

/-- DMEM (10_state.md R44): the bytes written since reset number `epoch`, in rising order of address.
An address that is not listed has not been written since and holds that reset's draw
(70_reset_and_hazards.md R281, log 2). -/
structure Memory where
  epoch : Nat
  cells : List Host.Cell
  deriving DecidableEq, Repr

/-- The canonical form of a memory: addresses strictly rising. An unlisted address has no value of
its own in the list, so no entry repeats what an unlisted address holds. -/
abbrev Memory.wf (m : Memory) : Prop := m.cells.Pairwise fun x y => x.1 < y.1

/-- The engine's job state (10_state.md R45). -/
inductive Job where
  | idle
  | pending (w : Word)
  deriving DecidableEq, Repr

/-- Whether a transaction reads or writes, with the written value (20_memory.md R60). -/
inductive Access where
  | read
  | write (wdata : Word)
  deriving DecidableEq, Repr

/-- The size of a transaction: 1, 2 or 4 bytes (20_memory.md R60). -/
inductive Size where
  | one | two | four
  deriving DecidableEq, Repr

/-- A host transaction (20_memory.md R60); `off` is a byte offset into the 1 MiB window. -/
structure Txn where
  access : Access
  off : BitVec 20
  size : Size
  deriving DecidableEq, Repr

/-- The status of a bus answer (20_memory.md R60). -/
inductive BusStatus where
  | ok | error
  deriving DecidableEq, Repr

/-- The block's answer to a transaction (20_memory.md R60); a write has no read data (log 10). -/
structure Response where
  status : BusStatus
  rdata : Option Word
  deriving DecidableEq, Repr

/-- What the world outside does to the block (log 7). -/
inductive Stimulus where
  /-- The host issues a transaction. -/
  | txn (t : Txn)
  /-- The host polls STATUS until BUSY reads 0 (30_encoding.md R101, WAIT; log 9). -/
  | wait
  /-- The reset input is asserted and released (70_reset_and_hazards.md R280; log 11). -/
  | reset
  deriving DecidableEq, Repr

/-- Who moves (40_command_lifecycle.md R120); the reset input is reached through the host's list. -/
inductive Agent where
  | host | engine
  deriving DecidableEq, Repr

/-- The state: the architectural state of 10_state.md R20 (down to `job`), and the model's own
fields. ID, PARAM, BUSY, ERR, IRQ and CMD are not storage (10_state.md R24, R25, R29, R31, R32, R35). -/
structure State where
  /-- CTRL.IRQ_EN (10_state.md R27). -/
  irqEn : Bool
  /-- STATUS.DONE (10_state.md R30). -/
  done : Bool
  /-- STATUS.CMD_REJECTED (10_state.md R33). -/
  cmdRejected : Bool
  /-- STATUS.ACCESS_WHILE_BUSY (10_state.md R34). -/
  accessWhileBusy : Bool
  /-- ERR_CODE (10_state.md R36). -/
  errCode : ErrCode
  /-- ERR_POS (10_state.md R37). -/
  errPos : Word
  /-- SRC_ADDR (10_state.md R38). -/
  srcAddr : Word
  /-- SRC_LEN (10_state.md R38). -/
  srcLen : Word
  /-- DST_ADDR (10_state.md R38). -/
  dstAddr : Word
  /-- DST_CAP (10_state.md R38). -/
  dstCap : Word
  /-- OUT_LEN (10_state.md R39). -/
  outLen : Word
  /-- TBL_LEN[5:0] (10_state.md R41). -/
  tblLen : BitVec 6
  /-- TBL_BITS (10_state.md R42). -/
  tblBits : Word
  /-- The codebook table (10_state.md R40). -/
  table : Table
  /-- The DMEM_SIZE register, the implementation's parameter (10_state.md R26; log 1). -/
  dmemSize : Config.DmemSize
  /-- DMEM (10_state.md R44). -/
  dmem : Memory
  /-- The engine's job state (10_state.md R45). -/
  job : Job
  /-- MODEL: the index of the next draw of a free value (log 6). -/
  draw : Nat
  /-- MODEL: what the world outside still does, in order (log 7). -/
  stimuli : List Stimulus
  /-- MODEL: who moves at the next steps (log 8). -/
  schedule : List Agent
  /-- MODEL: the answer to the last transaction (log 10). -/
  response : Option Response
  deriving DecidableEq, Repr

/-- The entry after reset: invalid (70_reset_and_hazards.md R282); its `len` and `bits` are
unspecified and unobservable. DESIGN CHOICE (log 5): held as 0. -/
def Entry.atReset : Entry := ⟨false, 0, 0⟩

/-- The block after a reset (70_reset_and_hazards.md R280): DMEM holds the draws of reset number
`epoch` (R281), the table is empty (R282), the job is Idle; nothing outside is about to act. -/
def State.atReset (size : Config.DmemSize) (epoch : Nat) : State where
  irqEn := false
  done := false
  cmdRejected := false
  accessWhileBusy := false
  errCode := .none
  errPos := 0
  srcAddr := 0
  srcLen := 0
  dstAddr := 0
  dstCap := 0
  outLen := 0
  tblLen := 0
  tblBits := 0
  table := Vector.replicate Config.nsym Entry.atReset
  dmemSize := size
  dmem := ⟨epoch, []⟩
  job := .idle
  draw := epoch
  stimuli := []
  schedule := []
  response := none

/-- The machine right after the first reset, of a block of the reference size (log 1). -/
def State.reset : State := State.atReset Config.referenceDmemSize 0

end Sys2Proof.Machine
end

