-- ==== Sys2Proof/Machine/Flags.lean ====
section
/-! DEFINITION. The status bits: those that are not storage, the STATUS and CTRL words, and what a
write to them does. -/

namespace Sys2Proof.Machine

/-- ERR_CODE as the register's bits [3:0] (60_exceptions.md R250). -/
def ErrCode.toBits : ErrCode → BitVec 4
  | .none => 0
  | .lookupError => 1
  | .decodeError => 2
  | .validationError => 3
  | .illegalCmd => 5
  | .badEntry => 6
  | .rangeError => 7
  | .overlapError => 8
  | .outputOverflow => 9

/-- The job is pending. -/
def Job.isPending : Job → Bool
  | .idle => false
  | .pending _ => true

/-- STATUS.BUSY: the job state is not Idle (10_state.md R29). -/
def State.busy (s : State) : Bool := s.job.isPending

/-- STATUS.ERR: ERR_CODE ≠ 0 (10_state.md R31). -/
def State.err (s : State) : Bool := s.errCode.toBits != 0

/-- The interrupt line, and STATUS.IRQ: IRQ_EN AND DONE (10_state.md R32, R46). -/
def State.irq (s : State) : Bool := s.irqEn && s.done

/-- A 32-bit word that holds one bit at place `i`. -/
def bitAt (i : Nat) (b : Bool) : Word := if b then 1#32 <<< i else 0#32

/-- The value of STATUS: every field at its place, reserved bits 0 (10_state.md R28). -/
def State.statusWord (s : State) : Word :=
  bitAt 0 s.busy ||| bitAt 1 s.done ||| bitAt 2 s.err ||| bitAt 3 s.irq |||
    bitAt 8 s.cmdRejected ||| bitAt 9 s.accessWhileBusy

/-- The value of CTRL: IRQ_EN in bit 0, reserved bits 0 (10_state.md R27). -/
def State.ctrlWord (s : State) : Word := bitAt 0 s.irqEn

/-- A write to STATUS: each W1C field whose bit is 1 is cleared; no bit is ever set
(10_state.md R28). -/
def State.writeStatus (s : State) (wdata : Word) : State :=
  { s with
    done := s.done && !wdata.getLsbD 1
    cmdRejected := s.cmdRejected && !wdata.getLsbD 8
    accessWhileBusy := s.accessWhileBusy && !wdata.getLsbD 9 }

/-- A write to CTRL stores `wdata[0]` in IRQ_EN (10_state.md R27). -/
def State.writeCtrl (s : State) (wdata : Word) : State := { s with irqEn := wdata.getLsbD 0 }

end Sys2Proof.Machine
end

