-- ==== Sys2Proof/Machine/Operands.lean ====
section
/-! DEFINITION. Operands: codewords in table entries, bit characters, the symbol index, the operands
of TBL.WRITE, the source and destination regions of a job with their checks, and the values recorded
in ERR_POS. -/

namespace Sys2Proof.Machine

/-- The bit character of a bit, `chr(b)` (00_scope.md R11, 30_encoding.md R97). -/
def bitChar (b : Bool) : Byte := if b then Config.bit1 else Config.bit0

/-- `T[s]`, indexed by the symbol's byte value (30_encoding.md R91). -/
def Table.entry (T : Table) (s : Byte) : Entry := T[s.toNat]'s.isLt

/-- `T[s] <- e` (00_scope.md R11). -/
def Table.setEntry (T : Table) (s : Byte) (e : Entry) : Table := T.set s.toNat e s.isLt

/-- Every symbol, 0 to 255 in rising order. -/
def symbols : List Byte := (List.range Config.nsym).map (BitVec.ofNat 8)

/-- The codeword's length of an entry as a number. -/
def Entry.length (e : Entry) : Nat := e.len.toNat

/-- Bit c_j of the codeword held in an entry: `bits[len - 1 - j]` (30_encoding.md R96). -/
def Entry.codeBit (e : Entry) (j : Nat) : Bool := e.bits.getLsbD (e.length - 1 - j)

/-- `cw(s)`: the codeword held in a valid entry, first bit first (00_scope.md R11). -/
def Entry.codeword (e : Entry) : Codeword := (List.range e.length).map e.codeBit

/-- The value of a codeword read as a binary numeral, first bit most significant
(30_encoding.md R96). -/
def Codeword.value (c : Codeword) : Nat := c.foldl (fun v b => 2 * v + b.toNat) 0

/-- `bits` of a codeword: its value in 32 bits (30_encoding.md R96). -/
def Codeword.bits (c : Codeword) : Word := BitVec.ofNat 32 (Codeword.value c)

/-- `2^n - 1` as a 32-bit mask (41_codebook_table.md R142). -/
def lowMask (n : Nat) : Word := BitVec.ofNat 32 (2 ^ n - 1)

/-- TBL.WRITE refuses the length operand (41_codebook_table.md R142): 0 or above L_MAX. -/
def badLength (len : BitVec 6) : Bool := len.toNat == 0 || decide (Config.lMax < len.toNat)

/-- The entry TBL.WRITE stores: bits at and above the length are dropped (41_codebook_table.md R142). -/
def Entry.ofOperands (len : BitVec 6) (bits : Word) : Entry := ⟨true, len, bits &&& lowMask len.toNat⟩

/-- `a ⊑ b` in the bit layout (41_codebook_table.md R140). -/
def Entry.prefixOf (a b : Entry) : Bool :=
  decide (a.length ≤ b.length) && (b.bits >>> (b.length - a.length) == a.bits)

/-- Two distinct valid symbols with the codeword of `a` a prefix of that of `b`
(41_codebook_table.md R148). -/
def Table.conflict (T : Table) (a b : Byte) : Bool :=
  a != b && (T.entry a).valid && (T.entry b).valid && (T.entry a).prefixOf (T.entry b)

/-- `FindConflict(T)` (41_codebook_table.md R148): the pair with the smallest `a` and for it the
smallest `b`. The inner loop is skipped for an invalid `a`, for which it finds nothing (log 21). -/
def Table.findConflict (T : Table) : Option (Byte × Byte) :=
  symbols.findSome? fun a =>
    if (T.entry a).valid then (symbols.find? fun b => T.conflict a b).map fun b => (a, b) else none

/-- The table is prefix-free (41_codebook_table.md R140). -/
def Table.prefixFree (T : Table) : Prop := ∀ a b : Byte, T.conflict a b = false

/-- The pair as ERR_POS records it, `a | (b << 8)` (60_exceptions.md R251). -/
def pairPos (a b : Byte) : Nat := a.toNat + 256 * b.toNat

/-- The end of the source region, `SRC_ADDR + SRC_LEN` on naturals (20_memory.md R73). -/
def State.srcEnd (s : State) : Nat := s.srcAddr.toNat + s.srcLen.toNat

/-- The end of the destination region, `DST_ADDR + DST_CAP` on naturals (20_memory.md R73). -/
def State.dstEnd (s : State) : Nat := s.dstAddr.toNat + s.dstCap.toNat

/-- `src_ok` (20_memory.md R73). -/
def State.srcOk (s : State) : Bool := decide (s.srcEnd ≤ s.dmemSize.val)

/-- `dst_ok` (20_memory.md R73). -/
def State.dstOk (s : State) : Bool := decide (s.dstEnd ≤ s.dmemSize.val)

/-- `overlap` (20_memory.md R73). -/
def State.overlap (s : State) : Bool :=
  decide (0 < s.srcLen.toNat) && decide (0 < s.dstCap.toNat) &&
    decide (s.srcAddr.toNat < s.dstEnd) && decide (s.dstAddr.toNat < s.srcEnd)

/-- A command's error: its code and its position (00_scope.md R11, `raise E(pos)`). -/
structure JobError where
  code : ErrCode
  pos : Nat
  deriving DecidableEq, Repr

/-- The region checks that open ENCODE and DECODE, in their order (42_encode.md R170, 43_decode.md
R191, 60_exceptions.md R252). -/
def State.regionError (s : State) : Option JobError :=
  if s.srcOk = false then some ⟨.rangeError, 0⟩
  else if s.dstOk = false then some ⟨.rangeError, 1⟩
  else if s.overlap = true then some ⟨.overlapError, 0⟩
  else none

end Sys2Proof.Machine
end

