-- ==== Sys2Proof/Machine/Ops.lean ====
section
/-! DEFINITION. The named operations that the commands and the bus share: DMEM, one byte at a time
and little-endian; acceptance, rejection and completion of a command; raising an error, the block's
only form of exception (60_exceptions.md R254: it saves no state and redirects nothing, so there is
no return from it, R255); and the reset. -/

namespace Sys2Proof.Machine

/-- The value listed at an address. -/
def lookupCell : List Host.Cell → Nat → Option Byte
  | [], _ => none
  | (k, v) :: rest, a => if k = a then some v else lookupCell rest a

/-- Write one byte into a listing in rising order of address. -/
def insertCell : List Host.Cell → Nat → Byte → List Host.Cell
  | [], a, v => [(a, v)]
  | (k, w) :: rest, a, v =>
    if a < k then (a, v) :: (k, w) :: rest
    else if a = k then (a, v) :: rest
    else (k, w) :: insertCell rest a v

/-- What an unlisted address holds: the draw of the memory's reset (70_reset_and_hazards.md R281,
log 2). -/
def Memory.unlisted (m : Memory) (a : Nat) : Byte := Config.freeResetByte m.epoch a

/-- `MemRead(a, 1)` (20_memory.md R70). -/
def Memory.read (m : Memory) (a : Nat) : Byte := (lookupCell m.cells a).getD (m.unlisted a)

/-- `MemWrite(a, 1, v)` (20_memory.md R71). -/
def Memory.write (m : Memory) (a : Nat) (v : Byte) : Memory :=
  { m with cells := insertCell m.cells a v }

/-- Bytes written at rising addresses from `a` on. -/
def Memory.writeBytes (m : Memory) (a : Nat) : List Byte → Memory
  | [] => m
  | v :: vs => (m.write a v).writeBytes (a + 1) vs

/-- The `n` bytes from address `a` on. -/
def Memory.readBytes (m : Memory) (a n : Nat) : List Byte :=
  (List.range n).map fun i => m.read (a + i)

/-- Little-endian read of `n` bytes, zero-extended (20_memory.md R64, R67). -/
def Memory.readLE (m : Memory) (a : Nat) : Nat → Word
  | 0 => 0
  | n + 1 => (m.read a).setWidth 32 ||| m.readLE (a + 1) n <<< 8

/-- Little-endian write of the low `n` bytes of `v` (20_memory.md R64, R67). -/
def Memory.writeLE (m : Memory) (a : Nat) : Nat → Word → Memory
  | 0, _ => m
  | n + 1, v => (m.write a (v.setWidth 8)).writeLE (a + 1) n (v >>> 8)

/-- Each of the `n` bytes from `a` on takes a free value of draw `draw` (60_exceptions.md R253,
log 3). -/
def Memory.spoil (m : Memory) (draw a n : Nat) : Memory :=
  m.writeBytes a ((List.range n).map fun i => Config.freeFailByte draw (a + i))

/-- Acceptance of a command word (40_command_lifecycle.md R121). -/
def State.accept (s : State) (w : Word) : State :=
  { s with job := .pending w, done := false, errCode := .none, errPos := 0, outLen := 0 }

/-- Rejection of a command word while BUSY (40_command_lifecycle.md R122). -/
def State.reject (s : State) : State := { s with cmdRejected := true }

/-- A host write to CMD: accepted or rejected by BUSY alone, the word is not inspected
(40_command_lifecycle.md R121, R122). -/
def State.submit (s : State) (w : Word) : State := if s.busy then s.reject else s.accept w

/-- `complete(code, pos)` (40_command_lifecycle.md R124). `out` is the value the success path gives
OUT_LEN, 0 on every other path (10_state.md R39, log 13). Every completion advances the draw
index (log 6). -/
def State.complete (s : State) (code : ErrCode) (pos : Nat) (out : Nat) : State :=
  { s with
    errCode := code
    errPos := if code = .none then 0 else BitVec.ofNat 32 pos
    outLen := BitVec.ofNat 32 out
    done := true
    job := .idle
    draw := s.draw + 1 }

/-- A command that succeeds without output: `complete(0, 0)`. -/
def State.succeed (s : State) : State := s.complete .none 0 0

/-- The errors after which the destination region holds any value (60_exceptions.md R253). -/
def ErrCode.spoilsDestination : ErrCode → Bool
  | .lookupError => true
  | .decodeError => true
  | .outputOverflow => true
  | .none => false
  | .validationError => false
  | .illegalCmd => false
  | .badEntry => false
  | .rangeError => false
  | .overlapError => false

/-- `raise E(pos)` (00_scope.md R11): the error's effect on DMEM (60_exceptions.md R253) and the
completion with its code and position. The block takes no other kind of exception (R254). -/
def State.raise (s : State) (e : JobError) : State :=
  let dmem := if e.code.spoilsDestination
    then s.dmem.spoil s.draw s.dstAddr.toNat s.dstCap.toNat else s.dmem
  { s with dmem := dmem }.complete e.code e.pos 0

/-- The reset (70_reset_and_hazards.md R280): every register and the table at their reset values,
DMEM at the draws of a new reset (R281), a pending job abandoned. The size of DMEM is the
implementation's; what the world outside does next is not the block's to change (log 11). -/
def State.resetBlock (s : State) : State :=
  { State.atReset s.dmemSize (s.draw + 1) with
    stimuli := s.stimuli, schedule := s.schedule, response := s.response }

end Sys2Proof.Machine
end

