-- ==== Sys2Proof/Machine/Bus.lean ====
section
/-! DEFINITION. The host bus: the register map (10_state.md R23), and the transactions of the host
window (20_memory.md R60 to R69). -/

namespace Sys2Proof.Machine

/-- The implemented registers (10_state.md R23). -/
inductive Reg where
  | id | param | dmemSize | ctrl | status | cmd | errCode | errPos | srcAddr | srcLen | dstAddr
  | dstCap | outLen | tblLen | tblBits
  deriving DecidableEq, Repr

/-- Host offset of a register (10_state.md R23). -/
def Reg.offset : Reg → Nat
  | .id => 0x000
  | .param => 0x004
  | .dmemSize => 0x008
  | .ctrl => 0x00C
  | .status => 0x010
  | .cmd => 0x014
  | .errCode => 0x018
  | .errPos => 0x01C
  | .srcAddr => 0x020
  | .srcLen => 0x024
  | .dstAddr => 0x028
  | .dstCap => 0x02C
  | .outLen => 0x030
  | .tblLen => 0x034
  | .tblBits => 0x038

/-- Every register, in the order of the map. -/
def Reg.all : List Reg :=
  [.id, .param, .dmemSize, .ctrl, .status, .cmd, .errCode, .errPos, .srcAddr, .srcLen, .dstAddr,
   .dstCap, .outLen, .tblLen, .tblBits]

/-- The register at an offset; every other offset of the register region is reserved. -/
def Reg.ofOffset (off : Nat) : Option Reg := Reg.all.find? fun r => r.offset == off

/-- The value a host read of a register returns (10_state.md R24 to R42). -/
def State.readReg (s : State) : Reg → Word
  | .id => Config.idValue
  | .param => Config.paramValue
  | .dmemSize => BitVec.ofNat 32 s.dmemSize.val
  | .ctrl => s.ctrlWord
  | .status => s.statusWord
  | .cmd => 0
  | .errCode => s.errCode.toBits.setWidth 32
  | .errPos => s.errPos
  | .srcAddr => s.srcAddr
  | .srcLen => s.srcLen
  | .dstAddr => s.dstAddr
  | .dstCap => s.dstCap
  | .outLen => s.outLen
  | .tblLen => s.tblLen.setWidth 32
  | .tblBits => s.tblBits

/-- An access that BUSY blocks: it only sets ACCESS_WHILE_BUSY (10_state.md R34). -/
def State.blocked (s : State) : State := { s with accessWhileBusy := true }

/-- A write to an operand register: stored while idle, dropped and flagged while BUSY
(10_state.md R38). -/
def State.writeOperand (s s' : State) : State := if s.busy then s.blocked else s'

/-- What a host write to a register does (10_state.md R24 to R42); a write to a read-only register
is ignored. -/
def State.writeReg (s : State) (v : Word) : Reg → State
  | .id => s
  | .param => s
  | .dmemSize => s
  | .ctrl => s.writeCtrl v
  | .status => s.writeStatus v
  | .cmd => s.submit v
  | .errCode => s
  | .errPos => s
  | .srcAddr => s.writeOperand { s with srcAddr := v }
  | .srcLen => s.writeOperand { s with srcLen := v }
  | .dstAddr => s.writeOperand { s with dstAddr := v }
  | .dstCap => s.writeOperand { s with dstCap := v }
  | .outLen => s
  | .tblLen => s.writeOperand { s with tblLen := v.setWidth 6 }
  | .tblBits => s.writeOperand { s with tblBits := v }

/-- Bytes of a transaction (20_memory.md R60). -/
def Size.bytes : Size → Nat
  | .one => 1
  | .two => 2
  | .four => 4

/-- What a transaction reaches (20_memory.md R61, R63, R64). -/
inductive Target where
  | register (r : Reg)
  | reserved
  | dmem (a : Nat)
  | illegal
  deriving DecidableEq, Repr

/-- The host window map (20_memory.md R61) with the legality rules of the register region (R63) and
of the DMEM window (R64). -/
def Txn.target (t : Txn) (size : Config.DmemSize) : Target :=
  if t.off.toNat < Config.registerRegion then
    if t.size = .four ∧ t.off.toNat % 4 = 0 then
      match Reg.ofOffset t.off.toNat with
      | some r => .register r
      | none => .reserved
    else .illegal
  else if t.off.toNat < Config.dmemBase then .illegal
  else if (t.off.toNat - Config.dmemBase) % t.size.bytes = 0 ∧
      t.off.toNat - Config.dmemBase + t.size.bytes ≤ size.val then
    .dmem (t.off.toNat - Config.dmemBase)
  else .illegal

/-- The answer to an access with status `st`: a read returns `rdata`, a write returns no data. -/
def Access.answer (a : Access) (st : BusStatus) (rdata : Word) : Response :=
  match a with
  | .read => ⟨st, some rdata⟩
  | .write _ => ⟨st, none⟩

/-- A legal access to the DMEM window at `a` (20_memory.md R64, R66). -/
def State.accessDmem (s : State) (t : Txn) (a : Nat) : State × Response :=
  if s.busy then (s.blocked, t.access.answer .ok 0)
  else
    match t.access with
    | .read => (s, ⟨.ok, some (s.dmem.readLE a t.size.bytes)⟩)
    | .write v => ({ s with dmem := s.dmem.writeLE a t.size.bytes v }, ⟨.ok, none⟩)

/-- One host transaction: the block after it and the block's answer (20_memory.md R60 to R66). -/
def State.busAccess (s : State) (t : Txn) : State × Response :=
  match t.target s.dmemSize with
  | .illegal => (s, t.access.answer .error 0)
  | .reserved => (s, t.access.answer .ok 0)
  | .register r =>
    match t.access with
    | .read => (s, ⟨.ok, some (s.readReg r)⟩)
    | .write v => (s.writeReg v r, ⟨.ok, none⟩)
  | .dmem a => s.accessDmem t a

/-- One host transaction, its answer kept for the host (log 10). -/
def State.transact (s : State) (t : Txn) : State :=
  { (s.busAccess t).1 with response := some (s.busAccess t).2 }

/-- The 4-byte read of a register (30_encoding.md R100, `rd NAME`). -/
def Txn.readReg (r : Reg) : Txn := ⟨.read, BitVec.ofNat 20 r.offset, .four⟩

/-- The 4-byte write of a register (30_encoding.md R100, `wr NAME, v`). -/
def Txn.writeReg (r : Reg) (v : Word) : Txn := ⟨.write v, BitVec.ofNat 20 r.offset, .four⟩

/-- The 1-byte read of DMEM[a] through the window (30_encoding.md R100, `rdb`). -/
def Txn.readDmemByte (a : Nat) : Txn := ⟨.read, BitVec.ofNat 20 (Config.dmemBase + a), .one⟩

/-- The 1-byte write of DMEM[a] through the window (30_encoding.md R100, `wrb`). -/
def Txn.writeDmemByte (a : Nat) (v : Byte) : Txn :=
  ⟨.write (v.setWidth 32), BitVec.ofNat 20 (Config.dmemBase + a), .one⟩

end Sys2Proof.Machine
end

