-- ==== Sys2Proof/Machine/TableCommands.lean ====
section
/-! DEFINITION. The codebook table commands (41_codebook_table.md R141 to R148). -/

namespace Sys2Proof.Machine

/-- `T[s].valid <- 0`; `len` and `bits` stay and are not observable (41_codebook_table.md R144). -/
def Entry.invalidate (e : Entry) : Entry := { e with valid := false }

/-- TBL.CLEAR (41_codebook_table.md R141): every entry becomes invalid. -/
def execTblClear (s : State) : Host.Outcome State Fault Refusal :=
  .next { s with table := s.table.map Entry.invalidate }.succeed

/-- TBL.WRITE sym (41_codebook_table.md R142): the entry takes the codeword of TBL_LEN and TBL_BITS;
BAD_ENTRY, and the entry stays, if the length is 0 or above 32. -/
def execTblWrite (sym : Byte) (s : State) : Host.Outcome State Fault Refusal :=
  if badLength s.tblLen then .next (s.raise ⟨.badEntry, sym.toNat⟩)
  else .next { s with table := s.table.setEntry sym (.ofOperands s.tblLen s.tblBits) }.succeed

/-- TBL.INVAL sym (41_codebook_table.md R144). -/
def execTblInval (sym : Byte) (s : State) : Host.Outcome State Fault Refusal :=
  .next { s with table := s.table.setEntry sym (s.table.entry sym).invalidate }.succeed

/-- TBL.READ sym (41_codebook_table.md R145): TBL_LEN and TBL_BITS take the entry, or 0 and 0 if it
is invalid. -/
def execTblRead (sym : Byte) (s : State) : Host.Outcome State Fault Refusal :=
  if (s.table.entry sym).valid then
    .next { s with tblLen := (s.table.entry sym).len, tblBits := (s.table.entry sym).bits }.succeed
  else .next { s with tblLen := 0, tblBits := 0 }.succeed

/-- The validation pass of TBL.CHECK and DECODE.V: VALIDATION_ERROR with the pair of FindConflict
(41_codebook_table.md R147, 43_decode.md R191). -/
def State.validationError (s : State) : Option JobError :=
  s.table.findConflict.map fun p => ⟨.validationError, pairPos p.1 p.2⟩

/-- TBL.CHECK (41_codebook_table.md R147). -/
def execTblCheck (s : State) : Host.Outcome State Fault Refusal :=
  match s.validationError with
  | some e => .next (s.raise e)
  | none => .next s.succeed

end Sys2Proof.Machine
end

