-- ==== Sys2Proof/Machine/Decoder.lean ====
section
/-! DEFINITION. DECODE and DECODE.V (43_decode.md R190 to R202): the pseudocode, which is normative,
and the state machine of R190, which the host cannot see. -/

namespace Sys2Proof.Machine

/-- `Matches(x, k)` (43_decode.md R192), read from DMEM `m`: the entry of `x` is valid, its codeword
fits in the rest of the input, and each bit equals the input byte at its place. -/
def State.matchesAt (s : State) (m : Memory) (k : Nat) (x : Byte) : Bool :=
  let e := s.table.entry x
  e.valid && decide (k + e.length ≤ s.srcLen.toNat) &&
    (List.range e.length).all fun j => m.read (s.srcAddr.toNat + k + j) == bitChar (e.codeBit j)

/-- `M`, the symbols that match at cursor `k` (43_decode.md R191). -/
def State.matchSet (s : State) (m : Memory) (k : Nat) : List Byte :=
  symbols.filter (s.matchesAt m k)

/-- `choose x ∈ M` (43_decode.md R195): none of an empty set, the element of a set of one, and a
free choice among several (log 4). -/
def chooseFrom (draw n : Nat) : List Byte → Option Byte
  | [] => none
  | [x] => some x
  | x :: y :: rest =>
    some ((x :: y :: rest)[Config.freeChoice draw n % (x :: y :: rest).length]'
      (Nat.mod_lt _ (Nat.succ_pos _)))

/-- The symbol emitted as number `n` at cursor `k`, if any matches. -/
def State.matchChoice (s : State) (m : Memory) (n k : Nat) : Option Byte :=
  chooseFrom s.draw n (s.matchSet m k)

/-- The loop of DECODE (43_decode.md R191) with room for `room` more symbols, `n` symbols emitted,
cursor `k` and DMEM `m`: the DMEM and the number of symbols, or the first error. Each pass that does
not end the job emits one symbol, so the room bounds the passes; `n + 1 > DST_CAP` is `room = 0`
(log 14). -/
def State.decodeLoop (s : State) : (room n k : Nat) → Memory → Except JobError (Memory × Nat)
  | room, n, k, m =>
    if s.srcLen.toNat ≤ k then .ok (m, n)
    else
      match s.matchChoice m n k with
      | none => .error ⟨.decodeError, k⟩
      | some x =>
        match room with
        | 0 => .error ⟨.outputOverflow, k⟩
        | room' + 1 =>
          s.decodeLoop room' (n + 1) (k + (s.table.entry x).length)
            (m.write (s.dstAddr.toNat + n) x)

/-- The errors found before the data pass, in their order (43_decode.md R191, 60_exceptions.md
R252). -/
def State.decodeCheck (s : State) (v : Bool) : Option JobError :=
  match s.regionError with
  | some e => some e
  | none => if v then s.validationError else none

/-- DECODE (`v = false`) and DECODE.V (`v = true`) (43_decode.md R191). -/
def execDecode (v : Bool) (s : State) : Host.Outcome State Fault Refusal :=
  match s.decodeCheck v with
  | some e => .next (s.raise e)
  | none =>
    match s.decodeLoop s.dstCap.toNat 0 0 s.dmem with
    | .error e => .next (s.raise e)
    | .ok (m, n) => .next ({ s with dmem := m }.complete .none 0 n)

/-- The internal states of the decoder (43_decode.md R190), each with what it carries: cursor `k`,
count `n`, the chosen symbol `x`, and the DMEM as the engine has written it so far. -/
inductive Phase where
  | check
  | validate
  | scan (k n : Nat) (m : Memory)
  | emit (k n : Nat) (x : Byte) (m : Memory)
  | error (e : JobError)
  | done (n : Nat) (m : Memory)
  deriving DecidableEq, Repr

/-- The column "next" of 43_decode.md R190 for a job with flag `v`; ERROR and DONE complete the job
and are left by that completion. -/
def Phase.next (s : State) (v : Bool) : Phase → Phase
  | .check =>
    match s.regionError with
    | some e => .error e
    | none => if v then .validate else .scan 0 0 s.dmem
  | .validate =>
    match s.validationError with
    | some e => .error e
    | none => .scan 0 0 s.dmem
  | .scan k n m =>
    if k = s.srcLen.toNat then .done n m
    else
      match s.matchChoice m n k with
      | none => .error ⟨.decodeError, k⟩
      | some x => .emit k n x m
  | .emit k n x m =>
    if s.dstCap.toNat < n + 1 then .error ⟨.outputOverflow, k⟩
    else .scan (k + (s.table.entry x).length) (n + 1) (m.write (s.dstAddr.toNat + n) x)
  | .error e => .error e
  | .done n m => .done n m

/-- The completion that a final phase performs (43_decode.md R190: rows ERROR and DONE). -/
def Phase.completion (s : State) : Phase → Option State
  | .error e => some (s.raise e)
  | .done n m => some ({ s with dmem := m }.complete .none 0 n)
  | .check => none
  | .validate => none
  | .scan _ _ _ => none
  | .emit _ _ _ _ => none

/-- `j` moves of the decoder's state machine from a phase. -/
def Phase.run (s : State) (v : Bool) : Nat → Phase → Phase
  | 0, p => p
  | j + 1, p => (p.next s v).run s v j

end Sys2Proof.Machine
end

