-- ==== Sys2Proof/Machine/Encoder.lean ====
section
/-! DEFINITION. ENCODE (42_encode.md R170 to R178). -/

namespace Sys2Proof.Machine

/-- EncodeLoop (42_encode.md R171) for the next `n` source symbols, from source index `i` with `o`
bit characters written and DMEM `m`: the DMEM and the output length, or the first error. -/
def State.encodeLoop (s : State) : (n i o : Nat) → Memory → Except JobError (Memory × Nat)
  | 0, _, o, m => .ok (m, o)
  | n + 1, i, o, m =>
    let e := s.table.entry (m.read (s.srcAddr.toNat + i))
    if e.valid = false then .error ⟨.lookupError, i⟩
    else if s.dstCap.toNat < o + e.length then .error ⟨.outputOverflow, i⟩
    else s.encodeLoop n (i + 1) (o + e.length)
      (m.writeBytes (s.dstAddr.toNat + o) (e.codeword.map bitChar))

/-- ENCODE (42_encode.md R170). -/
def execEncode (s : State) : Host.Outcome State Fault Refusal :=
  match s.regionError with
  | some e => .next (s.raise e)
  | none =>
    match s.encodeLoop s.srcLen.toNat 0 0 s.dmem with
    | .error e => .next (s.raise e)
    | .ok (m, o) => .next ({ s with dmem := m }.complete .none 0 o)

end Sys2Proof.Machine
end

