-- ==== Sys2Proof/Machine/Lifecycle.lean ====
section
/-! DEFINITION. NOP and illegal words (40_command_lifecycle.md R125, R126). A meaning is the engine's
completion step of its command (R123, R124). -/

namespace Sys2Proof.Machine

/-- NOP (40_command_lifecycle.md R125): `complete(0, 0)`. -/
def execNop (s : State) : Host.Outcome State Fault Refusal := .next s.succeed

/-- The completion of an illegal word (40_command_lifecycle.md R126). -/
def execIllegal (s : State) : Host.Outcome State Fault Refusal := .next (s.raise ⟨.illegalCmd, 0⟩)

end Sys2Proof.Machine
end

