-- ==== Sys2Proof/Machine/Dispatch.lean ====
section
/-! DEFINITION. The meaning of every command: the engine's completion step of a job whose word
decodes to it (40_command_lifecycle.md R123). -/

namespace Sys2Proof.Machine

def exec (i : Instr) (s : State) : Host.Outcome State Fault Refusal :=
  match i with
  | .nop => Sys2Proof.Machine.execNop s
  | .tblClear => Sys2Proof.Machine.execTblClear s
  | .tblWrite sym => Sys2Proof.Machine.execTblWrite sym s
  | .tblInval sym => Sys2Proof.Machine.execTblInval sym s
  | .tblRead sym => Sys2Proof.Machine.execTblRead sym s
  | .tblCheck => Sys2Proof.Machine.execTblCheck s
  | .encode => Sys2Proof.Machine.execEncode s
  | .decode v => Sys2Proof.Machine.execDecode v s

end Sys2Proof.Machine
end

