-- ==== Sys2Proof/Machine/Agents.lean ====
section
/-! DEFINITION. The two agents (40_command_lifecycle.md R120): the engine, whose one step completes
the pending job, and the host, which issues its next transaction. -/

namespace Sys2Proof.Machine

/-- The completion of a pending word: the command it decodes to, or the illegal word's completion
(40_command_lifecycle.md R123). -/
def completeWord (w : Word) (s : State) : Host.Outcome State Fault Refusal :=
  match decodeWord w with
  | .ok i => exec i s
  | .error _ => execIllegal s

/-- The engine's step. It has none while the job is Idle: its turn passes. -/
def engineStep (s : State) : Host.Outcome State Fault Refusal :=
  match s.job with
  | .idle => .next s
  | .pending w => completeWord w s

/-- BUSY as a read of STATUS shows it (30_encoding.md R101, WAIT: "until bit 0 (BUSY) reads 0"). -/
def State.readsBusy (s : State) : Bool := (s.readReg .status).getLsbD 0

/-- The step of the world outside: its next stimulus. With none left nothing happens. A WAIT reads
STATUS and stays while BUSY reads 1 (30_encoding.md R101, log 9). -/
def hostStep (s : State) : Host.Outcome State Fault Refusal :=
  match s.stimuli with
  | [] => .next s
  | .txn t :: rest => .next ({ s with stimuli := rest }.transact t)
  | .wait :: rest =>
    .next ({ s with stimuli := if s.readsBusy then .wait :: rest else rest }.transact
      (.readReg .status))
  | .reset :: rest => .next { s with stimuli := rest }.resetBlock

/-- Who moves now: the schedule's next agent; when the schedule is used up the engine, if a job is
pending, and else the host (40_command_lifecycle.md R120, log 8). -/
def State.mover (s : State) : Agent :=
  match s.schedule with
  | [] => if s.busy then .engine else .host
  | a :: _ => a

/-- The state with its schedule advanced by one step. -/
def State.afterTurn (s : State) : State := { s with schedule := s.schedule.tail }

/-- The state in which an accepted word `w` is pending and the engine moves next. -/
def State.withPending (s : State) (w : Word) : State :=
  { s.accept w with schedule := .engine :: s.schedule }

end Sys2Proof.Machine
end

