-- ==== Sys2Proof/Machine/Step.lean ====
section
/-! DEFINITION. One step of the machine: one atomic event (20_memory.md R80). -/

namespace Sys2Proof.Machine

/-- One step: the agent whose turn it is moves. -/
def step (s : State) : Host.Outcome State Fault Refusal :=
  match s.mover with
  | .engine => engineStep s.afterTurn
  | .host => hostStep s.afterTurn

/-- The state in which the word `w` has just been accepted and the engine moves next, so that the
very next step completes it. The block fetches nothing (10_state.md R22): its commands are host
writes to CMD, and this stands for one (log 15). -/
def State.withFetchWord (s : State) (nbits w : Nat) : State :=
  s.withPending (BitVec.ofNat 32 (w % 2 ^ nbits))

end Sys2Proof.Machine
end

