-- ==== Sys2Proof/Machine/Script.lean ====
section
/-! DEFINITION. Host scripts (30_encoding.md R99 to R101): the assembler's mnemonics, the script
lines with their expansion into what the host does on the bus, and the read back of the codebook
(41_codebook_table.md R146). Text is a list of characters (log 19). -/

namespace Sys2Proof.Machine

/-- The byte of a character: its ASCII code (30_encoding.md R98). -/
def byteOfChar (c : Char) : Byte := BitVec.ofNat 8 c.toNat

/-- The bytes of a text (30_encoding.md R98, R100). -/
def bytesOfText (text : List Char) : List Byte := text.map byteOfChar

/-- The bit characters of a codeword as a text over '0' and '1' (00_scope.md R10). -/
def codewordOfText (text : List Char) : Codeword := text.map fun c => c == '1'

/-- The mnemonics of the assembler and the words they stand for, without and with an operand
(30_encoding.md R99). -/
def assembleUpper (mnemonic : List Char) (sym : Option Byte) : Option Word :=
  match mnemonic, sym with
  | ['N', 'O', 'P'], none => some (encode .nop)
  | ['T', 'B', 'L', '.', 'C', 'L', 'E', 'A', 'R'], none => some (encode .tblClear)
  | ['T', 'B', 'L', '.', 'W', 'R', 'I', 'T', 'E'], some x => some (encode (.tblWrite x))
  | ['T', 'B', 'L', '.', 'I', 'N', 'V', 'A', 'L'], some x => some (encode (.tblInval x))
  | ['T', 'B', 'L', '.', 'R', 'E', 'A', 'D'], some x => some (encode (.tblRead x))
  | ['T', 'B', 'L', '.', 'C', 'H', 'E', 'C', 'K'], none => some (encode .tblCheck)
  | ['E', 'N', 'C', 'O', 'D', 'E'], none => some (encode .encode)
  | ['D', 'E', 'C', 'O', 'D', 'E'], none => some (encode (.decode false))
  | ['D', 'E', 'C', 'O', 'D', 'E', '.', 'V'], none => some (encode (.decode true))
  | _, _ => none

/-- The word of a mnemonic in any mix of cases (30_encoding.md R99). -/
def assemble (mnemonic : List Char) (sym : Option Byte) : Option Word :=
  assembleUpper (mnemonic.map Char.toUpper) sym

/-- A line of a host script (30_encoding.md R99 to R101). -/
inductive Line where
  /-- `wr NAME, v`. -/
  | wr (r : Reg) (v : Word)
  /-- `rd NAME`. -/
  | rd (r : Reg)
  /-- `wrb a, bytes`. -/
  | wrb (a : Nat) (bytes : List Byte)
  /-- `rdb a, n`. -/
  | rdb (a n : Nat)
  /-- A mnemonic of R99: `wr CMD, word`. -/
  | command (i : Instr)
  /-- `.word w`. -/
  | word (w : Word)
  /-- `WAIT`. -/
  | wait
  /-- `TBL.LOAD sym, "c"`. -/
  | tblLoad (sym : Byte) (c : Codeword)
  /-- `JOB src, slen, dst, cap`. -/
  | job (src slen dst cap : Word)
  /-- `CLEARST`. -/
  | clearSt
  deriving DecidableEq, Repr

/-- A line means something when its codeword has 1 to 32 bits (30_encoding.md R101) and its DMEM
offsets lie in the window (20_memory.md R61). -/
def Line.wellFormed : Line → Bool
  | .tblLoad _ c => Codeword.wellFormed c
  | .wrb a bytes => decide (a + bytes.length ≤ Config.maxDmemSize)
  | .rdb a n => decide (a + n ≤ Config.maxDmemSize)
  | .wr _ _ => true
  | .rd _ => true
  | .command _ => true
  | .word _ => true
  | .wait => true
  | .job _ _ _ _ => true
  | .clearSt => true

/-- `wr NAME, v` on the bus. -/
def Stimulus.wr (r : Reg) (v : Word) : Stimulus := .txn (.writeReg r v)

/-- `rd NAME` on the bus. -/
def Stimulus.rd (r : Reg) : Stimulus := .txn (.readReg r)

/-- The host actions of a line (30_encoding.md R100, R101). -/
def Line.expand : Line → List Stimulus
  | .wr r v => [.wr r v]
  | .rd r => [.rd r]
  | .wrb a bytes => bytes.zipIdx.map fun p => .txn (.writeDmemByte (a + p.2) p.1)
  | .rdb a n => (List.range n).map fun j => .txn (.readDmemByte (a + j))
  | .command i => [.wr .cmd (encode i)]
  | .word w => [.wr .cmd w]
  | .wait => [.wait]
  | .tblLoad sym c =>
    [.wr .tblLen (BitVec.ofNat 32 c.length), .wr .tblBits (Codeword.bits c),
     .wr .cmd (encode (.tblWrite sym)), .wait]
  | .job src slen dst cap => [.wr .srcAddr src, .wr .srcLen slen, .wr .dstAddr dst, .wr .dstCap cap]
  | .clearSt => [.wr .status 0x302#32]

/-- The host actions of a script. -/
def expandScript (p : List Line) : List Stimulus := p.flatMap Line.expand

/-- The state in which the host is about to run a script (log 7). -/
def State.withScript (s : State) (p : List Line) : State :=
  { s with stimuli := s.stimuli ++ expandScript p }

/-- The script that reads the codebook back: TBL.READ of every symbol, each followed by WAIT (R101)
and reads of both result registers (41_codebook_table.md R146). DESIGN CHOICE (log 24): the symbols
are read in rising order 0 to 255, TBL_LEN before TBL_BITS, valid entries and invalid ones alike;
R146 gives no order, and the last symbol, 255, decides what TBL_LEN and TBL_BITS hold afterwards. -/
def readBackScript : List Line :=
  symbols.flatMap fun x => [.command (.tblRead x), .wait, .rd .tblLen, .rd .tblBits]

/-- The codebook the table holds (10_state.md R40): the pairs (s, cw(s)) of the valid entries, listed
in rising order of s (log 24: the spec's codebook is a mapping, which has no order). -/
def Table.codebook (T : Table) : List (Byte × Codeword) :=
  (symbols.filter fun x => (T.entry x).valid).map fun x => (x, (T.entry x).codeword)

end Sys2Proof.Machine
end

