-- ==== Sys2Proof/Machine/Codebook.lean ====
section
/-! DEFINITION. The host's codebook generation `Build` (44_host_codebook_generation.md R220 to R234):
host software, a reference; no command of the block runs it and no state holds the tree. -/

namespace Sys2Proof.Machine

/-- A node of the tree (44_host_codebook_generation.md R223): a leaf, an internal node with two
children, or the root of the single-symbol case, whose left child is absent (R226). -/
inductive Tree where
  | leaf (sym : Byte) (frequency : Nat)
  | internal (frequency : Nat) (left right : Tree)
  | single (frequency : Nat) (right : Tree)
  deriving DecidableEq, Repr

/-- The frequency a node carries. -/
def Tree.frequency : Tree → Nat
  | .leaf _ f => f
  | .internal f _ _ => f
  | .single f _ => f

/-- `freq(s)`: the positions of the sequence that hold `s` (44_host_codebook_generation.md R221). -/
def freqOf (S : List Byte) (x : Byte) : Nat := S.countP fun y => y == x

/-- The symbols of the frequency mapping, those with `freq(s) ≥ 1`, in rising order of byte value. -/
def usedSymbols (S : List Byte) : List Byte := symbols.filter fun x => decide (1 ≤ freqOf S x)

/-- An active node with its creation number; its key is `(frequency, seq)`
(44_host_codebook_generation.md R227). -/
structure ActiveNode where
  tree : Tree
  seq : Nat
  deriving DecidableEq, Repr

/-- The order of the keys: lexicographic (44_host_codebook_generation.md R227). -/
def ActiveNode.before (x y : ActiveNode) : Bool :=
  decide (x.tree.frequency < y.tree.frequency) ||
    (x.tree.frequency == y.tree.frequency && decide (x.seq < y.seq))

/-- Make a node active, keeping the smallest key first. -/
def insertActive (x : ActiveNode) : List ActiveNode → List ActiveNode
  | [] => [x]
  | y :: ys => if x.before y then x :: y :: ys else y :: insertActive x ys

/-- The leaves, one for each used symbol, numbered in rising order of byte value
(44_host_codebook_generation.md R223, R227). -/
def initialActive (S : List Byte) : List ActiveNode :=
  (usedSymbols S).zipIdx.foldl (fun A p => insertActive ⟨.leaf p.1 (freqOf S p.1), p.2⟩ A) []

/-- The merging of 44_host_codebook_generation.md R224 and R225: the first popped node becomes the
left child, the second the right, until one node remains. Each merge leaves one node fewer, so the
number of active nodes bounds the merges. -/
def mergeActive : (fuel seq : Nat) → List ActiveNode → Option Tree
  | _, _, [] => none
  | _, _, [x] => some x.tree
  | 0, _, _ :: _ :: _ => none
  | fuel + 1, seq, x :: y :: rest =>
    mergeActive fuel (seq + 1)
      (insertActive ⟨.internal (x.tree.frequency + y.tree.frequency) x.tree y.tree, seq⟩ rest)

/-- CodeAssigner (44_host_codebook_generation.md R228): left appends 1, right appends 0; the path of
a leaf is its codeword. -/
def Tree.assign : Tree → Codeword → List (Byte × Codeword)
  | .leaf x _, p => [(x, p)]
  | .internal _ l r, p => l.assign (p ++ [true]) ++ r.assign (p ++ [false])
  | .single _ r, p => r.assign (p ++ [false])

/-- Why `Build` fails (44_host_codebook_generation.md R222); the block never reports it. -/
inductive BuildError where
  | preconditionError
  deriving DecidableEq, Repr

/-- The root (44_host_codebook_generation.md R226, R229): the synthetic root of a single symbol, or
the merged tree; none for an empty sequence. -/
def buildTree (S : List Byte) : Option Tree :=
  match initialActive S with
  | [x] => some (.single x.tree.frequency x.tree)
  | A => mergeActive A.length A.length A

/-- `Build(S)` (44_host_codebook_generation.md R229): the tree and the codebook, or PreconditionError
for an empty sequence. -/
def build (S : List Byte) : Except BuildError (Tree × List (Byte × Codeword)) :=
  match buildTree S with
  | none => .error .preconditionError
  | some t => .ok (t, t.assign [])

/-- The weighted length of a codebook for a sequence (44_host_codebook_generation.md R231). -/
def weightedLength (S : List Byte) (cb : List (Byte × Codeword)) : Nat :=
  (cb.map fun p => freqOf S p.1 * p.2.length).sum

/-- The script that loads a codebook: TBL.CLEAR, then TBL.LOAD of every entry; none for a codebook
with a codeword the block cannot hold (44_host_codebook_generation.md R232). DESIGN CHOICE (log 23):
the entries are loaded in the order of the list, for Build the order of the tree walk; R232 gives
none, and the last entry loaded is what TBL_LEN and TBL_BITS hold afterwards. -/
def loadScript (cb : List (Byte × Codeword)) : Option (List Line) :=
  if cb.all fun p => Codeword.wellFormed p.2 then
    some (.command .tblClear :: .wait :: cb.map fun p => .tblLoad p.1 p.2)
  else none

end Sys2Proof.Machine
end

