-- ==== Sys2Proof/Safety.lean ====
section
/-! DEFINITION. What counts as a safe state, and the terms in which claims about commands are
written: the completion record, what a command keeps, and the codewords of a symbol sequence. -/

namespace Sys2Proof.Machine

/-- A table entry as 10_state.md R40 has it: a valid entry's length is 1 to 32, and its bits at and
above the length are 0. -/
def Entry.wf (e : Entry) : Bool :=
  !e.valid || (decide (1 ≤ e.length) && decide (e.length ≤ Config.lMax) && e.bits >>> e.length == 0#32)

/-- Every entry is as 10_state.md R40 has it. -/
def Table.wf (T : Table) : Prop := ∀ x : Byte, (T.entry x).wf = true

/-- The invariant of the block. -/
structure State.Inv (s : State) : Prop where
  /-- The memory keeps its canonical form. -/
  memory_wf : s.dmem.wf
  /-- Every written byte lies in DMEM (10_state.md R44). -/
  memory_inside : ∀ c ∈ s.dmem.cells, c.1 < s.dmemSize.val
  /-- Every table entry is as 10_state.md R40 has it. -/
  table_wf : s.table.wf
  /-- While BUSY, DONE, ERR_CODE and OUT_LEN are 0 (10_state.md R30, 40_command_lifecycle.md R121). -/
  busy_clear : s.busy = true → s.done = false ∧ s.errCode = .none ∧ s.outLen = 0
  /-- ERR_POS is 0 after a success (10_state.md R37). -/
  success_pos : s.errCode = .none → s.errPos = 0
  /-- OUT_LEN is 0 after an error (10_state.md R39). -/
  error_out : s.errCode ≠ .none → s.outLen = 0
  /-- An output fits in DMEM (42_encode.md R175, 43_decode.md R199). -/
  out_le : s.outLen.toNat ≤ s.dmemSize.val

/-- The completion record of 40_command_lifecycle.md R124: what completion leaves in ERR_CODE,
ERR_POS, OUT_LEN, DONE and BUSY. -/
structure State.Record (t : State) (code : ErrCode) (pos out : Nat) : Prop where
  errCode : t.errCode = code
  errPos : t.errPos.toNat = pos
  outLen : t.outLen.toNat = out
  done : t.done = true
  job : t.job = .idle

/-- What no command changes: CTRL, the sticky flags, the job parameter registers, the size of DMEM,
and what the world outside does. -/
structure State.KeepsControl (s t : State) : Prop where
  irqEn : t.irqEn = s.irqEn
  cmdRejected : t.cmdRejected = s.cmdRejected
  accessWhileBusy : t.accessWhileBusy = s.accessWhileBusy
  srcAddr : t.srcAddr = s.srcAddr
  srcLen : t.srcLen = s.srcLen
  dstAddr : t.dstAddr = s.dstAddr
  dstCap : t.dstCap = s.dstCap
  dmemSize : t.dmemSize = s.dmemSize
  stimuli : t.stimuli = s.stimuli
  schedule : t.schedule = s.schedule
  response : t.response = s.response

/-- TBL_LEN and TBL_BITS are unchanged. -/
def State.KeepsTblRegs (s t : State) : Prop := t.tblLen = s.tblLen ∧ t.tblBits = s.tblBits

/-- Every byte of DMEM reads as before. -/
def State.KeepsDmem (s t : State) : Prop := ∀ a, t.dmem.read a = s.dmem.read a

/-- Every byte of DMEM outside the `n` bytes from `a` on reads as before. -/
def State.KeepsDmemOutside (s t : State) (a n : Nat) : Prop :=
  ∀ b, b < a ∨ a + n ≤ b → t.dmem.read b = s.dmem.read b

/-- The regions of the job pass the checks of 20_memory.md R73: both inside DMEM, and no byte in
both. -/
structure State.RegionsOk (s : State) : Prop where
  src_inside : s.srcAddr.toNat + s.srcLen.toNat ≤ s.dmemSize.val
  dst_inside : s.dstAddr.toNat + s.dstCap.toNat ≤ s.dmemSize.val
  disjoint : ∀ a, ¬(s.srcAddr.toNat ≤ a ∧ a < s.srcAddr.toNat + s.srcLen.toNat ∧
    s.dstAddr.toNat ≤ a ∧ a < s.dstAddr.toNat + s.dstCap.toNat)

/-- The source bytes of a job, in order (00_scope.md R14). -/
def State.sourceBytes (s : State) : List Byte := s.dmem.readBytes s.srcAddr.toNat s.srcLen.toNat

/-- The codewords of a symbol sequence, concatenated (42_encode.md R172). -/
def Table.codeOf (T : Table) (xs : List Byte) : Codeword := xs.flatMap fun x => (T.entry x).codeword

/-- Every symbol of the sequence has an entry. -/
def Table.covers (T : Table) (xs : List Byte) : Prop := ∀ x ∈ xs, (T.entry x).valid = true

/-- The source begins with the bit characters of `c` (30_encoding.md R97). -/
def State.SourceStartsWith (s : State) (c : Codeword) : Prop :=
  c.length ≤ s.srcLen.toNat ∧ s.dmem.readBytes s.srcAddr.toNat c.length = c.map bitChar

/-- The `n` bytes of DMEM from the destination address on. -/
def State.destBytes (t : State) (n : Nat) : List Byte := t.dmem.readBytes t.dstAddr.toNat n

/-- Two tables hold the same codebook: entries agree, or are both invalid (41_codebook_table.md
R145: the rest of an invalid entry is not observable). -/
def Table.SameCodebook (T U : Table) : Prop :=
  ∀ x : Byte, T.entry x = U.entry x ∨ ((T.entry x).valid = false ∧ (U.entry x).valid = false)

/-- Two states differ at most in the `len` and `bits` of invalid entries. -/
def State.SameButInvalidEntries (s t : State) : Prop :=
  t = { s with table := t.table } ∧ s.table.SameCodebook t.table

/-- Two states have the same architectural state (10_state.md R20): they differ at most in what the
world outside does, who moves next and the last answer on the bus. -/
def State.SameBlock (s t : State) : Prop :=
  t = { s with stimuli := t.stimuli, schedule := t.schedule, response := t.response }

/-- Every register at its reset value (10_state.md R23). -/
def Reg.resetValue (size : Config.DmemSize) : Reg → Word
  | .id => 0x48554646#32
  | .param => 0x00002008#32
  | .dmemSize => BitVec.ofNat 32 size.val
  | .ctrl => 0
  | .status => 0
  | .cmd => 0
  | .errCode => 0
  | .errPos => 0
  | .srcAddr => 0
  | .srcLen => 0
  | .dstAddr => 0
  | .dstCap => 0
  | .outLen => 0
  | .tblLen => 0
  | .tblBits => 0

/-- The registers whose host writes BUSY blocks (10_state.md R38). -/
def Reg.isOperand : Reg → Bool
  | .srcAddr => true
  | .srcLen => true
  | .dstAddr => true
  | .dstCap => true
  | .tblLen => true
  | .tblBits => true
  | .id => false
  | .param => false
  | .dmemSize => false
  | .ctrl => false
  | .status => false
  | .cmd => false
  | .errCode => false
  | .errPos => false
  | .outLen => false

end Sys2Proof.Machine
end

