-- ==== Sys2Proof/Certificates/Slice0/Obligations.lean ====
section
/-! DEFINITION. The statements about the model, for the provers. Each docstring names the rules of
the spec it rests on. -/

open Sys2Proof Sys2Proof.Machine

/-! ### Reset -/

/-- 70_reset_and_hazards.md R280 to R283: every register of `State.reset` reads its reset value,
every table entry is invalid, no job is pending, irq is 0 and no byte of DMEM has been written. The
size of DMEM in it is the model's choice (log 1). -/
def Obligations.ResetStateHoldsTheSpecValues : Prop :=
  (∀ r : Reg, State.reset.readReg r = r.resetValue State.reset.dmemSize) ∧
  (∀ x : Byte, (State.reset.table.entry x).valid = false) ∧
  State.reset.job = .idle ∧ State.reset.irq = false ∧ State.reset.dmem.cells = []

/-- 70_reset_and_hazards.md R280: the reset input, whatever the state and also while a job is
pending, leaves every register at its reset value, the table empty, the job Idle and irq 0, and DMEM
at new draws that no write has touched (the draw index is the model's, logs 2 and 6). -/
def Obligations.ResetInputRestoresTheResetState : Prop :=
  ∀ (s : State) (rest : List Stimulus), s.mover = .host → s.stimuli = .reset :: rest →
    ∃ t, step s = .next t ∧ (∀ r : Reg, t.readReg r = r.resetValue s.dmemSize) ∧
      (∀ x : Byte, (t.table.entry x).valid = false) ∧ t.job = .idle ∧ t.irq = false ∧
      t.dmem.cells = [] ∧ t.dmem.epoch = s.draw + 1 ∧ t.stimuli = rest

/-- 70_reset_and_hazards.md R282: with every entry invalid, as after a reset, ENCODE of a non-empty
source fails with LOOKUP_ERROR at position 0 and DECODE with DECODE_ERROR at position 0. -/
def Obligations.EmptyTableFailsAtPositionZero : Prop :=
  ∀ s : State, (∀ x : Byte, (s.table.entry x).valid = false) → s.RegionsOk → s.srcLen ≠ 0 →
    (∃ t, exec .encode s = .next t ∧ t.Record .lookupError 0 0) ∧
    ∃ t, exec (.decode false) s = .next t ∧ t.Record .decodeError 0 0

/-! ### Registers and the bus -/

/-- 10_state.md R24, R25, R26: ID, PARAM and DMEM_SIZE read their constants in every state, and a
write of them is ignored. -/
def Obligations.IdentificationRegistersAreConstant : Prop :=
  ∀ (s : State) (v : Word),
    s.busAccess (.readReg .id) = (s, ⟨.ok, some 0x48554646#32⟩) ∧
    s.busAccess (.readReg .param) = (s, ⟨.ok, some 0x00002008#32⟩) ∧
    (0x00002008#32).extractLsb' 0 8 = 8#8 ∧ (0x00002008#32).extractLsb' 8 8 = 32#8 ∧
    (0x00002008#32).extractLsb' 16 16 = 0#16 ∧
    [24, 16, 8, 0].map (fun i => (0x48554646#32).extractLsb' i 8) =
      bytesOfText ['H', 'U', 'F', 'F'] ∧
    s.busAccess (.readReg .dmemSize) = (s, ⟨.ok, some (BitVec.ofNat 32 s.dmemSize.val)⟩) ∧
    (BitVec.ofNat 32 s.dmemSize.val).toNat = s.dmemSize.val ∧
    s.busAccess (.writeReg .id v) = (s, ⟨.ok, none⟩) ∧
    s.busAccess (.writeReg .param v) = (s, ⟨.ok, none⟩) ∧
    s.busAccess (.writeReg .dmemSize v) = (s, ⟨.ok, none⟩)

/-- 10_state.md R27: a write of CTRL, at any time, stores bit 0 in IRQ_EN and nothing else; CTRL
reads IRQ_EN in bit 0 and 0 elsewhere. -/
def Obligations.CtrlStoresOnlyIrqEnable : Prop :=
  ∀ (s : State) (v : Word),
    s.busAccess (.writeReg .ctrl v) = ({ s with irqEn := v.getLsbD 0 }, ⟨.ok, none⟩) ∧
    s.busAccess (.readReg .ctrl) = (s, ⟨.ok, some (if s.irqEn then 1#32 else 0#32)⟩) ∧
    State.reset.irqEn = false

/-- 10_state.md R28, R31, R32: every bit of a read of STATUS, and the write that clears the W1C
fields whose bit is 1 and changes nothing else, at any time. -/
def Obligations.StatusReadsItsFieldsAndClearsByOne : Prop :=
  (∀ s : State, ∃ v : Word, s.busAccess (.readReg .status) = (s, ⟨.ok, some v⟩) ∧
    (v.getLsbD 0 = true ↔ s.job ≠ .idle) ∧ v.getLsbD 1 = s.done ∧
    (v.getLsbD 2 = true ↔ s.errCode ≠ .none) ∧ v.getLsbD 3 = (s.irqEn && s.done) ∧
    v.getLsbD 8 = s.cmdRejected ∧ v.getLsbD 9 = s.accessWhileBusy ∧
    ∀ i, i ∉ [0, 1, 2, 3, 8, 9] → v.getLsbD i = false) ∧
  (∀ (s : State) (v : Word), ∃ t, s.busAccess (.writeReg .status v) = (t, ⟨.ok, none⟩) ∧
    t = { s with done := t.done, cmdRejected := t.cmdRejected,
                 accessWhileBusy := t.accessWhileBusy } ∧
    t.done = (s.done && !v.getLsbD 1) ∧ t.cmdRejected = (s.cmdRejected && !v.getLsbD 8) ∧
    t.accessWhileBusy = (s.accessWhileBusy && !v.getLsbD 9)) ∧
  State.reset.statusWord = 0

/-- 60_exceptions.md R250 with 10_state.md R36: ERR_CODE reads the number of the last command's
error code, and never 4 or 10 to 15. -/
def Obligations.ErrCodeReadsTheCodeTable : Prop :=
  (∀ s : State, ∃ v : Word, s.busAccess (.readReg .errCode) = (s, ⟨.ok, some v⟩) ∧
    (s.errCode, v.toNat) ∈ [(ErrCode.none, 0), (.lookupError, 1), (.decodeError, 2),
      (.validationError, 3), (.illegalCmd, 5), (.badEntry, 6), (.rangeError, 7),
      (.overlapError, 8), (.outputOverflow, 9)]) ∧
  ∀ (s : State) (v : Word), s.busAccess (.writeReg .errCode v) = (s, ⟨.ok, none⟩)

/-- 10_state.md R38 (with the widths of R41, R42): a host write of an operand register stores the
value while idle and changes no other register, table entry or byte; while BUSY it is ignored and
sets ACCESS_WHILE_BUSY; reads return the stored value at any time; the completion of no word, legal or
not, writes the four job parameter registers. -/
def Obligations.OperandRegistersStoreOnlyWhileIdle : Prop :=
  (∀ (s : State) (r : Reg) (v : Word), r.isOperand = true →
    (s.busy = false → ∃ t, s.busAccess (.writeReg r v) = (t, ⟨.ok, none⟩) ∧
      t.readReg r = (if r = .tblLen then v &&& 0x3F#32 else v) ∧
      (∀ q, q ≠ r → t.readReg q = s.readReg q) ∧
      t.table = s.table ∧ t.dmem = s.dmem ∧ t.job = s.job) ∧
    (s.busy = true →
      s.busAccess (.writeReg r v) = ({ s with accessWhileBusy := true }, ⟨.ok, none⟩)) ∧
    s.busAccess (.readReg r) = (s, ⟨.ok, some (s.readReg r)⟩) ∧
    State.reset.readReg r = 0) ∧
  ∀ (w : Word) (s : State), ∃ t, completeWord w s = .next t ∧ t.srcAddr = s.srcAddr ∧
    t.srcLen = s.srcLen ∧ t.dstAddr = s.dstAddr ∧ t.dstCap = s.dstCap

/-- 20_memory.md R65: a transaction that R61, R63 or R64 calls illegal is answered ERROR, reads 0
and changes no state. -/
def Obligations.IllegalTransactionsChangeNothing : Prop :=
  ∀ (s : State) (t : Txn),
    ((t.off.toNat < 0x1000 ∧ ¬(t.size = .four ∧ t.off.toNat % 4 = 0)) ∨
      (0x1000 ≤ t.off.toNat ∧ t.off.toNat < 0x80000) ∨
      (0x80000 ≤ t.off.toNat ∧ ¬((t.off.toNat - 0x80000) % t.size.bytes = 0 ∧
        t.off.toNat - 0x80000 + t.size.bytes ≤ s.dmemSize.val))) →
    (t.access = .read → s.busAccess t = (s, ⟨.error, some 0#32⟩)) ∧
    ∀ v, t.access = .write v → s.busAccess t = (s, ⟨.error, none⟩)

/-- 20_memory.md R63 with the offsets of 10_state.md R23: the register region. An access that is not
4 bytes at a multiple of 4 gets ERROR; a legal one gets OK, reaches the register of the map at its
offset or, at every other offset, reads 0 and writes nothing; CMD reads 0 (R35), ERR_POS, OUT_LEN and
the operand registers read their fields (R37 to R42); a write of a read-only register is ignored. -/
def Obligations.RegisterRegionAccesses : Prop :=
  (∀ (s : State) (t : Txn), t.off.toNat < 0x1000 → ¬(t.size = .four ∧ t.off.toNat % 4 = 0) →
    (s.busAccess t).2.status = .error) ∧
  (∀ p ∈ [(0x000, Reg.id), (0x004, .param), (0x008, .dmemSize), (0x00C, .ctrl), (0x010, .status),
      (0x014, .cmd), (0x018, .errCode), (0x01C, .errPos), (0x020, .srcAddr), (0x024, .srcLen),
      (0x028, .dstAddr), (0x02C, .dstCap), (0x030, .outLen), (0x034, .tblLen), (0x038, .tblBits)],
    p.2.offset = p.1 ∧
    ∀ (s : State) (off : BitVec 20) (v : Word), off.toNat = p.1 →
      s.busAccess ⟨.read, off, .four⟩ = (s, ⟨.ok, some (s.readReg p.2)⟩) ∧
      s.busAccess ⟨.write v, off, .four⟩ = (s.writeReg v p.2, ⟨.ok, none⟩)) ∧
  (∀ (s : State) (off : BitVec 20) (v : Word), off.toNat < 0x1000 → off.toNat % 4 = 0 →
    off.toNat ∉ [0x000, 0x004, 0x008, 0x00C, 0x010, 0x014, 0x018, 0x01C, 0x020, 0x024, 0x028,
      0x02C, 0x030, 0x034, 0x038] →
    s.busAccess ⟨.read, off, .four⟩ = (s, ⟨.ok, some 0#32⟩) ∧
    s.busAccess ⟨.write v, off, .four⟩ = (s, ⟨.ok, none⟩)) ∧
  (∀ s : State, s.busAccess (.readReg .cmd) = (s, ⟨.ok, some 0#32⟩) ∧
    s.busAccess (.readReg .errPos) = (s, ⟨.ok, some s.errPos⟩) ∧
    s.busAccess (.readReg .outLen) = (s, ⟨.ok, some s.outLen⟩) ∧
    s.busAccess (.readReg .srcAddr) = (s, ⟨.ok, some s.srcAddr⟩) ∧
    s.busAccess (.readReg .srcLen) = (s, ⟨.ok, some s.srcLen⟩) ∧
    s.busAccess (.readReg .dstAddr) = (s, ⟨.ok, some s.dstAddr⟩) ∧
    s.busAccess (.readReg .dstCap) = (s, ⟨.ok, some s.dstCap⟩) ∧
    s.busAccess (.readReg .tblLen) = (s, ⟨.ok, some (s.tblLen.setWidth 32)⟩) ∧
    s.busAccess (.readReg .tblBits) = (s, ⟨.ok, some s.tblBits⟩)) ∧
  ∀ (s : State) (v : Word) (r : Reg),
    r ∈ [Reg.id, .param, .dmemSize, .errCode, .errPos, .outLen] → s.writeReg v r = s

/-- 20_memory.md R64, R66: an access of the DMEM window at DMEM offset `a`. Illegal: ERROR. Legal
while BUSY: DMEM is not touched, a read returns 0, ACCESS_WHILE_BUSY is set, the answer is OK. Legal
while idle: a read returns the bytes little-endian and zero-extended and changes nothing; a write
stores the bytes little-endian and changes nothing else. -/
def Obligations.DmemWindowAccesses : Prop :=
  ∀ (s : State) (t : Txn) (a : Nat), t.off.toNat = 0x80000 + a →
    (¬(a % t.size.bytes = 0 ∧ a + t.size.bytes ≤ s.dmemSize.val) →
      (s.busAccess t).1 = s ∧ (s.busAccess t).2.status = .error) ∧
    (a % t.size.bytes = 0 → a + t.size.bytes ≤ s.dmemSize.val → s.busy = true →
      (s.busAccess t).1 = { s with accessWhileBusy := true } ∧
      (s.busAccess t).2.status = .ok ∧ (t.access = .read → (s.busAccess t).2.rdata = some 0#32)) ∧
    (a % t.size.bytes = 0 → a + t.size.bytes ≤ s.dmemSize.val → s.busy = false →
      (t.access = .read → ∃ v : Word, s.busAccess t = (s, ⟨.ok, some v⟩) ∧
        v.toNat < 2 ^ (8 * t.size.bytes) ∧
        ∀ i < t.size.bytes, v.extractLsb' (8 * i) 8 = s.dmem.read (a + i)) ∧
      ∀ w, t.access = .write w → ∃ m : Memory,
        s.busAccess t = ({ s with dmem := m }, ⟨.ok, none⟩) ∧
        (∀ i < t.size.bytes, m.read (a + i) = w.extractLsb' (8 * i) 8) ∧
        ∀ b, b < a ∨ a + t.size.bytes ≤ b → m.read b = s.dmem.read b)

/-- 20_memory.md R69: a read has no side effect, but for the flag of a DMEM read while BUSY (R66). -/
def Obligations.ReadsHaveNoSideEffect : Prop :=
  ∀ (s : State) (t : Txn), t.access = .read →
    (s.busAccess t).1 = s ∨ (s.busy = true ∧ 0x80000 ≤ t.off.toNat ∧
      (s.busAccess t).1 = { s with accessWhileBusy := true })

/-- 10_state.md R46: irq is IRQ_EN AND DONE; a completion raises it when IRQ_EN is 1; clearing DONE,
clearing IRQ_EN or accepting a command lowers it; after reset it is 0. -/
def Obligations.InterruptLineFollowsDone : Prop :=
  (∀ s : State, s.irq = (s.irqEn && s.done)) ∧
  (∀ (w : Word) (s : State), ∃ t, completeWord w s = .next t ∧ t.done = true ∧
    t.irq = s.irqEn) ∧
  (∀ (s : State) (v : Word), v.getLsbD 1 = true →
    (s.busAccess (.writeReg .status v)).1.irq = false) ∧
  (∀ (s : State) (v : Word), v.getLsbD 0 = false →
    (s.busAccess (.writeReg .ctrl v)).1.irq = false) ∧
  (∀ (s : State) (w : Word), s.busy = false →
    (s.busAccess (.writeReg .cmd w)).1.irq = false) ∧
  State.reset.irq = false

/-! ### Command words -/

/-- 30_encoding.md R93: for every well-formed command, with every operand value, decoding its word
gives the command back; and every word that decodes is the word of its command. -/
def Obligations.DecodeAndEncodeAgree : Prop :=
  (∀ i : Instr, i.wellFormed = true → decodeWord (encode i) = .ok i) ∧
  ∀ (w : Word) (i : Instr), decodeWord w = .ok i → encode i = w

/-- 30_encoding.md R92, R93: a word decodes exactly when a row of the opcode map matches it, to a
command of that row, and no word matches two rows. -/
def Obligations.OpcodeMapDecidesLegality : Prop :=
  (∀ (w : Word) (r : OpcodeRow), r ∈ opcodeMap → r.matchesWord w = true →
    ∃ i, decodeWord w = .ok i ∧ i.mnemonic = r.mnemonic) ∧
  (∀ w : Word, legalWord w = false → ∃ e, decodeWord w = .error e) ∧
  ∀ (w : Word) (r q : OpcodeRow), r ∈ opcodeMap → q ∈ opcodeMap → r.matchesWord w = true →
    q.matchesWord w = true → r = q

/-- 30_encoding.md R102: the encoding examples, from the assembler and back, and the illegal words,
each with the field that makes it illegal. -/
def Obligations.EncodingExamplesDecode : Prop :=
  assemble "TBL.WRITE".toList (some (byteOfChar 'a')) = some 0x02000061#32 ∧
  assemble "TBL.READ".toList (some (byteOfChar 'd')) = some 0x04000064#32 ∧
  assemble "TBL.INVAL".toList (some 255#8) = some 0x030000FF#32 ∧
  assemble "DECODE.V".toList none = some 0x11000100#32 ∧
  decodeWord 0x02000061#32 = .ok (.tblWrite (byteOfChar 'a')) ∧
  decodeWord 0x04000064#32 = .ok (.tblRead (byteOfChar 'd')) ∧
  decodeWord 0x030000FF#32 = .ok (.tblInval 255#8) ∧
  decodeWord 0x11000100#32 = .ok (.decode true) ∧
  decodeWord 0x06000000#32 = .error (.unassignedOpcode 0x06#8) ∧
  decodeWord 0x00000001#32 = .error (.unusedSymbol 0x01#8) ∧
  decodeWord 0x10010000#32 = .error (.reservedField 0x01#8) ∧
  decodeWord 0x11000200#32 = .error (.undefinedFlags 0x02#8) ∧
  decodeWord 0x01000061#32 = .error (.unusedSymbol 0x61#8)

/-- 30_encoding.md R99: every mnemonic gives its word, in any mix of cases, and `.word` submits the
raw word. -/
def Obligations.AssemblerMnemonicsGiveTheirWords : Prop :=
  assemble "NOP".toList none = some 0x00000000#32 ∧
  assemble "TBL.CLEAR".toList none = some 0x01000000#32 ∧
  (∀ x : Byte, assemble "TBL.WRITE".toList (some x) = some (0x02000000#32 ||| x.setWidth 32)) ∧
  (∀ x : Byte, assemble "TBL.INVAL".toList (some x) = some (0x03000000#32 ||| x.setWidth 32)) ∧
  (∀ x : Byte, assemble "TBL.READ".toList (some x) = some (0x04000000#32 ||| x.setWidth 32)) ∧
  assemble "TBL.CHECK".toList none = some 0x05000000#32 ∧
  assemble "ENCODE".toList none = some 0x10000000#32 ∧
  assemble "DECODE".toList none = some 0x11000000#32 ∧
  assemble "DECODE.V".toList none = some 0x11000100#32 ∧
  (∀ (cs : List Char) (x : Option Byte), assemble (cs.map Char.toLower) x = assemble cs x) ∧
  ∀ w : Word, (Line.word w).expand = [.txn (.writeReg .cmd w)]

/-- 30_encoding.md R96: the layout of a codeword of 1 to 32 bits as length and bits: bit
`n - 1 - j` is c_j, the bits above are 0, the value is the sum of c_j 2^(n-1-j), and TBL.WRITE of
those operands stores an entry that holds the codeword. -/
def Obligations.CodewordLayoutIsMostSignificantFirst : Prop :=
  ∀ cw : Codeword, Codeword.wellFormed cw = true →
    (∀ j (h : j < cw.length), (Codeword.bits cw).getLsbD (cw.length - 1 - j) = cw[j]'h) ∧
    (∀ j, cw.length ≤ j → (Codeword.bits cw).getLsbD j = false) ∧
    (Codeword.bits cw).toNat =
      ((List.range cw.length).map fun j =>
        (cw.getD j false).toNat * 2 ^ (cw.length - 1 - j)).sum ∧
    (Entry.ofOperands (BitVec.ofNat 6 cw.length) (Codeword.bits cw)).codeword = cw

/-! ### The life of a command -/

/-- 40_command_lifecycle.md R121: a word written to CMD while idle is accepted, whatever it is: it is
pending, DONE, ERR_CODE, ERR_POS and OUT_LEN are 0, and nothing else changes. -/
def Obligations.CmdWriteWhileIdleIsAccepted : Prop :=
  ∀ (s : State) (w : Word), s.busy = false →
    s.busAccess (.writeReg .cmd w) =
      ({ s with job := .pending w, done := false, errCode := .none, errPos := 0, outLen := 0 },
       ⟨.ok, none⟩)

/-- 40_command_lifecycle.md R122: a word written to CMD while BUSY is lost: CMD_REJECTED is set,
nothing else changes, the answer is OK. -/
def Obligations.CmdWriteWhileBusyIsRejected : Prop :=
  ∀ (s : State) (w : Word), s.busy = true →
    s.busAccess (.writeReg .cmd w) = ({ s with cmdRejected := true }, ⟨.ok, none⟩)

/-- 40_command_lifecycle.md R123: when the pending word decodes to a command and the engine moves,
the step is that command's completion, in the state whose schedule (the model's field, log 8) has
advanced. -/
def Obligations.StepRunsTheDecodedCommand : Prop :=
  ∀ (s : State) (w : Word) (i : Instr), s.mover = .engine → s.job = .pending w →
    decodeWord w = .ok i → step s = exec i { s with schedule := s.schedule.tail }

/-- 40_command_lifecycle.md R126: a pending word that no row of the opcode map matches completes
with ILLEGAL_CMD at position 0 and changes nothing else. -/
def Obligations.IllegalWordsCompleteWithIllegalCmd : Prop :=
  ∀ (s : State) (w : Word), legalWord w = false → s.mover = .engine → s.job = .pending w →
    ∃ t, step s = .next t ∧ t.Record .illegalCmd 0 0 ∧
      State.KeepsControl { s with schedule := s.schedule.tail } t ∧ s.KeepsTblRegs t ∧
      t.table = s.table ∧ t.dmem = s.dmem

/-- 40_command_lifecycle.md R124, 10_state.md R39, R43: every command completes, from every state:
DONE, Idle, ERR_POS 0 after success, OUT_LEN 0 after an error and after any command but ENCODE and
DECODE and never more than DST_CAP; and what each command leaves alone. -/
def Obligations.EveryCommandCompletes : Prop :=
  ∀ (i : Instr) (s : State), ∃ t, exec i s = .next t ∧ t.done = true ∧ t.job = .idle ∧
    (t.errCode = .none → t.errPos = 0) ∧ (t.errCode ≠ .none → t.outLen = 0) ∧
    t.outLen.toNat ≤ s.dstCap.toNat ∧ s.KeepsControl t ∧
    ((∀ x, i ≠ .tblRead x) → s.KeepsTblRegs t) ∧
    (i ≠ .tblClear → (∀ x, i ≠ .tblWrite x) → (∀ x, i ≠ .tblInval x) → t.table = s.table) ∧
    (i ≠ .encode → (∀ v, i ≠ .decode v) → t.outLen = 0 ∧ s.KeepsDmem t)

/-- 93_implementation_defined.md ("No behaviour of the block is `stuck`") with 60_exceptions.md R254:
every step answers a next state. -/
def Obligations.EveryStepAnswersANextState : Prop := ∀ s : State, ∃ t, step s = .next t

/-- 40_command_lifecycle.md R120: a pending job ends, whatever the host does and however the agents
interleave, at most one step after the schedule (the model's field, log 8) is used up. -/
def Obligations.PendingJobsEndUnderEverySchedule : Prop :=
  ∀ (s : State) (w : Word), s.job = .pending w →
    ∃ k t, k ≤ s.schedule.length + 1 ∧ Sys2Proof.core.run k s = .next t ∧ t.job = .idle

/-- 60_exceptions.md R256 with 10_state.md R38, R43, R45 and 20_memory.md R66: while a job is
pending, a step of the host other than a reset does not end it and changes neither its operands, the
table, DMEM nor the completion record. -/
def Obligations.HostCannotDisturbAPendingJob : Prop :=
  ∀ (s : State) (w : Word), s.job = .pending w → s.mover = .host →
    (∀ rest, s.stimuli ≠ .reset :: rest) →
    ∃ t, step s = .next t ∧ t.job = .pending w ∧ t.srcAddr = s.srcAddr ∧ t.srcLen = s.srcLen ∧
      t.dstAddr = s.dstAddr ∧ t.dstCap = s.dstCap ∧ t.tblLen = s.tblLen ∧
      t.tblBits = s.tblBits ∧ t.table = s.table ∧ t.dmem = s.dmem ∧ t.dmemSize = s.dmemSize ∧
      t.errCode = s.errCode ∧ t.errPos = s.errPos ∧ t.outLen = s.outLen ∧
      (s.done = false → t.done = false)

/-- 10_state.md R43: a step changes the table only as the completion of TBL.CLEAR, TBL.WRITE or
TBL.INVAL, or as the reset. -/
def Obligations.TableChangesOnlyByItsCommandsAndReset : Prop :=
  ∀ s t : State, step s = .next t → t.table = s.table ∨
    (s.mover = .engine ∧ ∃ w i, s.job = .pending w ∧ decodeWord w = .ok i ∧
      (i = .tblClear ∨ (∃ x, i = .tblWrite x) ∨ ∃ x, i = .tblInval x)) ∨
    (s.mover = .host ∧ ∃ rest, s.stimuli = .reset :: rest)

/-- 20_memory.md R80, R81 and 70_reset_and_hazards.md R284: a command, legal or not (00_scope.md R14:
any word written to CMD), written while idle and followed by WAIT has the same effect under every
schedule (logs 7 to 9): when the WAIT is over, the block is as the word's completion right after its
acceptance leaves it. -/
def Obligations.CommandThenWaitIsScheduleIndependent : Prop :=
  ∀ (s : State) (w : Word) (rest : List Stimulus), s.job = .idle →
    s.stimuli = .txn (.writeReg .cmd w) :: .wait :: rest →
    ∃ k t u, Sys2Proof.core.run k s = .next t ∧ t.stimuli = rest ∧
      completeWord w { s with job := .pending w, done := false, errCode := .none, errPos := 0,
                              outLen := 0 } = .next u ∧ u.SameBlock t

/-! ### NOP and the table commands -/

/-- 40_command_lifecycle.md R125: the word of NOP is 0; NOP completes with success and changes nothing else. -/
def Obligations.NopOnlyCompletes : Prop :=
  decodeWord 0x00000000#32 = .ok .nop ∧
  ∀ s : State, ∃ t, exec .nop s = .next t ∧ t.Record .none 0 0 ∧ s.KeepsControl t ∧
    s.KeepsTblRegs t ∧ t.table = s.table ∧ s.KeepsDmem t

/-- 41_codebook_table.md R141: the word of TBL.CLEAR; TBL.CLEAR invalidates every entry, succeeds and changes nothing else;
after it ENCODE and DECODE of a non-empty source fail at position 0. -/
def Obligations.TblClearEmptiesTheTable : Prop :=
  decodeWord 0x01000000#32 = .ok .tblClear ∧
  ∀ s : State, ∃ t, exec .tblClear s = .next t ∧ t.Record .none 0 0 ∧
    (∀ x : Byte, (t.table.entry x).valid = false) ∧ s.KeepsControl t ∧ s.KeepsTblRegs t ∧
    s.KeepsDmem t ∧
    (t.RegionsOk → t.srcLen ≠ 0 →
      (∃ u, exec .encode t = .next u ∧ u.Record .lookupError 0 0) ∧
      ∃ u, exec (.decode false) t = .next u ∧ u.Record .decodeError 0 0)

/-- 41_codebook_table.md R142: the words of TBL.WRITE; TBL.WRITE with a length of 1 to 32 stores the length and the bits
below it in the symbol's entry and succeeds; with any other length it fails with BAD_ENTRY at the
symbol and stores nothing. No other entry and nothing else changes. -/
def Obligations.TblWriteStoresOrRefuses : Prop :=
  ∀ (s : State) (x : Byte),
    decodeWord (0x02000000#32 ||| x.setWidth 32) = .ok (.tblWrite x) ∧
    (1 ≤ s.tblLen.toNat ∧ s.tblLen.toNat ≤ 32 →
      ∃ t, exec (.tblWrite x) s = .next t ∧ t.Record .none 0 0 ∧
        (t.table.entry x).valid = true ∧ (t.table.entry x).len = s.tblLen ∧
        (∀ j, (t.table.entry x).bits.getLsbD j =
          (decide (j < s.tblLen.toNat) && s.tblBits.getLsbD j)) ∧
        (∀ y, y ≠ x → t.table.entry y = s.table.entry y) ∧ s.KeepsControl t ∧
        s.KeepsTblRegs t ∧ s.KeepsDmem t) ∧
    (s.tblLen.toNat = 0 ∨ 32 < s.tblLen.toNat →
      ∃ t, exec (.tblWrite x) s = .next t ∧ t.Record .badEntry x.toNat 0 ∧
        t.table = s.table ∧ s.KeepsControl t ∧ s.KeepsTblRegs t ∧ s.KeepsDmem t)

/-- 41_codebook_table.md R144: the words of TBL.INVAL; TBL.INVAL invalidates the symbol's entry, succeeds and changes nothing
else. -/
def Obligations.TblInvalRemovesOneEntry : Prop :=
  ∀ (s : State) (x : Byte), decodeWord (0x03000000#32 ||| x.setWidth 32) = .ok (.tblInval x) ∧
    ∃ t, exec (.tblInval x) s = .next t ∧ t.Record .none 0 0 ∧
    (t.table.entry x).valid = false ∧ (∀ y, y ≠ x → t.table.entry y = s.table.entry y) ∧
    s.KeepsControl t ∧ s.KeepsTblRegs t ∧ s.KeepsDmem t

/-- 41_codebook_table.md R145: the words of TBL.READ; TBL.READ gives the entry's length and bits, or 0 and 0 if it is
invalid, succeeds and changes nothing else. In a table of the form of 10_state.md R40, TBL_LEN = 0
afterwards means that the entry is invalid. -/
def Obligations.TblReadReturnsTheEntry : Prop :=
  ∀ (s : State) (x : Byte), decodeWord (0x04000000#32 ||| x.setWidth 32) = .ok (.tblRead x) ∧
    ∃ t, exec (.tblRead x) s = .next t ∧ t.Record .none 0 0 ∧
    ((s.table.entry x).valid = true →
      t.tblLen = (s.table.entry x).len ∧ t.tblBits = (s.table.entry x).bits) ∧
    ((s.table.entry x).valid = false → t.tblLen = 0 ∧ t.tblBits = 0) ∧
    (s.table.wf → (t.tblLen = 0 ↔ (s.table.entry x).valid = false)) ∧
    t.table = s.table ∧ s.KeepsControl t ∧ s.KeepsDmem t

/-- 41_codebook_table.md R147: the word of TBL.CHECK; TBL.CHECK succeeds on a prefix-free table, fails with
VALIDATION_ERROR and the pair of FindConflict on any other, and changes nothing else. -/
def Obligations.TblCheckReportsTheConflict : Prop :=
  decodeWord 0x05000000#32 = .ok .tblCheck ∧
  ∀ s : State, ∃ t, exec .tblCheck s = .next t ∧
    (s.table.prefixFree → t.Record .none 0 0) ∧
    (∀ a b : Byte, s.table.findConflict = some (a, b) →
      t.Record .validationError (a.toNat + 256 * b.toNat) 0) ∧
    (¬s.table.prefixFree → ∃ a b : Byte, s.table.findConflict = some (a, b)) ∧
    t.table = s.table ∧ s.KeepsControl t ∧ s.KeepsTblRegs t ∧ s.KeepsDmem t

/-- 41_codebook_table.md R148: FindConflict returns the conflicting pair with the smallest a and for
it the smallest b, and none exactly when the table is prefix-free. -/
def Obligations.FindConflictReturnsTheFirstPair : Prop :=
  ∀ T : Table, (T.findConflict = none ↔ T.prefixFree) ∧
    ∀ a b : Byte, T.findConflict = some (a, b) ↔
      (a ≠ b ∧ (T.entry a).valid = true ∧ (T.entry b).valid = true ∧
        (T.entry a).prefixOf (T.entry b) = true) ∧
      ∀ a' b' : Byte, a' ≠ b' → (T.entry a').valid = true → (T.entry b').valid = true →
        (T.entry a').prefixOf (T.entry b') = true →
        a.toNat < a'.toNat ∨ (a = a' ∧ b.toNat ≤ b'.toNat)

/-- 41_codebook_table.md R140: for valid entries of the form of 10_state.md R40, the relation ⊑ in
the bit layout is the prefix relation of their codewords; and the table is prefix-free exactly when
no two distinct valid symbols have the codeword of one a prefix of the other's. -/
def Obligations.PrefixInTheBitLayoutIsPrefixOfCodewords : Prop :=
  (∀ a b : Entry, a.wf = true → b.wf = true → a.valid = true → b.valid = true →
    (a.prefixOf b = true ↔ a.codeword <+: b.codeword)) ∧
  ∀ T : Table, T.wf → (T.prefixFree ↔ ∀ x y : Byte, x ≠ y → (T.entry x).valid = true →
    (T.entry y).valid = true → ¬(T.entry x).codeword <+: (T.entry y).codeword)

/-- 41_codebook_table.md R145, 93_implementation_defined.md row 4: the len and bits of invalid
entries are not observable. Two states that differ only in them step alike, the answers on the bus
included, to states that differ only in them. -/
def Obligations.InvalidEntriesAreUnobservable : Prop :=
  ∀ s u : State, s.SameButInvalidEntries u →
    ∃ t v, step s = .next t ∧ step u = .next v ∧ t.SameButInvalidEntries v

/-! ### ENCODE and DECODE -/

/-- 20_memory.md R73, 60_exceptions.md R252 (items 3 and 4), R253: ENCODE and both forms of DECODE
check the source region, then the destination region, then their overlap, before all else; a failing
check gives RANGE_ERROR at 0 or 1 or OVERLAP_ERROR at 0 and writes nothing. -/
def Obligations.RegionErrorsComeFirst : Prop :=
  ∀ (s : State) (i : Instr), i ∈ [Instr.encode, .decode false, .decode true] →
    (s.dmemSize.val < s.srcAddr.toNat + s.srcLen.toNat →
      ∃ t, exec i s = .next t ∧ t.Record .rangeError 0 0 ∧ s.KeepsControl t ∧
        s.KeepsTblRegs t ∧ t.table = s.table ∧ s.KeepsDmem t) ∧
    (s.srcAddr.toNat + s.srcLen.toNat ≤ s.dmemSize.val →
      s.dmemSize.val < s.dstAddr.toNat + s.dstCap.toNat →
      ∃ t, exec i s = .next t ∧ t.Record .rangeError 1 0 ∧ s.KeepsControl t ∧
        s.KeepsTblRegs t ∧ t.table = s.table ∧ s.KeepsDmem t) ∧
    (s.srcAddr.toNat + s.srcLen.toNat ≤ s.dmemSize.val →
      s.dstAddr.toNat + s.dstCap.toNat ≤ s.dmemSize.val →
      (∃ a, s.srcAddr.toNat ≤ a ∧ a < s.srcAddr.toNat + s.srcLen.toNat ∧
        s.dstAddr.toNat ≤ a ∧ a < s.dstAddr.toNat + s.dstCap.toNat) →
      ∃ t, exec i s = .next t ∧ t.Record .overlapError 0 0 ∧ s.KeepsControl t ∧
        s.KeepsTblRegs t ∧ t.table = s.table ∧ s.KeepsDmem t)

/-- 20_memory.md R74, 60_exceptions.md R253: ENCODE and DECODE write DMEM only inside
`[DST_ADDR, DST_ADDR + DST_CAP)`, and errors found before the data pass write nothing; after a
success they write only inside `[DST_ADDR, DST_ADDR + OUT_LEN)` (42_encode.md R170, R172 and
43_decode.md R191, R193). -/
def Obligations.JobsWriteOnlyTheDestination : Prop :=
  ∀ (s : State) (i : Instr), i ∈ [Instr.encode, .decode false, .decode true] →
    ∃ t, exec i s = .next t ∧ s.KeepsDmemOutside t s.dstAddr.toNat s.dstCap.toNat ∧
      (t.errCode = .none → s.KeepsDmemOutside t s.dstAddr.toNat t.outLen.toNat) ∧
      (t.errCode ∈ [ErrCode.rangeError, .overlapError, .validationError] → s.KeepsDmem t)

/-- 42_encode.md R172: when the regions pass their checks, every source symbol has an entry and the
codewords fit, ENCODE succeeds; OUT_LEN is the sum of the codeword lengths, the destination holds the
bit characters of the concatenated codewords, and every other byte is unchanged. Whenever ENCODE
succeeds, those conditions hold. -/
def Obligations.EncodeWritesTheConcatenation : Prop :=
  (∀ s : State, s.RegionsOk → s.table.covers s.sourceBytes →
    (s.sourceBytes.map fun x => (s.table.entry x).len.toNat).sum ≤ s.dstCap.toNat →
    ∃ t, exec .encode s = .next t ∧
      t.Record .none 0 (s.sourceBytes.map fun x => (s.table.entry x).len.toNat).sum ∧
      t.destBytes t.outLen.toNat = (s.table.codeOf s.sourceBytes).map bitChar ∧
      s.KeepsDmemOutside t s.dstAddr.toNat t.outLen.toNat ∧ s.KeepsControl t ∧
      s.KeepsTblRegs t ∧ t.table = s.table) ∧
  ∀ s t : State, exec .encode s = .next t → t.errCode = .none →
    s.RegionsOk ∧ s.table.covers s.sourceBytes ∧
      (s.sourceBytes.map fun x => (s.table.entry x).len.toNat).sum ≤ s.dstCap.toNat

/-- 42_encode.md R171, R174, 60_exceptions.md R252 (item 6): ENCODE fails at the first source symbol
that has no entry (LOOKUP_ERROR, checked first) or whose codeword does not fit behind those before it
(OUTPUT_OVERFLOW), with its index; OUT_LEN is 0 and no byte outside the destination region changes. -/
def Obligations.EncodeFailsAtTheFirstFailingSymbol : Prop :=
  ∀ (s : State) (before after : List Byte) (x : Byte), s.RegionsOk →
    s.sourceBytes = before ++ x :: after → s.table.covers before →
    (s.table.codeOf before).length ≤ s.dstCap.toNat →
    ((s.table.entry x).valid = false →
      ∃ t, exec .encode s = .next t ∧ t.Record .lookupError before.length 0 ∧
        s.KeepsDmemOutside t s.dstAddr.toNat s.dstCap.toNat ∧ s.KeepsControl t ∧
        s.KeepsTblRegs t ∧ t.table = s.table) ∧
    ((s.table.entry x).valid = true →
      s.dstCap.toNat < (s.table.codeOf before).length + (s.table.entry x).len.toNat →
      ∃ t, exec .encode s = .next t ∧ t.Record .outputOverflow before.length 0 ∧
        s.KeepsDmemOutside t s.dstAddr.toNat s.dstCap.toNat ∧ s.KeepsControl t ∧
        s.KeepsTblRegs t ∧ t.table = s.table)

/-- 42_encode.md R176: with room for the codewords of the valid source symbols, ENCODE never
overflows: it succeeds when every symbol has an entry and otherwise fails with LOOKUP_ERROR at the
first that has none; 32 · SRC_LEN bytes are always enough. -/
def Obligations.EncodeWithEnoughRoomNeverOverflows : Prop :=
  ∀ s : State, s.RegionsOk → s.table.wf →
    ((s.sourceBytes.map fun x =>
        if (s.table.entry x).valid then (s.table.entry x).len.toNat else 0).sum ≤ s.dstCap.toNat ∨
      32 * s.srcLen.toNat ≤ s.dstCap.toNat) →
    (s.table.covers s.sourceBytes → ∃ t, exec .encode s = .next t ∧ t.errCode = .none) ∧
    (∀ (before after : List Byte) (x : Byte), s.sourceBytes = before ++ x :: after →
      s.table.covers before → (s.table.entry x).valid = false →
      ∃ t, exec .encode s = .next t ∧ t.Record .lookupError before.length 0) ∧
    ∃ t, exec .encode s = .next t ∧ t.errCode ≠ .outputOverflow

/-- 42_encode.md R173: the result of ENCODE is a function of the table, the source bytes and the four
job parameter registers (on one size of DMEM). -/
def Obligations.EncodeDependsOnlyOnItsInputs : Prop :=
  ∀ s u : State, u.table = s.table → u.srcAddr = s.srcAddr → u.srcLen = s.srcLen →
    u.dstAddr = s.dstAddr → u.dstCap = s.dstCap → u.dmemSize = s.dmemSize →
    u.sourceBytes = s.sourceBytes →
    ∃ t v, exec .encode s = .next t ∧ exec .encode u = .next v ∧ v.errCode = t.errCode ∧
      v.errPos = t.errPos ∧ v.outLen = t.outLen ∧
      (t.errCode = .none → v.destBytes v.outLen.toNat = t.destBytes t.outLen.toNat)

/-- 42_encode.md R178, 43_decode.md R201: with SRC_LEN = 0 and regions that pass their checks, ENCODE
and DECODE succeed with OUT_LEN 0 and write nothing, whatever the table holds; DECODE.V does so when
the table is prefix-free. -/
def Obligations.EmptySourceSucceeds : Prop :=
  ∀ (s : State) (i : Instr), s.RegionsOk → s.srcLen = 0 →
    (i = .encode ∨ i = .decode false ∨ (i = .decode true ∧ s.table.prefixFree)) →
    ∃ t, exec i s = .next t ∧ t.Record .none 0 0 ∧ s.KeepsDmem t ∧ s.KeepsControl t ∧
      s.KeepsTblRegs t ∧ t.table = s.table

/-- 43_decode.md R191, R193: DECODE and DECODE.V, with a prefix-free table, of a source that is the
codewords of `ys` succeed with the symbols `ys`, if they fit. -/
def Obligations.DecodeReturnsTheSymbols : Prop :=
  ∀ (s : State) (v : Bool) (ys : List Byte), s.RegionsOk → s.table.wf → s.table.prefixFree →
    s.table.covers ys → s.sourceBytes = (s.table.codeOf ys).map bitChar →
    ys.length ≤ s.dstCap.toNat →
    ∃ t, exec (.decode v) s = .next t ∧ t.Record .none 0 ys.length ∧
      t.destBytes ys.length = ys ∧ s.KeepsDmemOutside t s.dstAddr.toNat ys.length ∧
      s.KeepsControl t ∧ s.KeepsTblRegs t ∧ t.table = s.table

/-- 43_decode.md R193: whatever the table, DECODE completes, and when it succeeds OUT_LEN is the number
of symbols of its output, each has an entry, their codewords, concatenated, are the source (and none
is empty, in a table of the form of 10_state.md R40), and every other byte is unchanged. -/
def Obligations.DecodeOutputParsesTheSource : Prop :=
  ∀ (s : State) (v : Bool), ∃ t, exec (.decode v) s = .next t ∧
    (t.errCode = .none → ∃ ys : List Byte, s.table.covers ys ∧ t.outLen.toNat = ys.length ∧
      t.destBytes ys.length = ys ∧ s.sourceBytes = (s.table.codeOf ys).map bitChar ∧
      (s.table.wf → ∀ y ∈ ys, (s.table.entry y).codeword ≠ []) ∧
      s.KeepsDmemOutside t s.dstAddr.toNat t.outLen.toNat)

/-- 43_decode.md R194, 60_exceptions.md R252 (item 6): with a prefix-free table, when the source
begins with the codewords of `ys` and goes on at cursor k, DECODE fails with DECODE_ERROR at k if
nothing matches there, and else with OUTPUT_OVERFLOW at k if `ys` fill the destination; OUT_LEN is 0
and no byte outside the destination region changes. -/
def Obligations.DecodeFailsAtTheFirstFailingCursor : Prop :=
  ∀ (s : State) (v : Bool) (ys : List Byte), s.RegionsOk → s.table.wf → s.table.prefixFree →
    s.table.covers ys → s.SourceStartsWith (s.table.codeOf ys) →
    (s.table.codeOf ys).length < s.srcLen.toNat → ys.length ≤ s.dstCap.toNat →
    ((∀ x, s.matchesAt s.dmem (s.table.codeOf ys).length x = false) →
      ∃ t, exec (.decode v) s = .next t ∧
        t.Record .decodeError (s.table.codeOf ys).length 0 ∧
        s.KeepsDmemOutside t s.dstAddr.toNat s.dstCap.toNat ∧ s.KeepsControl t ∧
        s.KeepsTblRegs t ∧ t.table = s.table) ∧
    ((∃ x, s.matchesAt s.dmem (s.table.codeOf ys).length x = true) →
      ys.length = s.dstCap.toNat →
      ∃ t, exec (.decode v) s = .next t ∧
        t.Record .outputOverflow (s.table.codeOf ys).length 0 ∧
        s.KeepsDmemOutside t s.dstAddr.toNat s.dstCap.toNat ∧ s.KeepsControl t ∧
        s.KeepsTblRegs t ∧ t.table = s.table)

/-- 43_decode.md R198: with a prefix-free table, an input that ends in the middle of a codeword fails
with DECODE_ERROR at the cursor where the unfinished codeword starts, and reports no symbol. -/
def Obligations.TruncatedInputFailsWhereTheCodewordStarts : Prop :=
  ∀ (s : State) (v : Bool) (ys : List Byte) (x : Byte) (tail : Codeword), s.RegionsOk →
    s.table.wf → s.table.prefixFree → s.table.covers ys → ys.length ≤ s.dstCap.toNat →
    (s.table.entry x).valid = true → tail ≠ [] → tail <+: (s.table.entry x).codeword →
    tail ≠ (s.table.entry x).codeword →
    s.sourceBytes = (s.table.codeOf ys ++ tail).map bitChar →
    ∃ t, exec (.decode v) s = .next t ∧ t.Record .decodeError (s.table.codeOf ys).length 0

/-- 43_decode.md R196: with a prefix-free table at most one entry matches at any cursor, so DECODE is
deterministic: its result does not depend on the draws (the model's index of them, log 6). -/
def Obligations.PrefixFreeDecodeIsDeterministic : Prop :=
  ∀ s : State, s.table.wf → s.table.prefixFree →
    (∀ (k : Nat) (x y : Byte), s.matchesAt s.dmem k x = true → s.matchesAt s.dmem k y = true →
      x = y) ∧
    ∀ (v : Bool) (d : Nat), ∃ t u, exec (.decode v) s = .next t ∧
      exec (.decode v) { s with draw := d } = .next u ∧ u.errCode = t.errCode ∧
      u.errPos = t.errPos ∧ u.outLen = t.outLen ∧
      (t.errCode = .none → ∀ a, u.dmem.read a = t.dmem.read a)

/-- 43_decode.md R202: the result of DECODE is a function of the table, the source bytes, the job
parameter registers, V and the choices (here: the model's draw index they are drawn with, logs 4 and
6), on one size of DMEM. -/
def Obligations.DecodeDependsOnlyOnItsInputs : Prop :=
  ∀ (s u : State) (v : Bool), u.table = s.table → u.srcAddr = s.srcAddr → u.srcLen = s.srcLen →
    u.dstAddr = s.dstAddr → u.dstCap = s.dstCap → u.dmemSize = s.dmemSize →
    u.draw = s.draw → u.sourceBytes = s.sourceBytes →
    ∃ t w, exec (.decode v) s = .next t ∧ exec (.decode v) u = .next w ∧
      w.errCode = t.errCode ∧ w.errPos = t.errPos ∧ w.outLen = t.outLen ∧
      (t.errCode = .none → w.destBytes w.outLen.toNat = t.destBytes t.outLen.toNat)

/-- 43_decode.md R191: DECODE.V, once the regions pass, fails with VALIDATION_ERROR and the pair of
FindConflict on a table that is not prefix-free, also on an empty source, and writes nothing; on a
prefix-free table it does what DECODE does. -/
def Obligations.DecodeVValidatesFirst : Prop :=
  ∀ s : State, s.RegionsOk →
    (∀ a b : Byte, s.table.findConflict = some (a, b) →
      ∃ t, exec (.decode true) s = .next t ∧
        t.Record .validationError (a.toNat + 256 * b.toNat) 0 ∧ s.KeepsDmem t ∧
        s.KeepsControl t ∧ s.KeepsTblRegs t ∧ t.table = s.table) ∧
    (s.table.prefixFree → exec (.decode true) s = exec (.decode false) s)

/-- 43_decode.md R190: the decoder's state machine, started in CHECK, reaches ERROR or DONE, and the
completion there is the completion of the pseudocode of R191. -/
def Obligations.DecoderStateMachineRefinesThePseudocode : Prop :=
  ∀ (s : State) (v : Bool), ∃ j t, (Phase.run s v j .check).completion s = some t ∧
    exec (.decode v) s = .next t

/-- 42_encode.md R177: with a prefix-free table, a successful ENCODE followed by a DECODE or DECODE.V
of its destination bytes, with room for the symbols, gives the source symbols back. -/
def Obligations.DecodeInvertsEncode : Prop :=
  ∀ (s t u : State) (v : Bool), s.table.wf → s.table.prefixFree → exec .encode s = .next t →
    t.errCode = .none → u.table = t.table → u.srcLen = t.outLen →
    u.sourceBytes = t.destBytes t.outLen.toNat → u.RegionsOk →
    s.srcLen.toNat ≤ u.dstCap.toNat →
    ∃ w, exec (.decode v) u = .next w ∧ w.Record .none 0 s.srcLen.toNat ∧
      w.destBytes s.srcLen.toNat = s.sourceBytes

/-! ### The invariant -/

/-- The invariant of the block holds after reset (10_state.md R23, R40, 70_reset_and_hazards.md
R280). -/
def Obligations.InvariantHoldsAfterReset : Prop := State.reset.Inv

/-- 10_state.md R30, R37, R39, R40, 42_encode.md R175, 43_decode.md R199: every step keeps the
invariant: the memory's canonical form, inside DMEM; the form of the table's entries; DONE, ERR_CODE
and OUT_LEN 0 while BUSY; ERR_POS 0 after success, OUT_LEN 0 after an error; OUT_LEN at most
DMEM_SIZE. -/
def Obligations.EveryStepKeepsTheInvariant : Prop :=
  ∀ s t : State, s.Inv → step s = .next t → t.Inv

/-! ### The host's codebook generation -/

/-- 44_host_codebook_generation.md R222, R230: Build of an empty sequence fails with
PreconditionError; of any other it gives exactly one non-empty codeword for each distinct symbol, and
no codeword is a prefix of another. -/
def Obligations.BuildGivesAPrefixCode : Prop :=
  build [] = .error .preconditionError ∧
  ∀ S : List Byte, S ≠ [] → ∃ t cb, build S = .ok (t, cb) ∧ (cb.map Prod.fst).Nodup ∧
    (∀ x, x ∈ cb.map Prod.fst ↔ x ∈ S) ∧ (∀ p ∈ cb, p.2 ≠ []) ∧
    ∀ p ∈ cb, ∀ q ∈ cb, p.1 ≠ q.1 → ¬p.2 <+: q.2

/-- 44_host_codebook_generation.md R226, R228: Build of a sequence of one distinct symbol gives it
the codeword "0". -/
def Obligations.BuildOfOneSymbolGivesOneBit : Prop :=
  ∀ (x : Byte) (n : Nat), ∃ t, build (List.replicate (n + 1) x) = .ok (t, [(x, [false])])

/-- 44_host_codebook_generation.md R234: the worked outputs of Build, the tree of the first, and the
bit-strings that encode the sequences. -/
def Obligations.BuildWorkedOutputs : Prop :=
  (∀ row ∈ [
      ("abacabad", [('a', "1"), ('b', "01"), ('c', "001"), ('d', "000")], "10110011011000", 14),
      ("aaaa", [('a', "0")], "0000", 4),
      ("ab", [('a', "1"), ('b', "0")], "10", 2),
      ("abc", [('a', "01"), ('b', "00"), ('c', "1")], "01001", 5),
      ("aabbcd", [('a', "01"), ('b', "00"), ('c', "11"), ('d', "10")], "010100001110", 12),
      ("mississippi", [('i', "00"), ('m', "011"), ('p', "010"), ('s', "1")],
        "011001100110001001000", 21)],
    ∃ t cb, build (bytesOfText row.1.toList) = .ok (t, cb) ∧
      (∀ p, p ∈ cb ↔
        p ∈ row.2.1.map fun q => (byteOfChar q.1, codewordOfText q.2.toList)) ∧
      ((bytesOfText row.1.toList).flatMap fun x => (cb.lookup x).getD []) =
        codewordOfText row.2.2.1.toList ∧
      row.2.2.1.toList.length = row.2.2.2) ∧
  buildTree (bytesOfText "abacabad".toList) =
    some (.internal 8 (.leaf 0x61#8 4)
      (.internal 4 (.leaf 0x62#8 2) (.internal 2 (.leaf 0x63#8 1) (.leaf 0x64#8 1))))

/-! ### Host scripts -/

/-- 30_encoding.md R101 with 41_codebook_table.md R142 and 20_memory.md R80: `TBL.LOAD sym, "c"` from
an idle block, under every schedule (log 8): when its WAIT is over the entry of `sym` holds the codeword, no
other entry has changed, and the completion record is that of a success. -/
def Obligations.TblLoadStoresTheCodeword : Prop :=
  ∀ (s : State) (x : Byte) (cw : Codeword) (rest : List Stimulus), s.job = .idle →
    Codeword.wellFormed cw = true → s.stimuli = (Line.tblLoad x cw).expand ++ rest →
    ∃ k t, Sys2Proof.core.run k s = .next t ∧ t.stimuli = rest ∧ t.Record .none 0 0 ∧
      (t.table.entry x).valid = true ∧ (t.table.entry x).codeword = cw ∧
      (∀ y, y ≠ x → t.table.entry y = s.table.entry y) ∧ s.KeepsDmem t

/-! ### Steps of the host -/

/-- 20_memory.md R60, R68, R80 and 30_encoding.md R101: who moves is the schedule's next agent and,
when the schedule is used up, the engine exactly while BUSY; a step of the host performs the
transaction at the front of its list on the block and keeps the answer; a WAIT reads STATUS and is
over when that read shows BUSY 0; with nothing left, and for the engine while Idle, the turn passes.
The list, the schedule and the kept answer are the model's fields (logs 7 to 10). -/
def Obligations.HostStepsPerformTheirTransactions : Prop :=
  ∀ s : State,
    (∀ a rest, s.schedule = a :: rest → s.mover = a) ∧
    (s.schedule = [] → (s.mover = .engine ↔ s.busy = true)) ∧
    (∀ t rest, s.mover = .host → s.stimuli = .txn t :: rest →
      ∃ b r, State.busAccess { s with schedule := s.schedule.tail, stimuli := rest } t = (b, r) ∧
        step s = .next { b with response := some r }) ∧
    (∀ rest, s.mover = .host → s.stimuli = .wait :: rest →
      ∃ v : Word, s.busAccess (.readReg .status) = (s, ⟨.ok, some v⟩) ∧
        step s = .next { s with
          schedule := s.schedule.tail
          stimuli := if v.getLsbD 0 then .wait :: rest else rest
          response := some ⟨.ok, some v⟩ }) ∧
    (s.mover = .host → s.stimuli = [] → step s = .next { s with schedule := s.schedule.tail }) ∧
    (s.mover = .engine → s.job = .idle → step s = .next { s with schedule := s.schedule.tail })
end

