-- ==== Sys2Proof/Laws/State.lean ====
section
/-! SUPPORT. One lemma for each field of State and each named update of it, true by rfl, so that no
later proof unfolds a record update. -/

namespace Sys2Proof.Machine

variable (s : State)

/-! ### `State.accept` -/

@[simp] theorem State.accept_irqEn (w : Word) : (s.accept w).irqEn = s.irqEn := rfl
@[simp] theorem State.accept_done (w : Word) : (s.accept w).done = false := rfl
@[simp] theorem State.accept_cmdRejected (w : Word) :
    (s.accept w).cmdRejected = s.cmdRejected := rfl
@[simp] theorem State.accept_accessWhileBusy (w : Word) :
    (s.accept w).accessWhileBusy = s.accessWhileBusy := rfl
@[simp] theorem State.accept_errCode (w : Word) : (s.accept w).errCode = .none := rfl
@[simp] theorem State.accept_errPos (w : Word) : (s.accept w).errPos = 0 := rfl
@[simp] theorem State.accept_srcAddr (w : Word) : (s.accept w).srcAddr = s.srcAddr := rfl
@[simp] theorem State.accept_srcLen (w : Word) : (s.accept w).srcLen = s.srcLen := rfl
@[simp] theorem State.accept_dstAddr (w : Word) : (s.accept w).dstAddr = s.dstAddr := rfl
@[simp] theorem State.accept_dstCap (w : Word) : (s.accept w).dstCap = s.dstCap := rfl
@[simp] theorem State.accept_outLen (w : Word) : (s.accept w).outLen = 0 := rfl
@[simp] theorem State.accept_tblLen (w : Word) : (s.accept w).tblLen = s.tblLen := rfl
@[simp] theorem State.accept_tblBits (w : Word) : (s.accept w).tblBits = s.tblBits := rfl
@[simp] theorem State.accept_table (w : Word) : (s.accept w).table = s.table := rfl
@[simp] theorem State.accept_dmemSize (w : Word) : (s.accept w).dmemSize = s.dmemSize := rfl
@[simp] theorem State.accept_dmem (w : Word) : (s.accept w).dmem = s.dmem := rfl
@[simp] theorem State.accept_job (w : Word) : (s.accept w).job = .pending w := rfl
@[simp] theorem State.accept_draw (w : Word) : (s.accept w).draw = s.draw := rfl
@[simp] theorem State.accept_stimuli (w : Word) : (s.accept w).stimuli = s.stimuli := rfl
@[simp] theorem State.accept_schedule (w : Word) : (s.accept w).schedule = s.schedule := rfl
@[simp] theorem State.accept_response (w : Word) : (s.accept w).response = s.response := rfl

/-! ### `State.reject` -/

@[simp] theorem State.reject_irqEn : s.reject.irqEn = s.irqEn := rfl
@[simp] theorem State.reject_done : s.reject.done = s.done := rfl
@[simp] theorem State.reject_cmdRejected : s.reject.cmdRejected = true := rfl
@[simp] theorem State.reject_accessWhileBusy : s.reject.accessWhileBusy = s.accessWhileBusy := rfl
@[simp] theorem State.reject_errCode : s.reject.errCode = s.errCode := rfl
@[simp] theorem State.reject_errPos : s.reject.errPos = s.errPos := rfl
@[simp] theorem State.reject_srcAddr : s.reject.srcAddr = s.srcAddr := rfl
@[simp] theorem State.reject_srcLen : s.reject.srcLen = s.srcLen := rfl
@[simp] theorem State.reject_dstAddr : s.reject.dstAddr = s.dstAddr := rfl
@[simp] theorem State.reject_dstCap : s.reject.dstCap = s.dstCap := rfl
@[simp] theorem State.reject_outLen : s.reject.outLen = s.outLen := rfl
@[simp] theorem State.reject_tblLen : s.reject.tblLen = s.tblLen := rfl
@[simp] theorem State.reject_tblBits : s.reject.tblBits = s.tblBits := rfl
@[simp] theorem State.reject_table : s.reject.table = s.table := rfl
@[simp] theorem State.reject_dmemSize : s.reject.dmemSize = s.dmemSize := rfl
@[simp] theorem State.reject_dmem : s.reject.dmem = s.dmem := rfl
@[simp] theorem State.reject_job : s.reject.job = s.job := rfl
@[simp] theorem State.reject_draw : s.reject.draw = s.draw := rfl
@[simp] theorem State.reject_stimuli : s.reject.stimuli = s.stimuli := rfl
@[simp] theorem State.reject_schedule : s.reject.schedule = s.schedule := rfl
@[simp] theorem State.reject_response : s.reject.response = s.response := rfl

/-! ### `State.blocked` -/

@[simp] theorem State.blocked_irqEn : s.blocked.irqEn = s.irqEn := rfl
@[simp] theorem State.blocked_done : s.blocked.done = s.done := rfl
@[simp] theorem State.blocked_cmdRejected : s.blocked.cmdRejected = s.cmdRejected := rfl
@[simp] theorem State.blocked_accessWhileBusy : s.blocked.accessWhileBusy = true := rfl
@[simp] theorem State.blocked_errCode : s.blocked.errCode = s.errCode := rfl
@[simp] theorem State.blocked_errPos : s.blocked.errPos = s.errPos := rfl
@[simp] theorem State.blocked_srcAddr : s.blocked.srcAddr = s.srcAddr := rfl
@[simp] theorem State.blocked_srcLen : s.blocked.srcLen = s.srcLen := rfl
@[simp] theorem State.blocked_dstAddr : s.blocked.dstAddr = s.dstAddr := rfl
@[simp] theorem State.blocked_dstCap : s.blocked.dstCap = s.dstCap := rfl
@[simp] theorem State.blocked_outLen : s.blocked.outLen = s.outLen := rfl
@[simp] theorem State.blocked_tblLen : s.blocked.tblLen = s.tblLen := rfl
@[simp] theorem State.blocked_tblBits : s.blocked.tblBits = s.tblBits := rfl
@[simp] theorem State.blocked_table : s.blocked.table = s.table := rfl
@[simp] theorem State.blocked_dmemSize : s.blocked.dmemSize = s.dmemSize := rfl
@[simp] theorem State.blocked_dmem : s.blocked.dmem = s.dmem := rfl
@[simp] theorem State.blocked_job : s.blocked.job = s.job := rfl
@[simp] theorem State.blocked_draw : s.blocked.draw = s.draw := rfl
@[simp] theorem State.blocked_stimuli : s.blocked.stimuli = s.stimuli := rfl
@[simp] theorem State.blocked_schedule : s.blocked.schedule = s.schedule := rfl
@[simp] theorem State.blocked_response : s.blocked.response = s.response := rfl

/-! ### `State.complete` -/

@[simp] theorem State.complete_irqEn (c : ErrCode) (p o : Nat) :
    (s.complete c p o).irqEn = s.irqEn := rfl
@[simp] theorem State.complete_done (c : ErrCode) (p o : Nat) :
    (s.complete c p o).done = true := rfl
@[simp] theorem State.complete_cmdRejected (c : ErrCode) (p o : Nat) :
    (s.complete c p o).cmdRejected = s.cmdRejected := rfl
@[simp] theorem State.complete_accessWhileBusy (c : ErrCode) (p o : Nat) :
    (s.complete c p o).accessWhileBusy = s.accessWhileBusy := rfl
@[simp] theorem State.complete_errCode (c : ErrCode) (p o : Nat) :
    (s.complete c p o).errCode = c := rfl
@[simp] theorem State.complete_errPos (c : ErrCode) (p o : Nat) :
    (s.complete c p o).errPos = if c = .none then 0 else BitVec.ofNat 32 p := rfl
@[simp] theorem State.complete_srcAddr (c : ErrCode) (p o : Nat) :
    (s.complete c p o).srcAddr = s.srcAddr := rfl
@[simp] theorem State.complete_srcLen (c : ErrCode) (p o : Nat) :
    (s.complete c p o).srcLen = s.srcLen := rfl
@[simp] theorem State.complete_dstAddr (c : ErrCode) (p o : Nat) :
    (s.complete c p o).dstAddr = s.dstAddr := rfl
@[simp] theorem State.complete_dstCap (c : ErrCode) (p o : Nat) :
    (s.complete c p o).dstCap = s.dstCap := rfl
@[simp] theorem State.complete_outLen (c : ErrCode) (p o : Nat) :
    (s.complete c p o).outLen = BitVec.ofNat 32 o := rfl
@[simp] theorem State.complete_tblLen (c : ErrCode) (p o : Nat) :
    (s.complete c p o).tblLen = s.tblLen := rfl
@[simp] theorem State.complete_tblBits (c : ErrCode) (p o : Nat) :
    (s.complete c p o).tblBits = s.tblBits := rfl
@[simp] theorem State.complete_table (c : ErrCode) (p o : Nat) :
    (s.complete c p o).table = s.table := rfl
@[simp] theorem State.complete_dmemSize (c : ErrCode) (p o : Nat) :
    (s.complete c p o).dmemSize = s.dmemSize := rfl
@[simp] theorem State.complete_dmem (c : ErrCode) (p o : Nat) :
    (s.complete c p o).dmem = s.dmem := rfl
@[simp] theorem State.complete_job (c : ErrCode) (p o : Nat) : (s.complete c p o).job = .idle := rfl
@[simp] theorem State.complete_draw (c : ErrCode) (p o : Nat) :
    (s.complete c p o).draw = s.draw + 1 := rfl
@[simp] theorem State.complete_stimuli (c : ErrCode) (p o : Nat) :
    (s.complete c p o).stimuli = s.stimuli := rfl
@[simp] theorem State.complete_schedule (c : ErrCode) (p o : Nat) :
    (s.complete c p o).schedule = s.schedule := rfl
@[simp] theorem State.complete_response (c : ErrCode) (p o : Nat) :
    (s.complete c p o).response = s.response := rfl

/-! ### `State.succeed` -/

@[simp] theorem State.succeed_irqEn : s.succeed.irqEn = s.irqEn := rfl
@[simp] theorem State.succeed_done : s.succeed.done = true := rfl
@[simp] theorem State.succeed_cmdRejected : s.succeed.cmdRejected = s.cmdRejected := rfl
@[simp] theorem State.succeed_accessWhileBusy : s.succeed.accessWhileBusy = s.accessWhileBusy := rfl
@[simp] theorem State.succeed_errCode : s.succeed.errCode = .none := rfl
@[simp] theorem State.succeed_errPos : s.succeed.errPos = 0 := rfl
@[simp] theorem State.succeed_srcAddr : s.succeed.srcAddr = s.srcAddr := rfl
@[simp] theorem State.succeed_srcLen : s.succeed.srcLen = s.srcLen := rfl
@[simp] theorem State.succeed_dstAddr : s.succeed.dstAddr = s.dstAddr := rfl
@[simp] theorem State.succeed_dstCap : s.succeed.dstCap = s.dstCap := rfl
@[simp] theorem State.succeed_outLen : s.succeed.outLen = 0 := rfl
@[simp] theorem State.succeed_tblLen : s.succeed.tblLen = s.tblLen := rfl
@[simp] theorem State.succeed_tblBits : s.succeed.tblBits = s.tblBits := rfl
@[simp] theorem State.succeed_table : s.succeed.table = s.table := rfl
@[simp] theorem State.succeed_dmemSize : s.succeed.dmemSize = s.dmemSize := rfl
@[simp] theorem State.succeed_dmem : s.succeed.dmem = s.dmem := rfl
@[simp] theorem State.succeed_job : s.succeed.job = .idle := rfl
@[simp] theorem State.succeed_draw : s.succeed.draw = s.draw + 1 := rfl
@[simp] theorem State.succeed_stimuli : s.succeed.stimuli = s.stimuli := rfl
@[simp] theorem State.succeed_schedule : s.succeed.schedule = s.schedule := rfl
@[simp] theorem State.succeed_response : s.succeed.response = s.response := rfl

/-! ### `State.raise` -/

@[simp] theorem State.raise_irqEn (e : JobError) : (s.raise e).irqEn = s.irqEn := rfl
@[simp] theorem State.raise_done (e : JobError) : (s.raise e).done = true := rfl
@[simp] theorem State.raise_cmdRejected (e : JobError) :
    (s.raise e).cmdRejected = s.cmdRejected := rfl
@[simp] theorem State.raise_accessWhileBusy (e : JobError) :
    (s.raise e).accessWhileBusy = s.accessWhileBusy := rfl
@[simp] theorem State.raise_errCode (e : JobError) : (s.raise e).errCode = e.code := rfl
@[simp] theorem State.raise_errPos (e : JobError) :
    (s.raise e).errPos = if e.code = .none then 0 else BitVec.ofNat 32 e.pos := rfl
@[simp] theorem State.raise_srcAddr (e : JobError) : (s.raise e).srcAddr = s.srcAddr := rfl
@[simp] theorem State.raise_srcLen (e : JobError) : (s.raise e).srcLen = s.srcLen := rfl
@[simp] theorem State.raise_dstAddr (e : JobError) : (s.raise e).dstAddr = s.dstAddr := rfl
@[simp] theorem State.raise_dstCap (e : JobError) : (s.raise e).dstCap = s.dstCap := rfl
@[simp] theorem State.raise_outLen (e : JobError) : (s.raise e).outLen = 0 := rfl
@[simp] theorem State.raise_tblLen (e : JobError) : (s.raise e).tblLen = s.tblLen := rfl
@[simp] theorem State.raise_tblBits (e : JobError) : (s.raise e).tblBits = s.tblBits := rfl
@[simp] theorem State.raise_table (e : JobError) : (s.raise e).table = s.table := rfl
@[simp] theorem State.raise_dmemSize (e : JobError) : (s.raise e).dmemSize = s.dmemSize := rfl
@[simp] theorem State.raise_dmem (e : JobError) :
    (s.raise e).dmem = if e.code.spoilsDestination then s.dmem.spoil s.draw s.dstAddr.toNat s.dstCap.toNat else s.dmem := rfl
@[simp] theorem State.raise_job (e : JobError) : (s.raise e).job = .idle := rfl
@[simp] theorem State.raise_draw (e : JobError) : (s.raise e).draw = s.draw + 1 := rfl
@[simp] theorem State.raise_stimuli (e : JobError) : (s.raise e).stimuli = s.stimuli := rfl
@[simp] theorem State.raise_schedule (e : JobError) : (s.raise e).schedule = s.schedule := rfl
@[simp] theorem State.raise_response (e : JobError) : (s.raise e).response = s.response := rfl

/-! ### `State.writeStatus` -/

@[simp] theorem State.writeStatus_irqEn (v : Word) : (s.writeStatus v).irqEn = s.irqEn := rfl
@[simp] theorem State.writeStatus_done (v : Word) :
    (s.writeStatus v).done = (s.done && !v.getLsbD 1) := rfl
@[simp] theorem State.writeStatus_cmdRejected (v : Word) :
    (s.writeStatus v).cmdRejected = (s.cmdRejected && !v.getLsbD 8) := rfl
@[simp] theorem State.writeStatus_accessWhileBusy (v : Word) :
    (s.writeStatus v).accessWhileBusy = (s.accessWhileBusy && !v.getLsbD 9) := rfl
@[simp] theorem State.writeStatus_errCode (v : Word) : (s.writeStatus v).errCode = s.errCode := rfl
@[simp] theorem State.writeStatus_errPos (v : Word) : (s.writeStatus v).errPos = s.errPos := rfl
@[simp] theorem State.writeStatus_srcAddr (v : Word) : (s.writeStatus v).srcAddr = s.srcAddr := rfl
@[simp] theorem State.writeStatus_srcLen (v : Word) : (s.writeStatus v).srcLen = s.srcLen := rfl
@[simp] theorem State.writeStatus_dstAddr (v : Word) : (s.writeStatus v).dstAddr = s.dstAddr := rfl
@[simp] theorem State.writeStatus_dstCap (v : Word) : (s.writeStatus v).dstCap = s.dstCap := rfl
@[simp] theorem State.writeStatus_outLen (v : Word) : (s.writeStatus v).outLen = s.outLen := rfl
@[simp] theorem State.writeStatus_tblLen (v : Word) : (s.writeStatus v).tblLen = s.tblLen := rfl
@[simp] theorem State.writeStatus_tblBits (v : Word) : (s.writeStatus v).tblBits = s.tblBits := rfl
@[simp] theorem State.writeStatus_table (v : Word) : (s.writeStatus v).table = s.table := rfl
@[simp] theorem State.writeStatus_dmemSize (v : Word) :
    (s.writeStatus v).dmemSize = s.dmemSize := rfl
@[simp] theorem State.writeStatus_dmem (v : Word) : (s.writeStatus v).dmem = s.dmem := rfl
@[simp] theorem State.writeStatus_job (v : Word) : (s.writeStatus v).job = s.job := rfl
@[simp] theorem State.writeStatus_draw (v : Word) : (s.writeStatus v).draw = s.draw := rfl
@[simp] theorem State.writeStatus_stimuli (v : Word) : (s.writeStatus v).stimuli = s.stimuli := rfl
@[simp] theorem State.writeStatus_schedule (v : Word) :
    (s.writeStatus v).schedule = s.schedule := rfl
@[simp] theorem State.writeStatus_response (v : Word) :
    (s.writeStatus v).response = s.response := rfl

/-! ### `State.writeCtrl` -/

@[simp] theorem State.writeCtrl_irqEn (v : Word) : (s.writeCtrl v).irqEn = v.getLsbD 0 := rfl
@[simp] theorem State.writeCtrl_done (v : Word) : (s.writeCtrl v).done = s.done := rfl
@[simp] theorem State.writeCtrl_cmdRejected (v : Word) :
    (s.writeCtrl v).cmdRejected = s.cmdRejected := rfl
@[simp] theorem State.writeCtrl_accessWhileBusy (v : Word) :
    (s.writeCtrl v).accessWhileBusy = s.accessWhileBusy := rfl
@[simp] theorem State.writeCtrl_errCode (v : Word) : (s.writeCtrl v).errCode = s.errCode := rfl
@[simp] theorem State.writeCtrl_errPos (v : Word) : (s.writeCtrl v).errPos = s.errPos := rfl
@[simp] theorem State.writeCtrl_srcAddr (v : Word) : (s.writeCtrl v).srcAddr = s.srcAddr := rfl
@[simp] theorem State.writeCtrl_srcLen (v : Word) : (s.writeCtrl v).srcLen = s.srcLen := rfl
@[simp] theorem State.writeCtrl_dstAddr (v : Word) : (s.writeCtrl v).dstAddr = s.dstAddr := rfl
@[simp] theorem State.writeCtrl_dstCap (v : Word) : (s.writeCtrl v).dstCap = s.dstCap := rfl
@[simp] theorem State.writeCtrl_outLen (v : Word) : (s.writeCtrl v).outLen = s.outLen := rfl
@[simp] theorem State.writeCtrl_tblLen (v : Word) : (s.writeCtrl v).tblLen = s.tblLen := rfl
@[simp] theorem State.writeCtrl_tblBits (v : Word) : (s.writeCtrl v).tblBits = s.tblBits := rfl
@[simp] theorem State.writeCtrl_table (v : Word) : (s.writeCtrl v).table = s.table := rfl
@[simp] theorem State.writeCtrl_dmemSize (v : Word) : (s.writeCtrl v).dmemSize = s.dmemSize := rfl
@[simp] theorem State.writeCtrl_dmem (v : Word) : (s.writeCtrl v).dmem = s.dmem := rfl
@[simp] theorem State.writeCtrl_job (v : Word) : (s.writeCtrl v).job = s.job := rfl
@[simp] theorem State.writeCtrl_draw (v : Word) : (s.writeCtrl v).draw = s.draw := rfl
@[simp] theorem State.writeCtrl_stimuli (v : Word) : (s.writeCtrl v).stimuli = s.stimuli := rfl
@[simp] theorem State.writeCtrl_schedule (v : Word) : (s.writeCtrl v).schedule = s.schedule := rfl
@[simp] theorem State.writeCtrl_response (v : Word) : (s.writeCtrl v).response = s.response := rfl

/-! ### `State.afterTurn` -/

@[simp] theorem State.afterTurn_irqEn : s.afterTurn.irqEn = s.irqEn := rfl
@[simp] theorem State.afterTurn_done : s.afterTurn.done = s.done := rfl
@[simp] theorem State.afterTurn_cmdRejected : s.afterTurn.cmdRejected = s.cmdRejected := rfl
@[simp] theorem State.afterTurn_accessWhileBusy :
    s.afterTurn.accessWhileBusy = s.accessWhileBusy := rfl
@[simp] theorem State.afterTurn_errCode : s.afterTurn.errCode = s.errCode := rfl
@[simp] theorem State.afterTurn_errPos : s.afterTurn.errPos = s.errPos := rfl
@[simp] theorem State.afterTurn_srcAddr : s.afterTurn.srcAddr = s.srcAddr := rfl
@[simp] theorem State.afterTurn_srcLen : s.afterTurn.srcLen = s.srcLen := rfl
@[simp] theorem State.afterTurn_dstAddr : s.afterTurn.dstAddr = s.dstAddr := rfl
@[simp] theorem State.afterTurn_dstCap : s.afterTurn.dstCap = s.dstCap := rfl
@[simp] theorem State.afterTurn_outLen : s.afterTurn.outLen = s.outLen := rfl
@[simp] theorem State.afterTurn_tblLen : s.afterTurn.tblLen = s.tblLen := rfl
@[simp] theorem State.afterTurn_tblBits : s.afterTurn.tblBits = s.tblBits := rfl
@[simp] theorem State.afterTurn_table : s.afterTurn.table = s.table := rfl
@[simp] theorem State.afterTurn_dmemSize : s.afterTurn.dmemSize = s.dmemSize := rfl
@[simp] theorem State.afterTurn_dmem : s.afterTurn.dmem = s.dmem := rfl
@[simp] theorem State.afterTurn_job : s.afterTurn.job = s.job := rfl
@[simp] theorem State.afterTurn_draw : s.afterTurn.draw = s.draw := rfl
@[simp] theorem State.afterTurn_stimuli : s.afterTurn.stimuli = s.stimuli := rfl
@[simp] theorem State.afterTurn_schedule : s.afterTurn.schedule = s.schedule.tail := rfl
@[simp] theorem State.afterTurn_response : s.afterTurn.response = s.response := rfl

/-! ### `State.withPending` -/

@[simp] theorem State.withPending_irqEn (w : Word) : (s.withPending w).irqEn = s.irqEn := rfl
@[simp] theorem State.withPending_done (w : Word) : (s.withPending w).done = false := rfl
@[simp] theorem State.withPending_cmdRejected (w : Word) :
    (s.withPending w).cmdRejected = s.cmdRejected := rfl
@[simp] theorem State.withPending_accessWhileBusy (w : Word) :
    (s.withPending w).accessWhileBusy = s.accessWhileBusy := rfl
@[simp] theorem State.withPending_errCode (w : Word) : (s.withPending w).errCode = .none := rfl
@[simp] theorem State.withPending_errPos (w : Word) : (s.withPending w).errPos = 0 := rfl
@[simp] theorem State.withPending_srcAddr (w : Word) : (s.withPending w).srcAddr = s.srcAddr := rfl
@[simp] theorem State.withPending_srcLen (w : Word) : (s.withPending w).srcLen = s.srcLen := rfl
@[simp] theorem State.withPending_dstAddr (w : Word) : (s.withPending w).dstAddr = s.dstAddr := rfl
@[simp] theorem State.withPending_dstCap (w : Word) : (s.withPending w).dstCap = s.dstCap := rfl
@[simp] theorem State.withPending_outLen (w : Word) : (s.withPending w).outLen = 0 := rfl
@[simp] theorem State.withPending_tblLen (w : Word) : (s.withPending w).tblLen = s.tblLen := rfl
@[simp] theorem State.withPending_tblBits (w : Word) : (s.withPending w).tblBits = s.tblBits := rfl
@[simp] theorem State.withPending_table (w : Word) : (s.withPending w).table = s.table := rfl
@[simp] theorem State.withPending_dmemSize (w : Word) :
    (s.withPending w).dmemSize = s.dmemSize := rfl
@[simp] theorem State.withPending_dmem (w : Word) : (s.withPending w).dmem = s.dmem := rfl
@[simp] theorem State.withPending_job (w : Word) : (s.withPending w).job = .pending w := rfl
@[simp] theorem State.withPending_draw (w : Word) : (s.withPending w).draw = s.draw := rfl
@[simp] theorem State.withPending_stimuli (w : Word) : (s.withPending w).stimuli = s.stimuli := rfl
@[simp] theorem State.withPending_schedule (w : Word) :
    (s.withPending w).schedule = .engine :: s.schedule := rfl
@[simp] theorem State.withPending_response (w : Word) :
    (s.withPending w).response = s.response := rfl

/-! ### `State.resetBlock` -/

@[simp] theorem State.resetBlock_irqEn : s.resetBlock.irqEn = false := rfl
@[simp] theorem State.resetBlock_done : s.resetBlock.done = false := rfl
@[simp] theorem State.resetBlock_cmdRejected : s.resetBlock.cmdRejected = false := rfl
@[simp] theorem State.resetBlock_accessWhileBusy : s.resetBlock.accessWhileBusy = false := rfl
@[simp] theorem State.resetBlock_errCode : s.resetBlock.errCode = .none := rfl
@[simp] theorem State.resetBlock_errPos : s.resetBlock.errPos = 0 := rfl
@[simp] theorem State.resetBlock_srcAddr : s.resetBlock.srcAddr = 0 := rfl
@[simp] theorem State.resetBlock_srcLen : s.resetBlock.srcLen = 0 := rfl
@[simp] theorem State.resetBlock_dstAddr : s.resetBlock.dstAddr = 0 := rfl
@[simp] theorem State.resetBlock_dstCap : s.resetBlock.dstCap = 0 := rfl
@[simp] theorem State.resetBlock_outLen : s.resetBlock.outLen = 0 := rfl
@[simp] theorem State.resetBlock_tblLen : s.resetBlock.tblLen = 0 := rfl
@[simp] theorem State.resetBlock_tblBits : s.resetBlock.tblBits = 0 := rfl
@[simp] theorem State.resetBlock_table :
    s.resetBlock.table = Vector.replicate Config.nsym Entry.atReset := rfl
@[simp] theorem State.resetBlock_dmemSize : s.resetBlock.dmemSize = s.dmemSize := rfl
@[simp] theorem State.resetBlock_dmem : s.resetBlock.dmem = ⟨s.draw + 1, []⟩ := rfl
@[simp] theorem State.resetBlock_job : s.resetBlock.job = .idle := rfl
@[simp] theorem State.resetBlock_draw : s.resetBlock.draw = s.draw + 1 := rfl
@[simp] theorem State.resetBlock_stimuli : s.resetBlock.stimuli = s.stimuli := rfl
@[simp] theorem State.resetBlock_schedule : s.resetBlock.schedule = s.schedule := rfl
@[simp] theorem State.resetBlock_response : s.resetBlock.response = s.response := rfl

/-! ### Derived status bits -/

@[simp] theorem Job.isPending_idle : Job.idle.isPending = false := rfl
@[simp] theorem Job.isPending_pending (w : Word) : (Job.pending w).isPending = true := rfl

theorem State.busy_eq : s.busy = s.job.isPending := rfl

theorem State.busy_iff : s.busy = true ↔ ∃ w, s.job = .pending w := by
  cases h : s.job <;> simp [State.busy_eq, h]

theorem State.not_busy_iff : s.busy = false ↔ s.job = .idle := by
  cases h : s.job <;> simp [State.busy_eq, h]

@[simp] theorem State.irq_eq : s.irq = (s.irqEn && s.done) := rfl

@[simp] theorem State.err_eq : s.err = decide (s.errCode ≠ .none) := by
  cases h : s.errCode <;> simp [State.err, h, ErrCode.toBits]

/-! ### The state after reset -/

@[simp] theorem State.reset_job : State.reset.job = .idle := rfl
@[simp] theorem State.reset_table :
    State.reset.table = Vector.replicate Config.nsym Entry.atReset := rfl
@[simp] theorem State.reset_dmem : State.reset.dmem = ⟨0, []⟩ := rfl

end Sys2Proof.Machine
end

