-- ==== Sys2Proof/Laws/Memory.lean ====
section
/-! SUPPORT. The laws of DMEM: reading after writing, byte by byte, for runs of bytes and
little-endian; and every write keeps the canonical form and stays inside the bytes it writes. -/

namespace Sys2Proof.Machine

/-! ### One cell -/

theorem lookupCell_insertCell_same (l : List Host.Cell) (a : Nat) (v : Byte) :
    lookupCell (insertCell l a v) a = some v := by
  induction l with
  | nil => simp [insertCell, lookupCell]
  | cons c rest ih =>
    obtain ⟨k, w⟩ := c
    unfold insertCell
    split
    · simp [lookupCell]
    · split
      · simp [lookupCell]
      · rename_i h1 h2
        simp [lookupCell, Ne.symm h2, ih]

theorem lookupCell_insertCell_ne (l : List Host.Cell) {a b : Nat} (v : Byte) (h : b ≠ a) :
    lookupCell (insertCell l a v) b = lookupCell l b := by
  induction l with
  | nil => simp [insertCell, lookupCell, Ne.symm h]
  | cons c rest ih =>
    obtain ⟨k, w⟩ := c
    unfold insertCell
    split
    · simp [lookupCell, Ne.symm h]
    · split
      · rename_i h1 h2
        subst h2
        simp [lookupCell, Ne.symm h]
      · simp [lookupCell, ih]

/-- A cell of the listing after a write is the written one or was there before. -/
theorem mem_insertCell {l : List Host.Cell} {a : Nat} {v : Byte} {c : Host.Cell}
    (h : c ∈ insertCell l a v) : c = (a, v) ∨ c ∈ l := by
  induction l with
  | nil => simpa [insertCell] using h
  | cons d rest ih =>
    obtain ⟨k, w⟩ := d
    unfold insertCell at h
    split at h
    · simpa using h
    · split at h
      · simp only [List.mem_cons] at h ⊢; tauto
      · simp only [List.mem_cons] at h ⊢
        rcases h with h | h
        · exact .inr (.inl h)
        · exact (ih h).imp_right .inr

theorem insertCell_pairwise {l : List Host.Cell} (a : Nat) (v : Byte)
    (h : l.Pairwise fun x y => x.1 < y.1) :
    (insertCell l a v).Pairwise fun x y => x.1 < y.1 := by
  induction l with
  | nil => simp [insertCell]
  | cons d rest ih =>
    obtain ⟨k, w⟩ := d
    obtain ⟨hk, hrest⟩ := List.pairwise_cons.1 h
    unfold insertCell
    split
    · rename_i hak
      refine List.pairwise_cons.2 ⟨fun c hc => ?_, h⟩
      rcases List.mem_cons.1 hc with rfl | hc
      · exact hak
      · exact Nat.lt_trans hak (hk c hc)
    · split
      · rename_i hak
        subst hak
        exact List.pairwise_cons.2 ⟨hk, hrest⟩
      · refine List.pairwise_cons.2 ⟨fun c hc => ?_, ih hrest⟩
        rcases mem_insertCell hc with rfl | hc
        · simp only; omega
        · exact hk c hc

/-! ### One byte -/

@[simp] theorem Memory.epoch_write (m : Memory) (a : Nat) (v : Byte) :
    (m.write a v).epoch = m.epoch := rfl

@[simp] theorem Memory.read_write_same (m : Memory) (a : Nat) (v : Byte) :
    (m.write a v).read a = v := by
  simp [Memory.read, Memory.write, lookupCell_insertCell_same]

theorem Memory.read_write_ne (m : Memory) {a b : Nat} (v : Byte) (h : b ≠ a) :
    (m.write a v).read b = m.read b := by
  simp [Memory.read, Memory.write, lookupCell_insertCell_ne _ v h, Memory.unlisted]

theorem Memory.wf_write {m : Memory} (a : Nat) (v : Byte) (h : m.wf) : (m.write a v).wf :=
  insertCell_pairwise a v h

/-- The memory after a reset has the canonical form. -/
theorem Memory.wf_atReset (size : Config.DmemSize) (epoch : Nat) :
    (State.atReset size epoch).dmem.wf := List.Pairwise.nil

theorem Memory.wf_reset : State.reset.dmem.wf := Memory.wf_atReset _ _

/-- Every listed address is below `n`. -/
def Memory.Below (m : Memory) (n : Nat) : Prop := ∀ c ∈ m.cells, c.1 < n

theorem Memory.below_write {m : Memory} {n a : Nat} (v : Byte) (h : m.Below n) (ha : a < n) :
    (m.write a v).Below n := fun c hc => by
  rcases mem_insertCell hc with rfl | hc
  · exact ha
  · exact h c hc

/-! ### Runs of bytes -/

theorem Memory.writeBytes_append (m : Memory) (a : Nat) (vs ws : List Byte) :
    m.writeBytes a (vs ++ ws) = (m.writeBytes a vs).writeBytes (a + vs.length) ws := by
  induction vs generalizing m a with
  | nil => rfl
  | cons v vs ih =>
    simp only [List.cons_append, Memory.writeBytes, ih, List.length_cons]
    congr 1
    omega

theorem Memory.read_writeBytes_outside (m : Memory) {a b : Nat} (vs : List Byte)
    (h : b < a ∨ a + vs.length ≤ b) : (m.writeBytes a vs).read b = m.read b := by
  induction vs generalizing m a with
  | nil => rfl
  | cons v vs ih =>
    simp only [List.length_cons] at h
    rw [Memory.writeBytes, ih _ (by omega), Memory.read_write_ne _ _ (by omega)]

theorem Memory.read_writeBytes_inside (m : Memory) (a : Nat) (vs : List Byte) {i : Nat}
    (h : i < vs.length) : (m.writeBytes a vs).read (a + i) = vs[i] := by
  induction vs generalizing m a i with
  | nil => simp at h
  | cons v vs ih =>
    cases i with
    | zero =>
      rw [Memory.writeBytes, Memory.read_writeBytes_outside _ _ (by omega)]
      simp
    | succ i =>
      rw [Memory.writeBytes, show a + (i + 1) = a + 1 + i by omega]
      simpa using ih _ _ (by simpa using h)

@[simp] theorem Memory.length_readBytes (m : Memory) (a n : Nat) :
    (m.readBytes a n).length = n := by simp [Memory.readBytes]

theorem Memory.readBytes_writeBytes (m : Memory) (a : Nat) (vs : List Byte) :
    (m.writeBytes a vs).readBytes a vs.length = vs := by
  apply List.ext_getElem (by simp)
  intro i h1 h2
  simp [Memory.readBytes, Memory.read_writeBytes_inside m a vs h2]

theorem Memory.wf_writeBytes {m : Memory} (a : Nat) (vs : List Byte) (h : m.wf) :
    (m.writeBytes a vs).wf := by
  induction vs generalizing m a with
  | nil => exact h
  | cons v vs ih => exact ih _ (Memory.wf_write a v h)

theorem Memory.below_writeBytes {m : Memory} {n a : Nat} (vs : List Byte) (h : m.Below n)
    (ha : a + vs.length ≤ n) : (m.writeBytes a vs).Below n := by
  induction vs generalizing m a with
  | nil => exact h
  | cons v vs ih =>
    simp only [List.length_cons] at ha
    exact ih (Memory.below_write v h (by omega)) (by omega)

@[simp] theorem Memory.epoch_writeBytes (m : Memory) (a : Nat) (vs : List Byte) :
    (m.writeBytes a vs).epoch = m.epoch := by
  induction vs generalizing m a with
  | nil => rfl
  | cons v vs ih => simp [Memory.writeBytes, ih]

/-! ### A spoiled region -/

theorem Memory.read_spoil_outside (m : Memory) (d : Nat) {a n b : Nat} (h : b < a ∨ a + n ≤ b) :
    (m.spoil d a n).read b = m.read b :=
  Memory.read_writeBytes_outside _ _ (by simpa using h)

theorem Memory.wf_spoil {m : Memory} (d a n : Nat) (h : m.wf) : (m.spoil d a n).wf :=
  Memory.wf_writeBytes _ _ h

theorem Memory.below_spoil {m : Memory} (d : Nat) {a n k : Nat} (h : m.Below k) (ha : a + n ≤ k) :
    (m.spoil d a n).Below k := Memory.below_writeBytes _ h (by simpa using ha)

/-! ### Little-endian accesses -/

/-- The `n` little-endian bytes of `v`, least significant first. -/
def bytesLE : Nat → Word → List Byte
  | 0, _ => []
  | n + 1, v => v.setWidth 8 :: bytesLE n (v >>> 8)

@[simp] theorem length_bytesLE (n : Nat) (v : Word) : (bytesLE n v).length = n := by
  induction n generalizing v with
  | zero => rfl
  | succ n ih => simp [bytesLE, ih]

theorem getElem_bytesLE (n : Nat) (v : Word) (i : Nat) (h : i < (bytesLE n v).length) :
    (bytesLE n v)[i] = v.extractLsb' (8 * i) 8 := by
  induction n generalizing v i with
  | zero => simp [bytesLE] at h
  | succ n ih =>
    cases i with
    | zero => simp [bytesLE, BitVec.setWidth_eq_extractLsb' (show 8 ≤ 32 by omega)]
    | succ i =>
      simp only [bytesLE, List.getElem_cons_succ]
      rw [ih]
      ext j hj
      simp only [BitVec.getElem_extractLsb', BitVec.getLsbD_ushiftRight]
      congr 1
      omega

/-- A little-endian write is a run of bytes. -/
theorem Memory.writeLE_eq (m : Memory) (a n : Nat) (v : Word) :
    m.writeLE a n v = m.writeBytes a (bytesLE n v) := by
  induction n generalizing m a v with
  | zero => rfl
  | succ n ih => rw [Memory.writeLE, bytesLE, Memory.writeBytes, ih]

theorem Memory.read_writeLE_outside (m : Memory) {a n b : Nat} (v : Word)
    (h : b < a ∨ a + n ≤ b) : (m.writeLE a n v).read b = m.read b := by
  rw [Memory.writeLE_eq]
  exact Memory.read_writeBytes_outside _ _ (by simpa using h)

theorem Memory.read_writeLE_inside (m : Memory) (a n : Nat) (v : Word) {i : Nat} (h : i < n) :
    (m.writeLE a n v).read (a + i) = v.extractLsb' (8 * i) 8 := by
  rw [Memory.writeLE_eq, Memory.read_writeBytes_inside m a _ (by simpa using h), getElem_bytesLE]

theorem Memory.wf_writeLE {m : Memory} (a n : Nat) (v : Word) (h : m.wf) :
    (m.writeLE a n v).wf := by
  rw [Memory.writeLE_eq]; exact Memory.wf_writeBytes _ _ h

theorem Memory.below_writeLE {m : Memory} {k a n : Nat} (v : Word) (h : m.Below k)
    (ha : a + n ≤ k) : (m.writeLE a n v).Below k := by
  rw [Memory.writeLE_eq]; exact Memory.below_writeBytes _ h (by simpa using ha)

/-- Bit `j` of a little-endian read of at most four bytes: bit `j mod 8` of byte `j / 8`, and 0
beyond the bytes read. -/
theorem Memory.getLsbD_readLE (m : Memory) (a n j : Nat) (hj : j < 32) :
    (m.readLE a n).getLsbD j =
      (decide (j / 8 < n) && (m.read (a + j / 8)).getLsbD (j % 8)) := by
  induction n generalizing a j with
  | zero => simp [Memory.readLE]
  | succ n ih =>
    rw [Memory.readLE, BitVec.getLsbD_or, BitVec.getLsbD_setWidth, BitVec.getLsbD_shiftLeft]
    by_cases h8 : j < 8
    · have h1 : j / 8 = 0 := by omega
      have h2 : j % 8 = j := by omega
      simp [h8, h1, h2, hj]
    · have h1 : (j - 8) / 8 = j / 8 - 1 := by omega
      have h2 : (j - 8) % 8 = j % 8 := by omega
      have h3 : a + 1 + (j / 8 - 1) = a + j / 8 := by omega
      have h4 : (m.read a).getLsbD j = false := BitVec.getLsbD_of_ge _ _ (by omega)
      have h5 : (j / 8 - 1 < n) ↔ (j / 8 < n + 1) := by omega
      rw [ih _ _ (by omega), h1, h2, h3, h4]
      simp [h8, hj, h5]

end Sys2Proof.Machine
end

