-- ==== Sys2Proof/Laws/Bus.lean ====
section
/-! SUPPORT. What the register accesses of the bus do, register by register, and the bits of the
STATUS word. -/

namespace Sys2Proof.Machine

/-- The register found at a register's offset is that register: offsets do not collide
(10_state.md R23). -/
@[simp] theorem Reg.ofOffset_offset (r : Reg) : Reg.ofOffset r.offset = some r := by
  cases r <;> rfl

theorem Reg.offset_lt (r : Reg) : r.offset < 0x1000 ∧ r.offset % 4 = 0 := by
  cases r <;> decide

/-- A 4-byte access at a register's offset reaches it. -/
theorem target_register (a : Access) (r : Reg) (size : Config.DmemSize) :
    (Txn.mk a (BitVec.ofNat 20 r.offset) .four).target size = .register r := by
  have h : (BitVec.ofNat 20 r.offset).toNat = r.offset := by
    have := r.offset_lt
    rw [BitVec.toNat_ofNat]
    omega
  simp [Txn.target, h, r.offset_lt, Config.registerRegion]

/-- `rd NAME` returns the register's value and changes nothing. -/
@[simp] theorem State.busAccess_readReg (s : State) (r : Reg) :
    s.busAccess (.readReg r) = (s, ⟨.ok, some (s.readReg r)⟩) := by
  simp [State.busAccess, Txn.readReg, target_register]

/-- `wr NAME, v` does what a write of the register does. -/
@[simp] theorem State.busAccess_writeReg (s : State) (r : Reg) (v : Word) :
    s.busAccess (.writeReg r v) = (s.writeReg v r, ⟨.ok, none⟩) := by
  simp [State.busAccess, Txn.writeReg, target_register]

/-- A word that holds one bit has it at its place only. -/
theorem getLsbD_bitAt (i j : Nat) (b : Bool) (hi : i < 32) :
    (bitAt i b).getLsbD j = (b && decide (i = j)) := by
  cases b with
  | false => simp [bitAt]
  | true =>
    simp only [bitAt, if_true, BitVec.getLsbD_shiftLeft, BitVec.getLsbD_one]
    by_cases h : i = j
    · subst h; simp [hi]
    · simp [h]; omega

/-- Bit `j` of STATUS (10_state.md R28). -/
theorem State.getLsbD_statusWord (s : State) (j : Nat) :
    s.statusWord.getLsbD j =
      (s.busy && decide (0 = j) || s.done && decide (1 = j) || s.err && decide (2 = j) ||
        s.irq && decide (3 = j) || s.cmdRejected && decide (8 = j) ||
        s.accessWhileBusy && decide (9 = j)) := by
  simp only [State.statusWord, BitVec.getLsbD_or, getLsbD_bitAt _ _ _ (show 0 < 32 by omega),
    getLsbD_bitAt _ _ _ (show 1 < 32 by omega), getLsbD_bitAt _ _ _ (show 2 < 32 by omega),
    getLsbD_bitAt _ _ _ (show 3 < 32 by omega), getLsbD_bitAt _ _ _ (show 8 < 32 by omega),
    getLsbD_bitAt _ _ _ (show 9 < 32 by omega)]

/-- A WAIT reads BUSY. -/
theorem State.readsBusy_eq (s : State) : s.readsBusy = s.busy := by
  rw [State.readsBusy, State.readReg, State.getLsbD_statusWord]
  simp

end Sys2Proof.Machine
end

