-- ==== Sys2Proof/Laws/Regions.lean ====
section
/-! SUPPORT. The region checks of ENCODE and DECODE as facts about naturals and addresses
(20_memory.md R73). -/

namespace Sys2Proof.Machine

theorem State.srcOk_iff (s : State) :
    s.srcOk = true ↔ s.srcAddr.toNat + s.srcLen.toNat ≤ s.dmemSize.val := by
  rw [State.srcOk, decide_eq_true_eq, State.srcEnd]

theorem State.dstOk_iff (s : State) :
    s.dstOk = true ↔ s.dstAddr.toNat + s.dstCap.toNat ≤ s.dmemSize.val := by
  rw [State.dstOk, decide_eq_true_eq, State.dstEnd]

/-- The overlap check is that both regions share a byte. -/
theorem State.overlap_iff (s : State) : s.overlap = true ↔
    ∃ a, s.srcAddr.toNat ≤ a ∧ a < s.srcAddr.toNat + s.srcLen.toNat ∧
      s.dstAddr.toNat ≤ a ∧ a < s.dstAddr.toNat + s.dstCap.toNat := by
  simp only [State.overlap, Bool.and_eq_true, decide_eq_true_eq]
  simp only [State.srcEnd, State.dstEnd]
  constructor
  · rintro ⟨⟨⟨h1, h2⟩, h3⟩, h4⟩
    exact ⟨max s.srcAddr.toNat s.dstAddr.toNat, by omega, by omega, by omega, by omega⟩
  · rintro ⟨a, h1, h2, h3, h4⟩
    omega

/-- The checks pass exactly when the regions are in order. -/
theorem State.regionError_eq_none (s : State) : s.regionError = none ↔ s.RegionsOk := by
  have hs := s.srcOk_iff
  have hd := s.dstOk_iff
  have ho := s.overlap_iff
  constructor
  · intro h
    unfold State.regionError at h
    split at h
    · cases h
    · split at h
      · cases h
      · split at h
        · cases h
        · rename_i h1 h2 h3
          refine ⟨hs.1 (by simpa using h1), hd.1 (by simpa using h2), fun a ha => h3 (ho.2 ⟨a, ?_⟩)⟩
          tauto
  · rintro ⟨h1, h2, h3⟩
    have : ¬s.overlap = true := fun h => by
      obtain ⟨a, ha⟩ := ho.1 h
      exact h3 a (by tauto)
    simp [State.regionError, hs.2 h1, hd.2 h2, this]

/-- A failing check is RANGE_ERROR or OVERLAP_ERROR, with the position 0 or 1. -/
theorem State.regionError_eq_some {s : State} {e : JobError} (h : s.regionError = some e) :
    (e = ⟨.rangeError, 0⟩ ∧ s.dmemSize.val < s.srcAddr.toNat + s.srcLen.toNat) ∨
    (e = ⟨.rangeError, 1⟩ ∧ s.srcAddr.toNat + s.srcLen.toNat ≤ s.dmemSize.val ∧
      s.dmemSize.val < s.dstAddr.toNat + s.dstCap.toNat) ∨
    (e = ⟨.overlapError, 0⟩ ∧ s.srcAddr.toNat + s.srcLen.toNat ≤ s.dmemSize.val ∧
      s.dstAddr.toNat + s.dstCap.toNat ≤ s.dmemSize.val ∧ s.overlap = true) := by
  have hs := s.srcOk_iff
  have hd := s.dstOk_iff
  unfold State.regionError at h
  split at h
  · rename_i h1
    refine .inl ⟨(Option.some.inj h).symm, ?_⟩
    by_contra hc
    simp [hs.2 (by omega)] at h1
  · rename_i h1
    have h1 := hs.1 (by simpa using h1)
    split at h
    · rename_i h2
      refine .inr (.inl ⟨(Option.some.inj h).symm, h1, ?_⟩)
      by_contra hc
      simp [hd.2 (by omega)] at h2
    · rename_i h2
      have h2 := hd.1 (by simpa using h2)
      split at h
      · rename_i h3
        exact .inr (.inr ⟨(Option.some.inj h).symm, h1, h2, h3⟩)
      · cases h

/-- A memory that agrees with the job's DMEM on the source region. -/
def State.AgreesOnSource (s : State) (m : Memory) : Prop :=
  ∀ a, s.srcAddr.toNat ≤ a → a < s.srcAddr.toNat + s.srcLen.toNat → m.read a = s.dmem.read a

theorem State.agreesOnSource_self (s : State) : s.AgreesOnSource s.dmem := fun _ _ _ => rfl

/-- Writing into the destination region leaves the source as it is (20_memory.md R74). -/
theorem State.AgreesOnSource.writeBytes {s : State} {m : Memory} (h : s.AgreesOnSource m)
    (hr : s.RegionsOk) {o : Nat} {vs : List Byte} (ho : o + vs.length ≤ s.dstCap.toNat) :
    s.AgreesOnSource (m.writeBytes (s.dstAddr.toNat + o) vs) := fun a h1 h2 => by
  rw [Memory.read_writeBytes_outside, h a h1 h2]
  have := hr.disjoint a
  omega

theorem State.AgreesOnSource.write {s : State} {m : Memory} (h : s.AgreesOnSource m)
    (hr : s.RegionsOk) {o : Nat} (v : Byte) (ho : o < s.dstCap.toNat) :
    s.AgreesOnSource (m.write (s.dstAddr.toNat + o) v) :=
  State.AgreesOnSource.writeBytes (vs := [v]) h hr (by simpa using ho)

end Sys2Proof.Machine
end

