-- ==== Sys2Proof/Laws/Table.lean ====
section
/-! SUPPORT. The laws of the codebook table and of codewords: reading after writing an entry, the
symbols in order, the codeword layout, and the prefix relation in its two forms. -/

namespace Sys2Proof.Machine

/-! ### Entries -/

@[simp] theorem Table.entry_setEntry_same (T : Table) (x : Byte) (e : Entry) :
    (T.setEntry x e).entry x = e := by simp [Table.entry, Table.setEntry]

theorem Table.entry_setEntry_ne (T : Table) {x y : Byte} (e : Entry) (h : y ≠ x) :
    (T.setEntry x e).entry y = T.entry y := by
  have : x.toNat ≠ y.toNat := fun h' => h (BitVec.eq_of_toNat_eq h'.symm)
  simp [Table.entry, Table.setEntry, Vector.getElem_set_ne _ _ this]

@[simp] theorem Table.entry_replicate (e : Entry) (x : Byte) :
    Table.entry (Vector.replicate Config.nsym e) x = e := by simp [Table.entry]

@[simp] theorem Table.entry_map (T : Table) (f : Entry → Entry) (x : Byte) :
    Table.entry (Vector.map f T) x = f (T.entry x) := by simp [Table.entry]

/-- Two tables with the same entries are equal. -/
theorem Table.ext_entry {T U : Table} (h : ∀ x, T.entry x = U.entry x) : T = U := by
  apply Vector.ext
  intro i hi
  have := h (BitVec.ofNat 8 i)
  have hm : i % 256 = i := Nat.mod_eq_of_lt hi
  simpa [Table.entry, BitVec.toNat_ofNat, hm] using this

@[simp] theorem Entry.invalidate_valid (e : Entry) : e.invalidate.valid = false := rfl

@[simp] theorem Entry.invalidate_wf (e : Entry) : e.invalidate.wf = true := by
  simp [Entry.wf, Entry.invalidate]

theorem Entry.wf_valid {e : Entry} (h : e.wf = true) (hv : e.valid = true) :
    1 ≤ e.length ∧ e.length ≤ 32 ∧ e.bits >>> e.length = 0#32 := by
  simpa [Entry.wf, hv, and_assoc] using h

/-- Bits at and above the length of a valid entry are 0 (10_state.md R40). -/
theorem Entry.getLsbD_of_ge {e : Entry} (h : e.wf = true) (hv : e.valid = true) {j : Nat}
    (hj : e.length ≤ j) : e.bits.getLsbD j = false := by
  have h3 := (Entry.wf_valid h hv).2.2
  have := congrArg (fun v : Word => v.getLsbD (j - e.length)) h3
  simpa [BitVec.getLsbD_ushiftRight, Nat.add_sub_cancel' hj] using this

/-! ### The symbols -/

@[simp] theorem mem_symbols (x : Byte) : x ∈ symbols := by
  refine List.mem_map.2 ⟨x.toNat, List.mem_range.2 x.isLt, ?_⟩
  simp

/-- The symbols stand in rising order. -/
theorem symbols_pairwise : symbols.Pairwise fun x y => x.toNat < y.toNat := by
  rw [symbols, List.pairwise_map]
  refine List.Pairwise.imp_of_mem ?_ List.pairwise_lt_range
  intro a b ha hb hab
  have ha := List.mem_range.1 ha
  have hb := List.mem_range.1 hb
  simp only [Config.nsym] at ha hb
  simp only [BitVec.toNat_ofNat]
  omega

theorem symbols_nodup : symbols.Nodup :=
  symbols_pairwise.imp fun h he => by subst he; exact Nat.lt_irrefl _ h

/-- The first element of a rising list that meets a condition is the least one. -/
theorem find_rising_eq_some {l : List Byte} (hl : l.Pairwise fun x y => x.toNat < y.toNat)
    (p : Byte → Bool) (x : Byte) :
    l.find? p = some x ↔ x ∈ l ∧ p x = true ∧ ∀ y ∈ l, y.toNat < x.toNat → p y = false := by
  induction l with
  | nil => simp
  | cons c rest ih =>
    obtain ⟨hc, hrest⟩ := List.pairwise_cons.1 hl
    by_cases hp : p c = true
    · rw [List.find?_cons_of_pos hp]
      constructor
      · rintro ⟨rfl⟩
        refine ⟨by simp, hp, fun y hy hlt => ?_⟩
        rcases List.mem_cons.1 hy with rfl | hy
        · omega
        · exact absurd (hc y hy) (by omega)
      · rintro ⟨hx, -, hmin⟩
        rcases List.mem_cons.1 hx with rfl | hx
        · rfl
        · exact absurd (hmin c (by simp) (hc x hx)) (by simp [hp])
    · rw [List.find?_cons_of_neg hp, ih hrest]
      have hpf : p c = false := by simpa using hp
      constructor
      · rintro ⟨hx, hpx, hmin⟩
        refine ⟨by simp [hx], hpx, fun y hy hlt => ?_⟩
        rcases List.mem_cons.1 hy with rfl | hy
        · exact hpf
        · exact hmin y hy hlt
      · rintro ⟨hx, hpx, hmin⟩
        rcases List.mem_cons.1 hx with rfl | hx
        · simp [hpf] at hpx
        · exact ⟨hx, hpx, fun y hy hlt => hmin y (by simp [hy]) hlt⟩

/-- The least symbol that meets a condition. -/
theorem find_symbols_eq_some (p : Byte → Bool) (x : Byte) :
    symbols.find? p = some x ↔ p x = true ∧ ∀ y : Byte, y.toNat < x.toNat → p y = false := by
  simp [find_rising_eq_some symbols_pairwise]

theorem find_symbols_eq_none (p : Byte → Bool) : symbols.find? p = none ↔ ∀ x, p x = false := by
  simp [List.find?_eq_none]

/-! ### Codewords -/

@[simp] theorem Entry.length_codeword (e : Entry) : e.codeword.length = e.length := by
  simp [Entry.codeword]

theorem Entry.getElem_codeword (e : Entry) (j : Nat) (h : j < e.codeword.length) :
    e.codeword[j] = e.bits.getLsbD (e.length - 1 - j) := by
  simp [Entry.codeword, Entry.codeBit]

theorem bitChar_injective {a b : Bool} (h : bitChar a = bitChar b) : a = b := by
  revert h; cases a <;> cases b <;> decide

/-- A codeword is a prefix of another in the bit layout exactly when it is one as a list of bits
(41_codebook_table.md R140). -/
theorem Entry.prefixOf_iff {a b : Entry} (ha : a.wf = true) (hb : b.wf = true)
    (hva : a.valid = true) (hvb : b.valid = true) :
    a.prefixOf b = true ↔ a.codeword <+: b.codeword := by
  obtain ⟨ha1, -, -⟩ := Entry.wf_valid ha hva
  simp only [Entry.prefixOf, Bool.and_eq_true, decide_eq_true_eq, beq_iff_eq]
  rw [List.prefix_iff_getElem]
  simp only [Entry.length_codeword, Entry.getElem_codeword]
  refine ⟨fun ⟨hle, he⟩ => ⟨hle, fun j hj => ?_⟩, fun ⟨hle, hall⟩ => ⟨hle, ?_⟩⟩
  · rw [← he, BitVec.getLsbD_ushiftRight]
    congr 1
    omega
  · apply BitVec.eq_of_getLsbD_eq
    intro i _
    rw [BitVec.getLsbD_ushiftRight]
    by_cases hi : i < a.length
    · have := hall (a.length - 1 - i) (by omega)
      rw [show a.length - 1 - (a.length - 1 - i) = i by omega] at this
      rw [this]
      congr 1
      omega
    · rw [Entry.getLsbD_of_ge ha hva (by omega), Entry.getLsbD_of_ge hb hvb (by omega)]

/-! ### Codewords as operands -/

theorem Codeword.value_append (c d : Codeword) :
    Codeword.value (c ++ d) = Codeword.value c * 2 ^ d.length + Codeword.value d := by
  have key : ∀ (d : Codeword) (v : Nat),
      d.foldl (fun v b => 2 * v + b.toNat) v = v * 2 ^ d.length + Codeword.value d := by
    intro d
    induction d with
    | nil => intro v; simp [Codeword.value]
    | cons b d ih =>
      intro v
      simp only [List.foldl_cons, List.length_cons, Codeword.value]
      rw [ih, ih (2 * 0 + b.toNat)]
      ring
  rw [Codeword.value, List.foldl_append, key]
  rfl

theorem Codeword.value_cons (b : Bool) (c : Codeword) :
    Codeword.value (b :: c) = b.toNat * 2 ^ c.length + Codeword.value c := by
  have := Codeword.value_append [b] c
  simpa [Codeword.value] using this

theorem Codeword.value_lt (c : Codeword) : Codeword.value c < 2 ^ c.length := by
  induction c with
  | nil => simp [Codeword.value]
  | cons b c ih =>
    rw [Codeword.value_cons, List.length_cons, Nat.pow_succ]
    cases b <;> simp <;> omega

/-- Bit `n - 1 - j` of a codeword's value is its bit c_j (30_encoding.md R96). -/
theorem Codeword.testBit_value (c : Codeword) (j : Nat) (h : j < c.length) :
    (Codeword.value c).testBit (c.length - 1 - j) = List.get c ⟨j, h⟩ := by
  induction c generalizing j with
  | nil => simp at h
  | cons b c ih =>
    have hv := Codeword.value_lt c
    rw [Codeword.value_cons, Nat.mul_comm]
    cases j with
    | zero =>
      simp only [List.length_cons, Nat.add_sub_cancel, Nat.sub_zero]
      rw [Nat.testBit_two_pow_mul_add _ hv]
      simp
      cases b <;> rfl
    | succ j =>
      simp only [List.length_cons, Nat.add_lt_add_iff_right] at h
      simp only [List.length_cons]
      rw [Nat.testBit_two_pow_mul_add _ hv, show c.length + 1 - 1 - (j + 1) = c.length - 1 - j by omega]
      simp [show c.length - 1 - j < c.length by omega, ih j h]

theorem getLsbD_lowMask (n j : Nat) (hn : n ≤ 32) :
    (lowMask n).getLsbD j = decide (j < n) := by
  rw [lowMask, BitVec.getLsbD_ofNat, Nat.testBit_two_pow_sub_one]
  by_cases hj : j < n
  · simp [hj, show j < 32 by omega]
  · simp [hj]

/-- TBL.WRITE stores an entry of the table's form when it does not refuse the length. -/
theorem Entry.ofOperands_wf (len : BitVec 6) (bits : Word) (h : badLength len = false) :
    (Entry.ofOperands len bits).wf = true := by
  simp only [badLength, Bool.or_eq_false_iff, beq_eq_false_iff_ne,
    decide_eq_false_iff_not] at h
  have hmax : Config.lMax = 32 := rfl
  have h1 : 1 ≤ len.toNat := by omega
  have h2 : len.toNat ≤ 32 := by omega
  have h3 : (bits &&& lowMask len.toNat) >>> len.toNat = 0#32 := by
    apply BitVec.eq_of_getLsbD_eq
    intro i _
    simp [BitVec.getLsbD_ushiftRight, getLsbD_lowMask _ _ h2]
  simp [Entry.wf, Entry.ofOperands, Entry.length, h1, h2, h3]

/-! ### FindConflict -/

theorem Table.conflict_valid {T : Table} {a b : Byte} (h : T.conflict a b = true) :
    a ≠ b ∧ (T.entry a).valid = true ∧ (T.entry b).valid = true ∧
      (T.entry a).prefixOf (T.entry b) = true := by
  simpa [Table.conflict, and_assoc] using h

theorem Table.findConflict_eq_none (T : Table) : T.findConflict = none ↔ T.prefixFree := by
  simp only [Table.findConflict, List.findSome?_eq_none_iff, Table.prefixFree]
  constructor
  · intro h a b
    have := h a (mem_symbols a)
    by_cases hv : (T.entry a).valid = true
    · simp only [hv, if_true, Option.map_eq_none_iff] at this
      exact (find_symbols_eq_none _).1 this b
    · simp [Table.conflict, hv]
  · intro h a _
    split
    · simpa using (find_symbols_eq_none _).2 (h a)
    · rfl

/-- A rising list's first hit of `findSome?` is at its least element with one. -/
theorem findSome_rising_eq_some {β : Type} {l : List Byte}
    (hl : l.Pairwise fun x y => x.toNat < y.toNat) (f : Byte → Option β) (r : β) :
    l.findSome? f = some r ↔
      ∃ x ∈ l, f x = some r ∧ ∀ y ∈ l, y.toNat < x.toNat → f y = none := by
  induction l with
  | nil => simp
  | cons c rest ih =>
    obtain ⟨hc, hrest⟩ := List.pairwise_cons.1 hl
    rw [List.findSome?_cons]
    cases hf : f c with
    | some v =>
      constructor
      · rintro ⟨rfl⟩
        refine ⟨c, by simp, hf, fun y hy hlt => ?_⟩
        rcases List.mem_cons.1 hy with rfl | hy
        · omega
        · exact absurd (hc y hy) (by omega)
      · rintro ⟨x, hx, hfx, hmin⟩
        rcases List.mem_cons.1 hx with rfl | hx
        · simpa [hf] using hfx
        · exact absurd (hmin c (by simp) (hc x hx)) (by simp [hf])
    | none =>
      simp only [ih hrest]
      constructor
      · rintro ⟨x, hx, hfx, hmin⟩
        refine ⟨x, by simp [hx], hfx, fun y hy hlt => ?_⟩
        rcases List.mem_cons.1 hy with rfl | hy
        · exact hf
        · exact hmin y hy hlt
      · rintro ⟨x, hx, hfx, hmin⟩
        rcases List.mem_cons.1 hx with rfl | hx
        · simp [hf] at hfx
        · exact ⟨x, hx, hfx, fun y hy hlt => hmin y (by simp [hy]) hlt⟩

/-- FindConflict returns the pair with the smallest `a`, and for it the smallest `b`
(41_codebook_table.md R148). -/
theorem Table.findConflict_eq_some (T : Table) (a b : Byte) :
    T.findConflict = some (a, b) ↔ T.conflict a b = true ∧
      (∀ b' : Byte, b'.toNat < b.toNat → T.conflict a b' = false) ∧
      ∀ a' : Byte, a'.toNat < a.toNat → ∀ b', T.conflict a' b' = false := by
  simp only [Table.findConflict, findSome_rising_eq_some symbols_pairwise, mem_symbols, true_and,
    true_implies]
  constructor
  · rintro ⟨x, hx, hmin⟩
    split at hx
    · obtain ⟨b', hb', he⟩ := Option.map_eq_some_iff.1 hx
      cases he
      obtain ⟨h1, h2⟩ := (find_symbols_eq_some _ _).1 hb'
      refine ⟨h1, h2, fun a' ha' b' => ?_⟩
      have := hmin a' ha'
      by_cases hv : (T.entry a').valid = true
      · simp only [hv, if_true, Option.map_eq_none_iff] at this
        exact (find_symbols_eq_none _).1 this b'
      · simp [Table.conflict, hv]
    · simp at hx
  · rintro ⟨h1, h2, h3⟩
    refine ⟨a, ?_, fun a' ha' => ?_⟩
    · rw [if_pos (Table.conflict_valid h1).2.1, (find_symbols_eq_some _ b).2 ⟨h1, h2⟩]
      rfl
    · split
      · simpa using (find_symbols_eq_none _).2 (h3 a' ha')
      · rfl

/-- In a prefix-free table two valid symbols, one codeword a prefix of the other, are the same. -/
theorem Table.prefixFree_eq {T : Table} (h : T.prefixFree) {a b : Byte}
    (hva : (T.entry a).valid = true) (hvb : (T.entry b).valid = true)
    (hp : (T.entry a).prefixOf (T.entry b) = true) : a = b := by
  by_contra hne
  have := h a b
  simp [Table.conflict, hva, hvb, hp, hne] at this

/-! ### Codewords of symbol sequences -/

@[simp] theorem Table.codeOf_nil (T : Table) : T.codeOf [] = [] := rfl

@[simp] theorem Table.codeOf_cons (T : Table) (x : Byte) (xs : List Byte) :
    T.codeOf (x :: xs) = (T.entry x).codeword ++ T.codeOf xs := rfl

@[simp] theorem Table.codeOf_append (T : Table) (xs ys : List Byte) :
    T.codeOf (xs ++ ys) = T.codeOf xs ++ T.codeOf ys := by simp [Table.codeOf]

theorem Table.length_codeOf (T : Table) (xs : List Byte) :
    (T.codeOf xs).length = (xs.map fun x => (T.entry x).length).sum := by
  induction xs with
  | nil => rfl
  | cons x xs ih => simp [ih]

@[simp] theorem Table.covers_nil (T : Table) : T.covers [] := by simp [Table.covers]

@[simp] theorem Table.covers_cons (T : Table) (x : Byte) (xs : List Byte) :
    T.covers (x :: xs) ↔ (T.entry x).valid = true ∧ T.covers xs := by simp [Table.covers]

@[simp] theorem Table.covers_append (T : Table) (xs ys : List Byte) :
    T.covers (xs ++ ys) ↔ T.covers xs ∧ T.covers ys := by
  simp only [Table.covers, List.mem_append, or_imp, forall_and]

end Sys2Proof.Machine
end

