-- ==== Sys2Proof/Laws/Decode.lean ====
section
/-! SUPPORT. Matching as a prefix of the remaining source, the loop of DECODE as a function of the
source alone, and what that function answers (43_decode.md R191 to R198). -/

namespace Sys2Proof.Machine

/-! ### Matching -/

/-- The source bytes from cursor `k` on begin with the bit characters of `c`. -/
def State.SourceAt (s : State) (k : Nat) (c : Codeword) : Prop :=
  k + c.length ≤ s.srcLen.toNat ∧
    s.dmem.readBytes (s.srcAddr.toNat + k) c.length = c.map bitChar

theorem State.sourceStartsWith_iff (s : State) (c : Codeword) :
    s.SourceStartsWith c ↔ s.SourceAt 0 c := by
  simp [State.SourceStartsWith, State.SourceAt]

theorem Memory.readBytes_add (m : Memory) (a n k : Nat) :
    m.readBytes a (n + k) = m.readBytes a n ++ m.readBytes (a + n) k := by
  simp only [Memory.readBytes, List.range_add, List.map_append, List.map_map]
  congr 1
  apply List.map_congr_left
  intro j _
  simp [Nat.add_assoc]

theorem append_eq_append_iff_of_length {p q r t : List Byte} (h : p.length = r.length) :
    p ++ q = r ++ t ↔ p = r ∧ q = t :=
  ⟨fun he => List.append_inj he h, fun ⟨h1, h2⟩ => h1 ▸ h2 ▸ rfl⟩

theorem State.sourceAt_append (s : State) (k : Nat) (c d : Codeword) :
    s.SourceAt k (c ++ d) ↔ s.SourceAt k c ∧ s.SourceAt (k + c.length) d := by
  simp only [State.SourceAt, List.length_append, List.map_append, Memory.readBytes_add]
  have hl : (s.dmem.readBytes (s.srcAddr.toNat + k) c.length).length = (c.map bitChar).length := by
    simp
  rw [append_eq_append_iff_of_length hl, show s.srcAddr.toNat + k + c.length =
    s.srcAddr.toNat + (k + c.length) by omega]
  constructor
  · rintro ⟨h1, h2, h3⟩; exact ⟨⟨by omega, h2⟩, by omega, h3⟩
  · rintro ⟨⟨h1, h2⟩, h3, h4⟩; exact ⟨by omega, h2, h4⟩

/-- An entry matches at a cursor exactly when it is valid and its codeword stands there
(43_decode.md R192). -/
theorem State.matchesAt_iff (s : State) (k : Nat) (x : Byte) :
    s.matchesAt s.dmem k x = true ↔
      (s.table.entry x).valid = true ∧ s.SourceAt k (s.table.entry x).codeword := by
  simp only [State.matchesAt, Bool.and_eq_true, decide_eq_true_eq, List.all_eq_true,
    List.mem_range, beq_iff_eq, State.SourceAt, Entry.length_codeword, and_assoc]
  refine and_congr_right fun _ => and_congr_right fun _ => ?_
  simp only [Memory.readBytes, Entry.codeword, List.map_map, List.map_inj_left, List.mem_range,
    Function.comp_apply]

/-- What matches depends on the source bytes only. -/
theorem State.matchesAt_congr {s : State} {m : Memory} (hm : s.AgreesOnSource m) (k : Nat) :
    s.matchesAt m k = s.matchesAt s.dmem k := by
  funext x
  simp only [State.matchesAt]
  by_cases hv : (s.table.entry x).valid = true
  · by_cases hl : k + (s.table.entry x).length ≤ s.srcLen.toNat
    · congr 1
      rw [Bool.eq_iff_iff]
      simp only [List.all_eq_true, List.mem_range]
      constructor <;> intro h j hj
      · rw [← hm (s.srcAddr.toNat + k + j) (by omega) (by omega)]; exact h j hj
      · rw [hm (s.srcAddr.toNat + k + j) (by omega) (by omega)]; exact h j hj
    · simp [hl]
  · simp [hv]

theorem State.matchChoice_congr {s : State} {m : Memory} (hm : s.AgreesOnSource m) (n k : Nat) :
    s.matchChoice m n k = s.matchChoice s.dmem n k := by
  rw [State.matchChoice, State.matchSet, State.matchesAt_congr hm]
  rfl

/-! ### Choosing -/

/-- A choice is made exactly from a set that is not empty. -/
theorem chooseFrom_eq_none (d n : Nat) (l : List Byte) : chooseFrom d n l = none ↔ l = [] := by
  match l with
  | [] => simp [chooseFrom]
  | [x] => simp [chooseFrom]
  | x :: y :: rest => simp [chooseFrom]

/-- The chosen element is one of the set (43_decode.md R195). -/
theorem mem_of_chooseFrom {d n : Nat} {l : List Byte} {x : Byte} (h : chooseFrom d n l = some x) :
    x ∈ l := by
  match l with
  | [] => simp [chooseFrom] at h
  | [y] => simpa [chooseFrom, eq_comm] using h
  | y :: z :: rest =>
    simp only [chooseFrom, Option.some.injEq] at h
    rw [← h]
    exact List.getElem_mem _

theorem State.mem_matchSet {s : State} {m : Memory} {k : Nat} {x : Byte} :
    x ∈ s.matchSet m k ↔ s.matchesAt m k x = true := by simp [State.matchSet]

theorem State.matchChoice_some {s : State} {m : Memory} {n k : Nat} {x : Byte}
    (h : s.matchChoice m n k = some x) : s.matchesAt m k x = true :=
  State.mem_matchSet.1 (mem_of_chooseFrom h)

theorem State.matchChoice_none {s : State} {m : Memory} {n k : Nat} :
    s.matchChoice m n k = none ↔ ∀ x, s.matchesAt m k x = false := by
  rw [State.matchChoice, chooseFrom_eq_none, List.eq_nil_iff_forall_not_mem]
  simp [State.mem_matchSet]

/-- In a prefix-free table at most one entry matches at a cursor (43_decode.md R196). -/
theorem State.matches_unique {s : State} (hw : s.table.wf) (hp : s.table.prefixFree) {k : Nat}
    {x y : Byte} (hx : s.matchesAt s.dmem k x = true) (hy : s.matchesAt s.dmem k y = true) :
    x = y := by
  obtain ⟨hvx, hsx⟩ := (s.matchesAt_iff k x).1 hx
  obtain ⟨hvy, hsy⟩ := (s.matchesAt_iff k y).1 hy
  have key : ∀ a b : Byte, (s.table.entry a).valid = true → (s.table.entry b).valid = true →
      s.SourceAt k (s.table.entry a).codeword → s.SourceAt k (s.table.entry b).codeword →
      (s.table.entry a).length ≤ (s.table.entry b).length → a = b := by
    intro a b hva hvb ha hb hle
    refine Table.prefixFree_eq hp hva hvb
      ((Entry.prefixOf_iff (hw a) (hw b) hva hvb).2 (List.prefix_iff_getElem.2 ⟨by simpa, ?_⟩))
    intro j hj
    have h1 := congrArg (·[j]?) ha.2
    have h2 := congrArg (·[j]?) hb.2
    simp only [Entry.length_codeword] at hj h1 h2
    simp only [Memory.readBytes, List.getElem?_map, List.getElem?_range hj,
      List.getElem?_range (show j < (s.table.entry b).length by omega), Option.map_some] at h1 h2
    rw [List.getElem?_eq_getElem (by simpa)] at h1
    rw [List.getElem?_eq_getElem (by simp; omega)] at h2
    simp only [Option.map_some, Option.some.injEq] at h1 h2
    exact bitChar_injective (h1.symm.trans h2)
  rcases Nat.le_total (s.table.entry x).length (s.table.entry y).length with h | h
  · exact key x y hvx hvy hsx hsy h
  · exact (key y x hvy hvx hsy hsx h).symm

theorem State.matchChoice_unique {s : State} (hw : s.table.wf) (hp : s.table.prefixFree)
    {n k : Nat} {x : Byte} (hx : s.matchesAt s.dmem k x = true) :
    s.matchChoice s.dmem n k = some x := by
  cases h : s.matchChoice s.dmem n k with
  | none => simp [State.matchChoice_none.1 h x] at hx
  | some y => rw [State.matches_unique hw hp hx (State.matchChoice_some h)]

/-! ### The loop -/

/-- The symbols DECODE emits from cursor `k` on, `n` of them emitted before and room for `room`
more; or the first error. -/
def State.decodeList (s : State) : (room n k : Nat) → Except JobError (List Byte)
  | room, n, k =>
    if s.srcLen.toNat ≤ k then .ok []
    else
      match s.matchChoice s.dmem n k with
      | none => .error ⟨.decodeError, k⟩
      | some x =>
        match room with
        | 0 => .error ⟨.outputOverflow, k⟩
        | room' + 1 =>
          match s.decodeList room' (n + 1) (k + (s.table.entry x).length) with
          | .error e => .error e
          | .ok ys => .ok (x :: ys)

/-- The loop of DECODE is `decodeList`, its symbols written from the current output position on. -/
theorem State.decodeLoop_eq {s : State} (hr : s.RegionsOk) (room n k : Nat) (m : Memory)
    (hm : s.AgreesOnSource m) (hn : n + room = s.dstCap.toNat) :
    s.decodeLoop room n k m =
      match s.decodeList room n k with
      | .error e => .error e
      | .ok ys => .ok (m.writeBytes (s.dstAddr.toNat + n) ys, n + ys.length) := by
  induction room generalizing n k m with
  | zero =>
    rw [State.decodeLoop, State.decodeList, State.matchChoice_congr hm]
    by_cases hk : s.srcLen.toNat ≤ k
    · simp [hk, Memory.writeBytes]
    · cases hx : s.matchChoice s.dmem n k <;> simp [hk]
  | succ room ih =>
    rw [State.decodeLoop, State.decodeList, State.matchChoice_congr hm]
    by_cases hk : s.srcLen.toNat ≤ k
    · simp [hk, Memory.writeBytes]
    · cases hx : s.matchChoice s.dmem n k with
      | none => simp [hk]
      | some x =>
        simp only [hk, if_false]
        rw [ih _ _ _ (hm.write hr x (by omega)) (by omega)]
        cases s.decodeList room (n + 1) (k + (s.table.entry x).length) with
        | error e => rfl
        | ok ys =>
          simp only [Memory.writeBytes, List.length_cons, Except.ok.injEq, Prod.mk.injEq]
          exact ⟨by rw [Nat.add_assoc], by omega⟩

/-- The symbols of a successful DECODE: each has an entry, they fit, and their codewords are the
rest of the source (43_decode.md R193). -/
theorem State.decodeList_ok {s : State} {room n k : Nat} {ys : List Byte}
    (hk : k ≤ s.srcLen.toNat) (h : s.decodeList room n k = .ok ys) :
    s.table.covers ys ∧ ys.length ≤ room ∧ k + (s.table.codeOf ys).length = s.srcLen.toNat ∧
      s.SourceAt k (s.table.codeOf ys) := by
  induction room generalizing n k ys with
  | zero =>
    rw [State.decodeList] at h
    split at h
    · cases h
      refine ⟨by simp, by simp, by simp; omega, by simp; omega, rfl⟩
    · split at h <;> cases h
  | succ room ih =>
    rw [State.decodeList] at h
    split at h
    · cases h
      refine ⟨by simp, by simp, by simp; omega, by simp; omega, rfl⟩
    · split at h
      · cases h
      · rename_i x hx
        obtain ⟨hv, hs⟩ := (s.matchesAt_iff k x).1 (State.matchChoice_some hx)
        have hle := hs.1
        dsimp only at h
        split at h
        · cases h
        · rename_i zs he
          cases h
          rw [Entry.length_codeword] at hle
          obtain ⟨h1, h2, h3, h4⟩ := ih hle he
          refine ⟨by simp [hv, h1], by simpa, by simp; omega, ?_⟩
          rw [Table.codeOf_cons, State.sourceAt_append, Entry.length_codeword]
          exact ⟨hs, h4⟩

/-- An error of the loop is DECODE_ERROR or OUTPUT_OVERFLOW at a cursor inside the source. -/
theorem State.decodeList_error_code {s : State} {room n k : Nat} {e : JobError}
    (h : s.decodeList room n k = .error e) :
    (e.code = .decodeError ∨ e.code = .outputOverflow) ∧ e.pos < s.srcLen.toNat := by
  induction room generalizing n k with
  | zero =>
    rw [State.decodeList] at h
    split at h
    · cases h
    · split at h <;> cases h <;> simp <;> omega
  | succ room ih =>
    rw [State.decodeList] at h
    split at h
    · cases h
    · split at h
      · cases h; simp; omega
      · dsimp only at h
        split at h
        · rename_i e' he; cases h; exact ih he
        · cases h

/-- With a prefix-free table, DECODE of a source that begins with the codewords of `ys` emits `ys`
and goes on behind them. -/
theorem State.decodeList_prefixFree {s : State} (hw : s.table.wf) (hp : s.table.prefixFree)
    {ys : List Byte} {room n k : Nat} (hc : s.table.covers ys) (hlen : ys.length ≤ room)
    (hs : s.SourceAt k (s.table.codeOf ys)) :
    s.decodeList room n k =
      match s.decodeList (room - ys.length) (n + ys.length)
        (k + (s.table.codeOf ys).length) with
      | .error e => .error e
      | .ok zs => .ok (ys ++ zs) := by
  induction ys generalizing room n k with
  | nil =>
    simp only [List.length_nil, Nat.sub_zero, Nat.add_zero, Table.codeOf_nil, List.nil_append]
    split <;> simp_all
  | cons y ys ih =>
    obtain ⟨hy, hc⟩ := (s.table.covers_cons y ys).1 hc
    rw [Table.codeOf_cons, State.sourceAt_append] at hs
    obtain ⟨hs1, hs2⟩ := hs
    rw [Entry.length_codeword] at hs2
    obtain ⟨room, rfl⟩ : ∃ r, room = r + 1 := ⟨room - 1, by simp at hlen; omega⟩
    have hlen : ys.length ≤ room := by simpa using hlen
    have hpos := (Entry.wf_valid (hw y) hy).1
    have hk := hs1.1
    rw [Entry.length_codeword] at hk
    have hx : s.matchChoice s.dmem n k = some y :=
      State.matchChoice_unique hw hp ((s.matchesAt_iff k y).2 ⟨hy, hs1⟩)
    rw [State.decodeList, if_neg (by omega), hx]
    dsimp only
    rw [ih hc hlen hs2]
    simp only [List.length_cons, Table.codeOf_cons, List.length_append, Entry.length_codeword,
      Nat.add_sub_add_right, List.cons_append]
    rw [show n + (ys.length + 1) = n + 1 + ys.length by omega,
      show k + ((s.table.entry y).length + (s.table.codeOf ys).length) =
        k + (s.table.entry y).length + (s.table.codeOf ys).length by omega]
    split <;> rename_i he <;> split at he <;> simp_all

/-- What DECODE does once its checks pass. -/
theorem execDecode_eq {s : State} {v : Bool} (hr : s.RegionsOk)
    (hv : v = true → s.table.prefixFree) :
    execDecode v s =
      match s.decodeList s.dstCap.toNat 0 0 with
      | .error e => .next (s.raise e)
      | .ok ys => .next ({ s with
          dmem := s.dmem.writeBytes s.dstAddr.toNat ys }.complete .none 0 ys.length) := by
  have hcheck : s.decodeCheck v = none := by
    rw [State.decodeCheck, (s.regionError_eq_none).2 hr]
    cases v with
    | false => rfl
    | true => simp [State.validationError, (Table.findConflict_eq_none _).2 (hv rfl)]
  rw [execDecode, hcheck]
  dsimp only
  rw [State.decodeLoop_eq hr _ 0 0 _ s.agreesOnSource_self (by simp)]
  simp only [Nat.add_zero, Nat.zero_add]
  split <;> rename_i h <;> split at h <;> simp_all

end Sys2Proof.Machine
end

