-- ==== Sys2Proof/Laws/Encode.lean ====
section
/-! SUPPORT. EncodeLoop as a function of the source symbols alone, and what that function answers
(42_encode.md R171 to R176). -/

namespace Sys2Proof.Machine

/-- The bits EncodeLoop appends for the symbols `xs`, the first of them source index `i`, when `o`
bit characters stand already in a destination of `cap` bytes; or the first error. -/
def Table.encodeList (T : Table) (cap : Nat) : List Byte → (i o : Nat) → Except JobError Codeword
  | [], _, _ => .ok []
  | x :: xs, i, o =>
    if (T.entry x).valid = false then .error ⟨.lookupError, i⟩
    else if cap < o + (T.entry x).length then .error ⟨.outputOverflow, i⟩
    else
      match T.encodeList cap xs (i + 1) (o + (T.entry x).length) with
      | .error e => .error e
      | .ok bits => .ok ((T.entry x).codeword ++ bits)

/-- Success is exactly that every symbol has an entry and the codewords fit, and then the bits are
the codewords in order (42_encode.md R172). -/
theorem Table.encodeList_ok {T : Table} {cap : Nat} {xs : List Byte} {i o : Nat} (ho : o ≤ cap)
    (c : Codeword) : T.encodeList cap xs i o = .ok c ↔
      T.covers xs ∧ o + (T.codeOf xs).length ≤ cap ∧ c = T.codeOf xs := by
  induction xs generalizing i o c with
  | nil => simp [Table.encodeList, ho, eq_comm]
  | cons x xs ih =>
    unfold Table.encodeList
    split
    · rename_i hv; simp [hv]
    · rename_i hv
      have hv : (T.entry x).valid = true := by simpa using hv
      split
      · rename_i hlen
        simp only [reduceCtorEq, Table.codeOf_cons, List.length_append, Entry.length_codeword,
          false_iff, not_and]
        intro _ h
        omega
      · rename_i hlen
        have ih := fun bits => ih (i := i + 1) (o := o + (T.entry x).length) (by omega) bits
        split
        · rename_i e he
          simp only [reduceCtorEq, Table.covers_cons, hv, true_and, Table.codeOf_cons,
            List.length_append, Entry.length_codeword, false_iff, not_and]
          intro hc hl
          have := (ih _).2 ⟨hc, by omega, rfl⟩
          simp [he] at this
        · rename_i bits he
          obtain ⟨h1, h2, rfl⟩ := (ih _).1 he
          simp only [Except.ok.injEq, Table.covers_cons, hv, h1, true_and, Table.codeOf_cons,
            List.length_append, Entry.length_codeword]
          constructor
          · rintro rfl; exact ⟨by omega, rfl⟩
          · rintro ⟨-, rfl⟩; rfl

/-- The first symbol that has no entry, or whose codeword does not fit, decides the error and its
position; the lookup comes first (42_encode.md R171). -/
theorem Table.encodeList_error {T : Table} {cap : Nat} {pre : List Byte} {x : Byte}
    {post : List Byte} {i o : Nat} (hpre : T.covers pre)
    (hfit : o + (T.codeOf pre).length ≤ cap) :
    ((T.entry x).valid = false →
      T.encodeList cap (pre ++ x :: post) i o = .error ⟨.lookupError, i + pre.length⟩) ∧
    ((T.entry x).valid = true → cap < o + (T.codeOf pre).length + (T.entry x).length →
      T.encodeList cap (pre ++ x :: post) i o = .error ⟨.outputOverflow, i + pre.length⟩) := by
  induction pre generalizing i o with
  | nil =>
    refine ⟨fun hv => by simp [Table.encodeList, hv], fun hv hl => ?_⟩
    have hl : cap < o + (T.entry x).length := by simpa using hl
    simp [Table.encodeList, hv, hl]
  | cons y pre ih =>
    obtain ⟨hy, hpre⟩ := (T.covers_cons y pre).1 hpre
    simp only [Table.codeOf_cons, List.length_append, Entry.length_codeword] at hfit ⊢
    have hle : ¬cap < o + (T.entry y).length := by omega
    obtain ⟨ih1, ih2⟩ := ih (i := i + 1) (o := o + (T.entry y).length) hpre (by omega)
    refine ⟨fun hv => ?_, fun hv hl => ?_⟩
    · simp [Table.encodeList, hy, hle, ih1 hv, Nat.add_assoc, Nat.add_comm 1]
    · have := ih2 hv (by omega)
      simp [Table.encodeList, hy, hle, this, Nat.add_assoc, Nat.add_comm 1]

/-- An error is LOOKUP_ERROR or OUTPUT_OVERFLOW at an index of the symbols. -/
theorem Table.encodeList_error_code {T : Table} {cap : Nat} {xs : List Byte} {i o : Nat}
    {e : JobError} (h : T.encodeList cap xs i o = .error e) :
    (e.code = .lookupError ∨ e.code = .outputOverflow) ∧ e.pos < i + xs.length := by
  induction xs generalizing i o with
  | nil => simp [Table.encodeList] at h
  | cons x xs ih =>
    unfold Table.encodeList at h
    split at h
    · cases h; simp
    · split at h
      · cases h; simp
      · split at h
        · rename_i e' he
          cases h
          obtain ⟨h1, h2⟩ := ih he
          refine ⟨h1, ?_⟩
          simp only [List.length_cons]
          omega
        · cases h

/-- EncodeLoop is `encodeList` of the source symbols, its bits written from the current output
position on. -/
theorem State.encodeLoop_eq {s : State} (hr : s.RegionsOk) (n i o : Nat) (m : Memory)
    (hm : s.AgreesOnSource m) (hn : i + n = s.srcLen.toNat) (ho : o ≤ s.dstCap.toNat) :
    s.encodeLoop n i o m =
      match s.table.encodeList s.dstCap.toNat
        (s.dmem.readBytes (s.srcAddr.toNat + i) n) i o with
      | .error e => .error e
      | .ok bits => .ok (m.writeBytes (s.dstAddr.toNat + o) (bits.map bitChar), o + bits.length) := by
  induction n generalizing i o m with
  | zero => simp [State.encodeLoop, Memory.readBytes, Table.encodeList, Memory.writeBytes]
  | succ n ih =>
    have hread : m.read (s.srcAddr.toNat + i) = s.dmem.read (s.srcAddr.toNat + i) :=
      hm _ (by omega) (by omega)
    have hlist : s.dmem.readBytes (s.srcAddr.toNat + i) (n + 1) =
        s.dmem.read (s.srcAddr.toNat + i) ::
          s.dmem.readBytes (s.srcAddr.toNat + (i + 1)) n := by
      simp only [Memory.readBytes, List.range_succ_eq_map, List.map_cons, List.map_map,
        Nat.add_zero]
      congr 1
      apply List.map_congr_left
      intro j _
      simp only [Function.comp_apply]
      congr 1
      omega
    rw [hlist, State.encodeLoop, Table.encodeList, hread]
    split
    · rfl
    · split
      · rfl
      · rename_i hlen
        rw [ih _ _ _ (hm.writeBytes hr (by simp; omega)) (by omega) (by omega)]
        split
        · rfl
        · rename_i bits he
          simp only [List.map_append, Memory.writeBytes_append, List.length_map,
            Entry.length_codeword, List.length_append, Except.ok.injEq, Prod.mk.injEq]
          refine ⟨?_, by omega⟩
          congr 1
          omega

/-- What ENCODE does when its regions pass the checks. -/
theorem execEncode_eq {s : State} (hr : s.RegionsOk) :
    execEncode s =
      match s.table.encodeList s.dstCap.toNat s.sourceBytes 0 0 with
      | .error e => .next (s.raise e)
      | .ok bits => .next ({ s with
          dmem := s.dmem.writeBytes s.dstAddr.toNat (bits.map bitChar) }.complete .none 0
            bits.length) := by
  rw [execEncode, (s.regionError_eq_none).2 hr]
  dsimp only
  rw [State.encodeLoop_eq hr _ 0 0 _ s.agreesOnSource_self (by simp) (by simp)]
  simp only [Nat.add_zero, Nat.zero_add, State.sourceBytes]
  split <;> rename_i h <;> split at h <;> simp_all

end Sys2Proof.Machine
end

