-- ==== Sys2Proof/Laws/PerInstr.lean ====
section
/-! SUPPORT. One lemma per command: the word of the command lies in the row of the opcode map that
carries its mnemonic (30_encoding.md R93). -/

namespace Sys2Proof.Laws.EncodesInRow

/-- The encoder's word of `i` matches the row of the opcode map with the mnemonic of `i`. -/
def Statement (i : Instr) : Prop :=
  ∃ r ∈ opcodeMap, r.mnemonic = i.mnemonic ∧ r.matchesWord (encode i) = true

theorem nop : Statement .nop :=
  ⟨⟨"NOP", 0x00000000#32, 0xFFFFFFFF#32⟩, by decide, rfl, by decide⟩

theorem tblClear : Statement .tblClear :=
  ⟨⟨"TBL.CLEAR", 0x01000000#32, 0xFFFFFFFF#32⟩, by decide, rfl, by decide⟩

/-- A command word with any symbol in its low byte matches the row that masks that byte out. -/
theorem symWord_matches (opc sym : Byte) :
    commandWord opc 0x00 sym &&& 0xFFFFFF00#32 = commandWord opc 0x00 0x00 := by
  apply BitVec.eq_of_getLsbD_eq
  intro j hj
  simp only [commandWord, BitVec.getLsbD_and, BitVec.getLsbD_append]
  by_cases h : j < 8
  · have hm : (0xFFFFFF00#32).getLsbD j = false := by interval_cases j <;> rfl
    simp [h, hm]
  · have hm : (0xFFFFFF00#32).getLsbD j = true := by interval_cases j <;> first | omega | rfl
    simp [h, hm]

theorem tblWrite (sym : Byte) : Statement (.tblWrite sym) :=
  ⟨⟨"TBL.WRITE", 0x02000000#32, 0xFFFFFF00#32⟩, by decide, rfl,
    beq_iff_eq.2 (symWord_matches 0x02 sym)⟩

theorem tblInval (sym : Byte) : Statement (.tblInval sym) :=
  ⟨⟨"TBL.INVAL", 0x03000000#32, 0xFFFFFF00#32⟩, by decide, rfl,
    beq_iff_eq.2 (symWord_matches 0x03 sym)⟩

theorem tblRead (sym : Byte) : Statement (.tblRead sym) :=
  ⟨⟨"TBL.READ", 0x04000000#32, 0xFFFFFF00#32⟩, by decide, rfl,
    beq_iff_eq.2 (symWord_matches 0x04 sym)⟩

theorem tblCheck : Statement .tblCheck :=
  ⟨⟨"TBL.CHECK", 0x05000000#32, 0xFFFFFFFF#32⟩, by decide, rfl, by decide⟩

theorem encode : Statement .encode :=
  ⟨⟨"ENCODE", 0x10000000#32, 0xFFFFFFFF#32⟩, by decide, rfl, by decide⟩

theorem decode (v : Bool) : Statement (.decode v) :=
  ⟨⟨"DECODE", 0x11000000#32, 0xFFFFFEFF#32⟩, by decide, rfl, by cases v <;> decide⟩

end Sys2Proof.Laws.EncodesInRow
end

