-- ==== Sys2Proof/Laws/Step.lean ====
section
/-! SUPPORT. What a command, a bus transaction and a step can do, each said once. -/

namespace Sys2Proof.Machine

/-! ### Commands -/

/-- A command ends in one of two ways: it raises an error, or it succeeds with new values of
TBL_LEN, TBL_BITS, the table, DMEM and OUT_LEN only. -/
theorem exec_shape (i : Instr) (s : State) :
    (∃ e, e.code ≠ .none ∧ exec i s = .next (s.raise e)) ∨
    ∃ len bits T m out, exec i s =
      .next ({ s with tblLen := len, tblBits := bits, table := T, dmem := m }.complete .none 0 out) := by
  cases i with
  | nop => exact .inr ⟨_, _, _, _, _, rfl⟩
  | tblClear => exact .inr ⟨_, _, _, _, _, rfl⟩
  | tblWrite sym =>
    simp only [exec, execTblWrite]
    split
    · exact .inl ⟨_, by simp, rfl⟩
    · exact .inr ⟨_, _, _, _, _, rfl⟩
  | tblInval sym => exact .inr ⟨_, _, _, _, _, rfl⟩
  | tblRead sym =>
    simp only [exec, execTblRead]
    split <;> exact .inr ⟨_, _, _, _, _, rfl⟩
  | tblCheck =>
    simp only [exec, execTblCheck]
    split
    · rename_i e he
      obtain ⟨p, -, rfl⟩ := Option.map_eq_some_iff.1 he
      exact .inl ⟨_, by simp, rfl⟩
    · exact .inr ⟨_, _, _, _, _, rfl⟩
  | encode =>
    simp only [exec]
    cases he : s.regionError with
    | some e =>
      refine .inl ⟨e, ?_, by simp [execEncode, he]⟩
      rcases State.regionError_eq_some he with h | h | h <;> simp [h.1]
    | none =>
      rw [execEncode_eq ((s.regionError_eq_none).1 he)]
      split
      · rename_i e hl
        rcases (Table.encodeList_error_code hl).1 with h | h <;>
          exact .inl ⟨e, by simp [h], rfl⟩
      · exact .inr ⟨_, _, _, _, _, rfl⟩
  | decode v =>
    simp only [exec]
    cases hc : s.decodeCheck v with
    | some e =>
      refine .inl ⟨e, ?_, by simp [execDecode, hc]⟩
      simp only [State.decodeCheck] at hc
      split at hc
      · rename_i e' he
        cases hc
        rcases State.regionError_eq_some he with h | h | h <;> simp [h.1]
      · split at hc
        · obtain ⟨p, -, rfl⟩ := Option.map_eq_some_iff.1 hc
          simp
        · cases hc
    | none =>
      simp only [execDecode, hc]
      have hr : s.regionError = none := by
        cases h : s.regionError with
        | none => rfl
        | some e => simp [State.decodeCheck, h] at hc
      rw [State.decodeLoop_eq ((s.regionError_eq_none).1 hr) _ 0 0 _ s.agreesOnSource_self
        (by simp)]
      cases hl : s.decodeList s.dstCap.toNat 0 0 with
      | error e =>
        rcases (State.decodeList_error_code hl).1 with h | h <;>
          exact .inl ⟨e, by simp [h], rfl⟩
      | ok ys => exact .inr ⟨_, _, _, _, _, rfl⟩

/-! ### The bus -/

/-- A DMEM access reaches an aligned address inside DMEM (20_memory.md R62, R64). -/
theorem Txn.target_eq_dmem {t : Txn} {size : Config.DmemSize} {a : Nat}
    (h : t.target size = .dmem a) : 0x80000 ≤ t.off.toNat ∧ a = t.off.toNat - 0x80000 ∧
      a % t.size.bytes = 0 ∧ a + t.size.bytes ≤ size.val := by
  unfold Txn.target at h
  split at h
  · split at h
    · split at h <;> simp only [reduceCtorEq] at h
    · simp only [reduceCtorEq] at h
  · split at h
    · simp only [reduceCtorEq] at h
    · split at h
      · rename_i h1 h2
        simp only [Target.dmem.injEq] at h
        subst h
        exact ⟨Nat.le_of_not_lt ‹¬t.off.toNat < Config.dmemBase›, rfl, h2⟩
      · simp only [reduceCtorEq] at h

/-- A transaction does one of these to the block: nothing; a write of CTRL or STATUS; the submission
of a word; the flag of a blocked access while BUSY; or, while idle, a write of one operand register
or of bytes inside DMEM. -/
theorem busAccess_cases (s : State) (t : Txn) :
    (s.busAccess t).1 = s ∨
    (∃ v, (s.busAccess t).1 = s.writeCtrl v) ∨
    (∃ v, (s.busAccess t).1 = s.writeStatus v) ∨
    (∃ w, (s.busAccess t).1 = s.submit w) ∨
    (s.busy = true ∧ (s.busAccess t).1 = s.blocked) ∨
    (s.busy = false ∧ ∃ a b c d l x, (s.busAccess t).1 =
      { s with srcAddr := a, srcLen := b, dstAddr := c, dstCap := d, tblLen := l, tblBits := x }) ∨
    (s.busy = false ∧ ∃ a n v, a + n ≤ s.dmemSize.val ∧
      (s.busAccess t).1 = { s with dmem := s.dmem.writeLE a n v }) := by
  have op : ∀ s' : State, (∃ a b c d l x, s' = { s with
      srcAddr := a, srcLen := b, dstAddr := c, dstCap := d, tblLen := l, tblBits := x }) →
      (s.busy = true ∧ s.writeOperand s' = s.blocked) ∨
      (s.busy = false ∧ ∃ a b c d l x, s.writeOperand s' = { s with
        srcAddr := a, srcLen := b, dstAddr := c, dstCap := d, tblLen := l, tblBits := x }) := by
    intro s' h
    cases hb : s.busy with
    | true => exact .inl ⟨rfl, by simp [State.writeOperand, hb]⟩
    | false => exact .inr ⟨rfl, by simpa [State.writeOperand, hb] using h⟩
  simp only [State.busAccess]
  split
  · exact .inl rfl
  · exact .inl rfl
  · rename_i r _
    split
    · exact .inl rfl
    · rename_i v _
      cases r with
      | ctrl => exact .inr (.inl ⟨v, rfl⟩)
      | status => exact .inr (.inr (.inl ⟨v, rfl⟩))
      | cmd => exact .inr (.inr (.inr (.inl ⟨v, rfl⟩)))
      | id => exact .inl rfl
      | param => exact .inl rfl
      | dmemSize => exact .inl rfl
      | errCode => exact .inl rfl
      | errPos => exact .inl rfl
      | outLen => exact .inl rfl
      | srcAddr =>
        rcases op { s with srcAddr := v } ⟨_, _, _, _, _, _, rfl⟩ with h | h
        · exact .inr (.inr (.inr (.inr (.inl h))))
        · exact .inr (.inr (.inr (.inr (.inr (.inl h)))))
      | srcLen =>
        rcases op { s with srcLen := v } ⟨_, _, _, _, _, _, rfl⟩ with h | h
        · exact .inr (.inr (.inr (.inr (.inl h))))
        · exact .inr (.inr (.inr (.inr (.inr (.inl h)))))
      | dstAddr =>
        rcases op { s with dstAddr := v } ⟨_, _, _, _, _, _, rfl⟩ with h | h
        · exact .inr (.inr (.inr (.inr (.inl h))))
        · exact .inr (.inr (.inr (.inr (.inr (.inl h)))))
      | dstCap =>
        rcases op { s with dstCap := v } ⟨_, _, _, _, _, _, rfl⟩ with h | h
        · exact .inr (.inr (.inr (.inr (.inl h))))
        · exact .inr (.inr (.inr (.inr (.inr (.inl h)))))
      | tblLen =>
        rcases op { s with tblLen := v.setWidth 6 } ⟨_, _, _, _, _, _, rfl⟩ with h | h
        · exact .inr (.inr (.inr (.inr (.inl h))))
        · exact .inr (.inr (.inr (.inr (.inr (.inl h)))))
      | tblBits =>
        rcases op { s with tblBits := v } ⟨_, _, _, _, _, _, rfl⟩ with h | h
        · exact .inr (.inr (.inr (.inr (.inl h))))
        · exact .inr (.inr (.inr (.inr (.inr (.inl h)))))
  · rename_i a ht
    have ha := (Txn.target_eq_dmem ht).2.2.2
    simp only [State.accessDmem]
    split
    · rename_i hb
      exact .inr (.inr (.inr (.inr (.inl ⟨hb, rfl⟩))))
    · rename_i hb
      split
      · exact .inl rfl
      · rename_i v _
        exact .inr (.inr (.inr (.inr (.inr (.inr ⟨by simpa using hb, a, _, v, ha, rfl⟩)))))

/-! ### Steps -/

/-- A step is one of these, and never a fault or a refusal: nothing but the passing of a turn; a
command's completion; an illegal word's completion; a transaction, with what is left to do; or a
reset. -/
theorem step_cases (s : State) :
    step s = .next s.afterTurn ∨
    (∃ w i, s.mover = .engine ∧ s.job = .pending w ∧ decodeWord w = .ok i ∧
      step s = exec i s.afterTurn) ∨
    (∃ w e, s.mover = .engine ∧ s.job = .pending w ∧ decodeWord w = .error e ∧
      step s = .next (s.afterTurn.raise ⟨.illegalCmd, 0⟩)) ∨
    (∃ t rest, s.mover = .host ∧ s.stimuli ≠ [] ∧
      step s = .next ({ s.afterTurn with stimuli := rest }.transact t)) ∨
    (∃ rest, s.mover = .host ∧ s.stimuli = .reset :: rest ∧
      step s = .next { s.afterTurn with stimuli := rest }.resetBlock) := by
  unfold step
  split
  · rename_i hm
    simp only [engineStep, State.afterTurn_job]
    split
    · exact .inl rfl
    · rename_i w hj
      simp only [completeWord]
      split
      · rename_i i hi; exact .inr (.inl ⟨w, i, hm, hj, hi, rfl⟩)
      · rename_i e he; exact .inr (.inr (.inl ⟨w, e, hm, hj, he, rfl⟩))
  · rename_i hm
    simp only [hostStep, State.afterTurn_stimuli]
    split
    · exact .inl rfl
    · rename_i t rest hs
      exact .inr (.inr (.inr (.inl ⟨t, rest, hm, by simp [hs], rfl⟩)))
    · rename_i rest hs
      exact .inr (.inr (.inr (.inl ⟨_, _, hm, by simp [hs], rfl⟩)))
    · rename_i rest hs
      exact .inr (.inr (.inr (.inr ⟨rest, hm, hs, rfl⟩)))

/-- Every step answers a next state. -/
theorem step_next (s : State) : ∃ t, step s = .next t := by
  rcases step_cases s with h | ⟨w, i, -, -, -, h⟩ | ⟨w, e, -, -, -, h⟩ | ⟨_, _, -, -, h⟩ |
    ⟨_, -, -, h⟩
  · exact ⟨_, h⟩
  · rcases exec_shape i s.afterTurn with ⟨e, -, he⟩ | ⟨_, _, _, _, _, he⟩ <;>
      exact ⟨_, h.trans he⟩
  all_goals exact ⟨_, h⟩

/-- A run of `k + 1` steps is a step and a run of `k` steps. -/
theorem run_succ {s t : State} (k : Nat) (h : step s = .next t) :
    Sys2Proof.core.run (k + 1) s = Sys2Proof.core.run k t := by
  simp only [Host.Core.run, show Sys2Proof.core.step s = .next t from h]

end Sys2Proof.Machine
end

