-- ==== Sys2Proof/Tests/Slice0.lean ====
section
/-! SUPPORT. The model's own tests: ill-formed terms that the checks refuse, words written out from
30_encoding.md R93, one step on a small state for each command with the result that
95_test_vectors.md gives, and for each statement a state and operands that meet its hypotheses. -/

namespace Sys2Proof.Tests

open Sys2Proof Sys2Proof.Machine

-- one theorem after the other: each kernel evaluation would wait on the others in a thread of its own
set_option Elab.async false

/-! ### Well-formedness -/

theorem test_codeword_refuses_empty : Codeword.wellFormed [] = false := by decide
theorem test_codeword_refuses_33_bits : Codeword.wellFormed (List.replicate 33 true) = false := by
  decide
theorem test_codeword_admits_1_and_32_bits :
    (Codeword.wellFormed [true] && Codeword.wellFormed (List.replicate 32 true)) = true := by decide
theorem test_tblLoad_refuses_empty : (Line.tblLoad 0x61#8 []).wellFormed = false := by decide
theorem test_wrb_refuses_beyond_window : (Line.wrb 0x7FFFF [0#8, 0#8]).wellFormed = false := by decide
theorem test_rdb_refuses_beyond_window : (Line.rdb 0x80000 1).wellFormed = false := by decide
theorem test_command_is_wellFormed : (Instr.tblWrite 0xFF#8).wellFormed = true := by decide

/-! ### Decoding (30_encoding.md R93): OPC, RSV, FLAGS, SYM, each field written in binary -/

theorem test_decode_nop :
    decodeWord 0b00000000_00000000_00000000_00000000#32 = .ok .nop := by decide
theorem test_decode_tblClear :
    decodeWord 0b00000001_00000000_00000000_00000000#32 = .ok .tblClear := by decide
theorem test_decode_tblWrite :
    decodeWord 0b00000010_00000000_00000000_01100001#32 = .ok (.tblWrite 0x61#8) := by decide
theorem test_decode_tblInval :
    decodeWord 0b00000011_00000000_00000000_11111111#32 = .ok (.tblInval 0xFF#8) := by decide
theorem test_decode_tblRead :
    decodeWord 0b00000100_00000000_00000000_10000000#32 = .ok (.tblRead 0x80#8) := by decide
theorem test_decode_tblCheck :
    decodeWord 0b00000101_00000000_00000000_00000000#32 = .ok .tblCheck := by decide
theorem test_decode_encode :
    decodeWord 0b00010000_00000000_00000000_00000000#32 = .ok .encode := by decide
theorem test_decode_decode :
    decodeWord 0b00010001_00000000_00000000_00000000#32 = .ok (.decode false) := by decide
theorem test_decode_decodeV :
    decodeWord 0b00010001_00000000_00000001_00000000#32 = .ok (.decode true) := by decide
theorem test_decode_refuses_opcode :
    decodeWord 0b00010010_00000000_00000000_00000000#32 = .error (.unassignedOpcode 0x12#8) := by
  decide
theorem test_decode_refuses_rsv :
    decodeWord 0b00000010_10000000_00000000_01100001#32 = .error (.reservedField 0x80#8) := by
  decide
theorem test_decode_refuses_flags :
    decodeWord 0b00010001_00000000_00000011_00000000#32 = .error (.undefinedFlags 0x03#8) := by
  decide
theorem test_decode_refuses_symbol :
    decodeWord 0b00010000_00000000_00000000_00000001#32 = .error (.unusedSymbol 0x01#8) := by decide
theorem test_decodeTableWord : decodeTableWord 32 0x11000100 = some (.decode true) := by decide

/-! ### Small states -/

/-- A table that holds these codewords and nothing else. -/
def tableOf (l : List (Char × List Char)) : Table :=
  l.foldl (fun T p => T.setEntry (byteOfChar p.1)
      (.ofOperands (BitVec.ofNat 6 p.2.length) (Codeword.bits (codewordOfText p.2))))
    (Vector.replicate 256 Entry.atReset)

/-- {a:"1", b:"01", c:"001", d:"000"} (95_test_vectors.md, Table E). -/
def tableE : Table :=
  tableOf [('a', ['1']), ('b', ['0', '1']), ('c', ['0', '0', '1']), ('d', ['0', '0', '0'])]

/-- {a:"0", b:"10", c:"110", d:"111"} (95_test_vectors.md, Table S2). -/
def tableS2 : Table :=
  tableOf [('a', ['0']), ('b', ['1', '0']), ('c', ['1', '1', '0']), ('d', ['1', '1', '1'])]

/-- {a:"0", b:"01"}: not prefix-free. -/
def tableBad : Table := tableOf [('a', ['0']), ('b', ['0', '1'])]

/-- A job: the source text at address 0, the destination at `dst` with `cap` bytes, and a table. -/
def job (T : Table) (text : String) (dst cap : Nat) : State :=
  { State.reset with
    table := T
    dmem := ⟨0, (bytesOfText text.toList).zipIdx.map fun p => (p.2, p.1)⟩
    srcLen := BitVec.ofNat 32 text.length
    dstAddr := BitVec.ofNat 32 dst
    dstCap := BitVec.ofNat 32 cap }

/-- The state with the operands of TBL.WRITE in place. -/
def operands (len : BitVec 6) (bits : Word) : State :=
  { State.reset with tblLen := len, tblBits := bits }

/-- The outcome is a next state that passes the check. -/
def next (o : Host.Outcome State Fault Refusal) (p : State → Bool) : Bool :=
  match o with
  | .next t => p t
  | .fault _ => false
  | .refused _ => false

theorem next_spec {o : Host.Outcome State Fault Refusal} {p : State → Bool}
    (h : next o p = true) : ∃ t, o = .next t ∧ p t = true := by
  cases o with
  | next t => exact ⟨t, rfl, h⟩
  | fault _ => cases h
  | refused _ => cases h

/-- ERR_CODE, ERR_POS and OUT_LEN. -/
def record (t : State) : Nat × Nat × Nat :=
  ((t.readReg .errCode).toNat, t.errPos.toNat, t.outLen.toNat)

/-! ### One step of each command (95_test_vectors.md) -/

/-- V-L1. -/
theorem test_nop_status :
    next (exec .nop State.reset) (fun t => t.readReg .status == 0x2#32) = true := by decide +kernel
/-- V-L2. -/
theorem test_nop_irq : next (exec .nop { State.reset with irqEn := true })
    (fun t => t.readReg .status == 0xA#32 && t.irq) = true := by decide +kernel
/-- V-T10. -/
theorem test_tblClear : next (exec .tblClear (job tableS2 "" 0 0))
    (fun t => !(t.table.entry 0x61#8).valid) = true := by decide +kernel
/-- V-T2. -/
theorem test_tblWrite_masks : next (exec (.tblWrite 0x61#8) (operands 1#6 0xFFFFFFFF#32))
    (fun t => t.table.entry 0x61#8 == ⟨true, 1#6, 1#32⟩) = true := by decide +kernel
/-- V-T5. -/
theorem test_tblWrite_length_33 : next (exec (.tblWrite 0x63#8) (operands 33#6 0#32))
    (fun t => record t == (6, 0x63, 0) && !(t.table.entry 0x63#8).valid) = true := by
  decide +kernel
/-- V-T9. -/
theorem test_tblInval : next (exec (.tblInval 0x62#8) (job tableS2 "" 0 0))
    (fun t => !(t.table.entry 0x62#8).valid && (t.table.entry 0x61#8).valid) = true := by
  decide +kernel
/-- V-T7. -/
theorem test_tblRead_valid : next (exec (.tblRead 0x64#8) (job tableS2 "" 0 0))
    (fun t => t.tblLen == 3#6 && t.tblBits == 7#32) = true := by decide +kernel
/-- V-T8. -/
theorem test_tblRead_invalid : next (exec (.tblRead 0x65#8) (job tableS2 "" 0 0))
    (fun t => t.tblLen == 0#6 && t.tblBits == 0#32 && record t == (0, 0, 0)) = true := by
  decide +kernel
/-- V-T14. -/
theorem test_tblCheck_same_bits : next (exec .tblCheck
    (job (tableOf [('a', ['1']), ('b', ['0', '1']), ('c', ['0', '0', '1'])]) "" 0 0))
    (fun t => record t == (0, 0, 0)) = true := by decide +kernel
/-- V-T15. -/
theorem test_tblCheck_pair_order : next (exec .tblCheck
    (job (tableOf [('b', ['0']), ('a', ['0', '1'])]) "" 0 0))
    (fun t => record t == (3, 0x6162, 0)) = true := by decide +kernel
/-- V-E1. -/
theorem test_encode_abacabad : next (exec .encode (job tableE "abacabad" 0x40 64))
    (fun t => record t == (0, 0, 14) &&
      t.dmem.readBytes 0x40 14 == bytesOfText "10110011011000".toList) = true := by decide +kernel
/-- V-E3. -/
theorem test_encode_overflow : next (exec .encode (job tableE "abacabad" 0x40 13))
    (fun t => record t == (9, 7, 0)) = true := by decide +kernel
/-- V-D2. -/
theorem test_decode_overflow : next (exec (.decode false) (job tableS2 "01001100100111" 0x100 7))
    (fun t => record t == (9, 11, 0)) = true := by decide +kernel
/-- V-D13. -/
theorem test_decodeV_abacabad : next (exec (.decode true) (job tableE "10110011011000" 0x40 8))
    (fun t => record t == (0, 0, 8) && t.dmem.readBytes 0x40 8 == bytesOfText "abacabad".toList) =
      true := by decide +kernel
/-- V-L5: an illegal word, as the step of the engine. -/
theorem test_step_illegal_word : next (step (State.reset.withFetchWord 32 0x06000000))
    (fun t => record t == (5, 0, 0) && t.readReg .status == 0x6#32) = true := by decide +kernel
/-- The word just accepted runs at the next step. -/
theorem test_step_runs_word : next (step (State.reset.withFetchWord 32 0x04000064))
    (fun t => t.done && t.job == .idle) = true := by decide +kernel

/-! ### The bus (95_test_vectors.md) -/

/-- V-M1, V-M2. -/
theorem test_bus_little_endian :
    (((State.reset.busAccess ⟨.write 0x64636261#32, 0x80000#20, .four⟩).1.busAccess
      ⟨.read, 0x80002#20, .two⟩).2 == ⟨.ok, some 0x00006463#32⟩) = true := by decide +kernel
/-- V-M4. -/
theorem test_bus_misaligned_end : (State.reset.busAccess ⟨.read, 0x80FFE#20, .four⟩).2 =
    ⟨.error, some 0#32⟩ := by decide +kernel
/-- V-M13. -/
theorem test_bus_ctrl : (State.reset.busAccess (.writeReg .ctrl 0xFFFFFFFF#32)).1.readReg .ctrl =
    0x1#32 := by decide +kernel

/-! ### Build (44_host_codebook_generation.md R234, 95_test_vectors.md) -/

/-- L1-3, L1-5. -/
theorem test_build_abacabad : (build (bytesOfText "abacabad".toList)).toOption.map
      (fun p => (p.2, weightedLength (bytesOfText "abacabad".toList) p.2)) =
    some ([(0x61#8, [true]), (0x62#8, [false, true]), (0x63#8, [false, false, true]),
      (0x64#8, [false, false, false])], 14) := by decide +kernel

/-! ### The statements' hypotheses are met: one state or operand for each, and for each clause -/

/-- A state in which a job of word `w` is pending. -/
def pending (w : Word) : State := State.reset.accept w

/-- A table loaded with codewords of 1 to 32 bits has the form of 10_state.md R40. -/
theorem tableOf_wf (l : List (Char × List Char))
    (h : ∀ p ∈ l, badLength (BitVec.ofNat 6 p.2.length) = false) : (tableOf l).wf := by
  have key : ∀ T : Table, T.wf → Table.wf (l.foldl (fun T p => T.setEntry (byteOfChar p.1)
      (.ofOperands (BitVec.ofNat 6 p.2.length) (Codeword.bits (codewordOfText p.2)))) T) := by
    induction l with
    | nil => exact fun T hT => hT
    | cons p l ih =>
      intro T hT
      refine ih (fun q hq => h q (List.mem_cons_of_mem _ hq)) _ fun x => ?_
      by_cases hx : x = byteOfChar p.1
      · rw [hx, Table.entry_setEntry_same]
        exact Entry.ofOperands_wf _ _ (h p List.mem_cons_self)
      · rw [Table.entry_setEntry_ne _ _ hx]
        exact hT x
  exact key _ fun x => by simp [Entry.atReset, Entry.wf]

theorem wf_S2 : tableS2.wf := tableOf_wf _ (by decide)
theorem wf_bad : tableBad.wf := tableOf_wf _ (by decide)
theorem prefixFree_S2 : tableS2.prefixFree := (Table.findConflict_eq_none _).1 (by decide +kernel)
theorem prefixFree_E : tableE.prefixFree := (Table.findConflict_eq_none _).1 (by decide +kernel)
theorem conflict_bad : tableBad.findConflict = some (0x61#8, 0x62#8) := by decide +kernel
theorem not_prefixFree_bad : ¬tableBad.prefixFree := fun h => by
  have := (Table.findConflict_eq_none _).2 h
  rw [conflict_bad] at this
  cases this

/-- Jobs whose source is at 0 and whose destination is at 0x40 pass their region checks. -/
theorem regionsOk_of (s : State) (h : s.regionError = none) : s.RegionsOk :=
  (State.regionError_eq_none s).1 h

theorem witness_ResetInputRestoresTheResetState :
    ∃ (s : State) (rest : List Stimulus), s.mover = .host ∧ s.stimuli = .reset :: rest ∧
      s.busy = true :=
  ⟨{ pending 0 with stimuli := [.reset], schedule := [.host] }, [], by decide, rfl, rfl⟩

theorem witness_EmptyTableFailsAtPositionZero : ∃ s : State,
    (∀ x : Byte, (s.table.entry x).valid = false) ∧ s.RegionsOk ∧ s.srcLen ≠ 0 :=
  ⟨{ State.reset with srcLen := 1#32, dstAddr := 1#32 }, fun x => by simp [Entry.atReset],
    regionsOk_of _ (by decide +kernel), by decide⟩

theorem witness_OperandRegistersStoreOnlyWhileIdle : ∃ s u : State,
    Reg.tblLen.isOperand = true ∧ Reg.srcAddr.isOperand = true ∧ s.busy = false ∧ u.busy = true :=
  ⟨State.reset, pending 0, rfl, rfl, rfl, rfl⟩

/-- The last register offset with a 1-byte access, both ends of the hole, and just past DMEM. -/
theorem witness_IllegalTransactionsChangeNothing : ∃ s : State, ∃ t u v w : Txn,
    (t.off.toNat < 0x1000 ∧ ¬(t.size = .four ∧ t.off.toNat % 4 = 0) ∧ t.access = .read) ∧
    (0x1000 ≤ u.off.toNat ∧ u.off.toNat < 0x80000 ∧ u.access = .write 1#32) ∧
    (0x1000 ≤ v.off.toNat ∧ v.off.toNat < 0x80000 ∧ v.access = .read) ∧
    (0x80000 ≤ w.off.toNat ∧ ¬((w.off.toNat - 0x80000) % w.size.bytes = 0 ∧
      w.off.toNat - 0x80000 + w.size.bytes ≤ s.dmemSize.val) ∧ w.access = .read) :=
  ⟨State.reset, ⟨.read, 0x00FFF#20, .one⟩, ⟨.write 1#32, 0x01000#20, .four⟩,
    ⟨.read, 0x7FFFC#20, .four⟩, ⟨.read, 0x81000#20, .one⟩, by decide, by decide, by decide,
    by decide⟩

/-- The first and the last register of the map, the first and the last reserved offset. -/
theorem witness_RegisterRegionAccesses :
    (∃ t : Txn, t.off.toNat < 0x1000 ∧ ¬(t.size = .four ∧ t.off.toNat % 4 = 0)) ∧
    (0x000#20).toNat = 0x000 ∧ (0x038#20).toNat = 0x038 ∧
    ∀ off ∈ [0x03C#20, 0xFFC#20], off.toNat < 0x1000 ∧ off.toNat % 4 = 0 ∧
      off.toNat ∉ [0x000, 0x004, 0x008, 0x00C, 0x010, 0x014, 0x018, 0x01C, 0x020, 0x024, 0x028,
        0x02C, 0x030, 0x034, 0x038] :=
  ⟨⟨⟨.read, 0x010#20, .one⟩, by decide⟩, by decide, by decide, by simp⟩

/-- The last word of DMEM, idle and while BUSY, and the halfword just past it. -/
theorem witness_DmemWindowAccesses : ∃ s u : State, ∃ t v : Txn,
    (t.off.toNat = 0x80000 + 4092 ∧ 4092 % t.size.bytes = 0 ∧
      4092 + t.size.bytes ≤ s.dmemSize.val ∧ t.access = .write 5#32) ∧ s.busy = false ∧
    u.busy = true ∧ u.dmemSize = s.dmemSize ∧ v.off.toNat = 0x80000 + 4096 ∧
      ¬(4096 % v.size.bytes = 0 ∧ 4096 + v.size.bytes ≤ s.dmemSize.val) :=
  ⟨State.reset, pending 0, ⟨.write 5#32, 0x80FFC#20, .four⟩, ⟨.read, 0x81000#20, .two⟩, by decide,
    rfl, rfl, rfl, by decide, by decide⟩

theorem witness_ReadsHaveNoSideEffect : (Txn.readDmemByte 0).access = .read := rfl

theorem witness_InterruptLineFollowsDone : ∃ (s : State) (v w : Word),
    s.busy = false ∧ v.getLsbD 1 = true ∧ w.getLsbD 0 = false ∧ s.irq = true :=
  ⟨{ State.reset with irqEn := true, done := true }, 2#32, 2#32, rfl, by decide, by decide, rfl⟩

theorem witness_DecodeAndEncodeAgree :
    (Instr.tblRead 0xFF#8).wellFormed = true ∧ decodeWord 0x040000FF#32 = .ok (.tblRead 0xFF#8) := by
  decide

theorem witness_OpcodeMapDecidesLegality : ∃ r ∈ opcodeMap, r.matchesWord 0x11000100#32 = true ∧
    legalWord 0x12000000#32 = false :=
  ⟨⟨"DECODE", 0x11000000#32, 0xFFFFFEFF#32⟩, by decide, by decide, by decide⟩

theorem witness_CodewordLayoutIsMostSignificantFirst :
    Codeword.wellFormed [true] = true ∧ Codeword.wellFormed (true :: List.replicate 31 false) = true ∧
      31 < (true :: List.replicate 31 false).length := by decide

theorem witness_CmdWriteWhileIdleIsAccepted : State.reset.busy = false := rfl

theorem witness_CmdWriteWhileBusyIsRejected : (pending 0).busy = true := rfl

theorem witness_StepRunsTheDecodedCommand : ∃ (s : State) (w : Word) (i : Instr),
    s.mover = .engine ∧ s.job = .pending w ∧ decodeWord w = .ok i :=
  ⟨pending 0x10000000#32, 0x10000000#32, .encode, by decide, rfl, by decide⟩

theorem witness_IllegalWordsCompleteWithIllegalCmd : ∃ (s : State) (w : Word),
    legalWord w = false ∧ s.mover = .engine ∧ s.job = .pending w :=
  ⟨pending 0x06000000#32, 0x06000000#32, by decide, by decide, rfl⟩

theorem witness_EveryCommandCompletes : ∃ i : Instr, (∀ x, i ≠ .tblRead x) ∧ i ≠ .tblClear ∧
    (∀ x, i ≠ .tblWrite x) ∧ (∀ x, i ≠ .tblInval x) ∧ i ≠ .encode ∧ ∀ v, i ≠ .decode v :=
  ⟨.tblCheck, nofun, nofun, nofun, nofun, nofun, nofun⟩

theorem witness_PendingJobsEndUnderEverySchedule : (pending 7).job = .pending 7 := rfl

theorem witness_HostCannotDisturbAPendingJob : ∃ (s : State) (w : Word), s.job = .pending w ∧
    s.mover = .host ∧ ∀ rest, s.stimuli ≠ .reset :: rest :=
  ⟨{ pending 0 with
      schedule := [.host]
      stimuli := [.txn (.writeReg .srcLen 5#32)] }, 0, rfl,
    by decide, nofun⟩

theorem witness_TableChangesOnlyByItsCommandsAndReset : ∃ s t : State, step s = .next t :=
  ⟨State.reset, _, rfl⟩

/-- A legal and an illegal word. -/
theorem witness_CommandThenWaitIsScheduleIndependent : ∀ w ∈ [0x05000000#32, 0x06000000#32],
    ∃ (s : State) (rest : List Stimulus), s.job = .idle ∧
      s.stimuli = .txn (.writeReg .cmd w) :: .wait :: rest ∧
      s.schedule = [.engine, .host, .host, .engine] := fun w _ =>
  ⟨{ State.reset with
      stimuli := [.txn (.writeReg .cmd w), .wait]
      schedule := [.engine, .host, .host, .engine] }, [], rfl, rfl, rfl⟩

/-- TBL.CLEAR leaves the job parameters, so its own next state can pass the region checks. -/
theorem witness_TblClearEmptiesTheTable : ∃ s t : State, exec .tblClear s = .next t ∧
    t.RegionsOk ∧ t.srcLen ≠ 0 :=
  ⟨job tableS2 "0" 0x40 1, _, rfl, regionsOk_of _ (by decide +kernel), by decide⟩

theorem witness_TblWriteStoresOrRefuses :
    (1 ≤ (operands 1#6 0).tblLen.toNat ∧ (operands 1#6 0).tblLen.toNat ≤ 32) ∧
    (1 ≤ (operands 32#6 0).tblLen.toNat ∧ (operands 32#6 0).tblLen.toNat ≤ 32) ∧
    (operands 0#6 0).tblLen.toNat = 0 ∧ 32 < (operands 33#6 0).tblLen.toNat := by decide

theorem witness_TblReadReturnsTheEntry : (tableS2.entry 0x61#8).valid = true ∧
    (tableS2.entry 0x65#8).valid = false ∧ tableS2.wf :=
  ⟨by decide +kernel, by decide +kernel, wf_S2⟩

theorem witness_TblCheckReportsTheConflict : tableS2.prefixFree ∧ ¬tableBad.prefixFree ∧
    tableBad.findConflict = some (0x61#8, 0x62#8) :=
  ⟨prefixFree_S2, not_prefixFree_bad, conflict_bad⟩

theorem witness_FindConflictReturnsTheFirstPair : (0x61#8 : Byte) ≠ 0x62#8 ∧
    (tableBad.entry 0x61#8).valid = true ∧ (tableBad.entry 0x62#8).valid = true ∧
    (tableBad.entry 0x61#8).prefixOf (tableBad.entry 0x62#8) = true := by decide +kernel

theorem witness_PrefixInTheBitLayoutIsPrefixOfCodewords :
    (tableBad.entry 0x61#8).wf = true ∧ (tableBad.entry 0x62#8).wf = true ∧
    (tableBad.entry 0x61#8).valid = true ∧ (tableBad.entry 0x62#8).valid = true ∧ tableBad.wf :=
  ⟨by decide +kernel, by decide +kernel, by decide +kernel, by decide +kernel, wf_bad⟩

theorem witness_InvalidEntriesAreUnobservable : ∃ s u : State, s.SameButInvalidEntries u ∧ s ≠ u :=
  ⟨State.reset, { State.reset with table := Vector.replicate 256 ⟨false, 3#6, 5#32⟩ },
    ⟨rfl, fun x => .inr ⟨by simp [Entry.atReset], by simp⟩⟩,
    fun h => absurd (congrArg (fun s : State => s.table.entry 0#8) h) (by decide +kernel)⟩

/-- One byte too long, and one shared byte. -/
theorem witness_RegionErrorsComeFirst : ∃ s u v : State,
    Instr.decode true ∈ [Instr.encode, .decode false, .decode true] ∧
    s.dmemSize.val < s.srcAddr.toNat + s.srcLen.toNat ∧
    (u.srcAddr.toNat + u.srcLen.toNat ≤ u.dmemSize.val ∧
      u.dmemSize.val < u.dstAddr.toNat + u.dstCap.toNat) ∧
    (v.srcAddr.toNat + v.srcLen.toNat ≤ v.dmemSize.val ∧
      v.dstAddr.toNat + v.dstCap.toNat ≤ v.dmemSize.val ∧
      ∃ a, v.srcAddr.toNat ≤ a ∧ a < v.srcAddr.toNat + v.srcLen.toNat ∧
        v.dstAddr.toNat ≤ a ∧ a < v.dstAddr.toNat + v.dstCap.toNat) :=
  ⟨{ State.reset with srcAddr := 4096#32, srcLen := 1#32 }, job tableE "a" 4000 97,
    job tableE "abacabad" 7 10, by decide, by decide, by decide, by decide, by decide, 7, by decide⟩

theorem witness_JobsWriteOnlyTheDestination : ∃ s u t v : State,
    Instr.encode ∈ [Instr.encode, .decode false, .decode true] ∧
    (exec .encode s = .next t ∧ t.errCode = .none ∧ t.outLen = 1#32) ∧
    (exec .encode u = .next v ∧
      v.errCode ∈ [ErrCode.rangeError, .overlapError, .validationError]) := by
  obtain ⟨t, ht, h1⟩ := next_spec (o := exec .encode (job tableE "a" 0x40 1))
    (p := fun t => t.errCode == .none && t.outLen == 1#32) (by decide +kernel)
  obtain ⟨v, hv, h2⟩ := next_spec (o := exec .encode (job tableE "a" 4000 97))
    (p := fun t => t.errCode == .rangeError) (by decide +kernel)
  simp only [Bool.and_eq_true, beq_iff_eq] at h1 h2
  exact ⟨_, _, t, v, by decide, ⟨ht, h1⟩, hv, by simp [h2]⟩

/-- The codewords fit exactly. -/
theorem witness_EncodeWritesTheConcatenation : ∃ s : State, s.RegionsOk ∧
    s.table.covers s.sourceBytes ∧
    (s.sourceBytes.map fun x => (s.table.entry x).len.toNat).sum ≤ s.dstCap.toNat :=
  ⟨job tableE "abacabad" 0x40 14, regionsOk_of _ (by decide +kernel),
    by unfold Table.covers; decide +kernel, by decide +kernel⟩

/-- "abe" has no entry for 'e'; "abc" needs one byte more than 5. -/
theorem witness_EncodeFailsAtTheFirstFailingSymbol : ∃ s u : State,
    (s.RegionsOk ∧ s.sourceBytes = [0x61#8, 0x62#8] ++ 0x65#8 :: [] ∧
      s.table.covers [0x61#8, 0x62#8] ∧
      (s.table.codeOf [0x61#8, 0x62#8]).length ≤ s.dstCap.toNat ∧
      (s.table.entry 0x65#8).valid = false) ∧
    (u.RegionsOk ∧ u.sourceBytes = [0x61#8, 0x62#8] ++ 0x63#8 :: [] ∧
      u.table.covers [0x61#8, 0x62#8] ∧
      (u.table.codeOf [0x61#8, 0x62#8]).length ≤ u.dstCap.toNat ∧
      (u.table.entry 0x63#8).valid = true ∧
      u.dstCap.toNat < (u.table.codeOf [0x61#8, 0x62#8]).length + (u.table.entry 0x63#8).len.toNat) :=
  ⟨job tableE "abe" 0x40 3, job tableE "abc" 0x40 5,
    ⟨regionsOk_of _ (by decide +kernel), by decide +kernel, by unfold Table.covers; decide +kernel,
      by decide +kernel, by decide +kernel⟩,
    regionsOk_of _ (by decide +kernel), by decide +kernel, by unfold Table.covers; decide +kernel,
      by decide +kernel, by decide +kernel, by decide +kernel⟩

theorem witness_EncodeWithEnoughRoomNeverOverflows : ∃ s u : State,
    (s.RegionsOk ∧ s.table.wf ∧ (s.sourceBytes.map fun x =>
      if (s.table.entry x).valid then (s.table.entry x).len.toNat else 0).sum ≤ s.dstCap.toNat ∧
      s.table.covers s.sourceBytes) ∧
    (u.RegionsOk ∧ u.table.wf ∧ 32 * u.srcLen.toNat ≤ u.dstCap.toNat ∧
      u.sourceBytes = [0x61#8] ++ 0x65#8 :: [] ∧ u.table.covers [0x61#8] ∧
      (u.table.entry 0x65#8).valid = false) :=
  ⟨job tableS2 "ab" 0x40 3, job tableS2 "ae" 0x40 64,
    ⟨regionsOk_of _ (by decide +kernel), wf_S2, by decide +kernel,
      by unfold Table.covers; decide +kernel⟩,
    regionsOk_of _ (by decide +kernel), wf_S2, by decide +kernel, by decide +kernel,
      by unfold Table.covers; decide +kernel, by decide +kernel⟩

theorem witness_EncodeDependsOnlyOnItsInputs : ∃ s u : State, u.table = s.table ∧
    u.srcAddr = s.srcAddr ∧ u.srcLen = s.srcLen ∧ u.dstAddr = s.dstAddr ∧ u.dstCap = s.dstCap ∧
    u.dmemSize = s.dmemSize ∧ u.sourceBytes = s.sourceBytes ∧ s ≠ u :=
  ⟨job tableE "ab" 0x40 3, { job tableE "ab" 0x40 3 with draw := 5, irqEn := true }, rfl, rfl, rfl,
    rfl, rfl, rfl, rfl, fun h => absurd (congrArg State.draw h) (by decide)⟩

/-- Empty regions at the end of DMEM are legal (V-E15); a table that is not prefix-free for ENCODE
and DECODE. -/
theorem witness_EmptySourceSucceeds : ∃ s u : State, (s.RegionsOk ∧ s.srcLen = 0) ∧
    (u.RegionsOk ∧ u.srcLen = 0 ∧ u.table.prefixFree) :=
  ⟨{ job tableBad "" 4096 0 with srcAddr := 4096#32 }, job tableS2 "" 0x40 0,
    ⟨regionsOk_of _ (by decide +kernel), rfl⟩, regionsOk_of _ (by decide +kernel), rfl,
    prefixFree_S2⟩

theorem witness_DecodeReturnsTheSymbols : ∃ s : State, s.RegionsOk ∧ s.table.wf ∧
    s.table.prefixFree ∧ s.table.covers [0x61#8, 0x62#8] ∧
    s.sourceBytes = (s.table.codeOf [0x61#8, 0x62#8]).map bitChar ∧
    [0x61#8, 0x62#8].length ≤ s.dstCap.toNat :=
  ⟨job tableS2 "010" 0x40 2, regionsOk_of _ (by decide +kernel), wf_S2, prefixFree_S2,
    by unfold Table.covers; decide +kernel, by decide +kernel, by decide +kernel⟩

theorem witness_DecodeOutputParsesTheSource : ∃ s t : State,
    exec (.decode false) s = .next t ∧ t.errCode = .none ∧ t.outLen = 2#32 := by
  obtain ⟨t, ht, h⟩ := next_spec (o := exec (.decode false) (job tableS2 "010" 0x40 2))
    (p := fun t => t.errCode == .none && t.outLen == 2#32) (by decide +kernel)
  simp only [Bool.and_eq_true, beq_iff_eq] at h
  exact ⟨_, t, ht, h⟩

/-- "0a" matches nothing at 1; "00" with one byte of room is full at 1. -/
theorem witness_DecodeFailsAtTheFirstFailingCursor : ∃ s u : State,
    (s.RegionsOk ∧ s.table.wf ∧ s.table.prefixFree ∧ s.table.covers [0x61#8] ∧
      s.SourceStartsWith (s.table.codeOf [0x61#8]) ∧
      (s.table.codeOf [0x61#8]).length < s.srcLen.toNat ∧ [0x61#8].length ≤ s.dstCap.toNat ∧
      ∀ x, s.matchesAt s.dmem (s.table.codeOf [0x61#8]).length x = false) ∧
    (u.RegionsOk ∧ u.table.wf ∧ u.table.prefixFree ∧ u.table.covers [0x61#8] ∧
      u.SourceStartsWith (u.table.codeOf [0x61#8]) ∧
      (u.table.codeOf [0x61#8]).length < u.srcLen.toNat ∧ [0x61#8].length = u.dstCap.toNat ∧
      ∃ x, u.matchesAt u.dmem (u.table.codeOf [0x61#8]).length x = true) :=
  ⟨job tableS2 "0a" 0x40 2, job tableS2 "00" 0x40 1,
    ⟨regionsOk_of _ (by decide +kernel), wf_S2, prefixFree_S2,
      by unfold Table.covers; decide +kernel, by unfold State.SourceStartsWith; decide +kernel,
      by decide +kernel, by decide +kernel, by decide +kernel⟩,
    regionsOk_of _ (by decide +kernel), wf_S2, prefixFree_S2,
      by unfold Table.covers; decide +kernel, by unfold State.SourceStartsWith; decide +kernel,
      by decide +kernel, by decide +kernel, 0x61#8, by decide +kernel⟩

/-- V-D4: "011", cut off inside the codeword "110" or "111". -/
theorem witness_TruncatedInputFailsWhereTheCodewordStarts : ∃ s : State, s.RegionsOk ∧
    s.table.wf ∧ s.table.prefixFree ∧ s.table.covers [0x61#8] ∧ [0x61#8].length ≤ s.dstCap.toNat ∧
    (s.table.entry 0x63#8).valid = true ∧ [true, true] <+: (s.table.entry 0x63#8).codeword ∧
    [true, true] ≠ (s.table.entry 0x63#8).codeword ∧
    s.sourceBytes = (s.table.codeOf [0x61#8] ++ [true, true]).map bitChar :=
  ⟨job tableS2 "011" 0x40 8, regionsOk_of _ (by decide +kernel), wf_S2, prefixFree_S2,
    by unfold Table.covers; decide +kernel, by decide +kernel, by decide +kernel,
    by decide +kernel, by decide +kernel, by decide +kernel⟩

theorem witness_PrefixFreeDecodeIsDeterministic : ∃ s : State, s.table.wf ∧ s.table.prefixFree ∧
    s.matchesAt s.dmem 1 0x62#8 = true :=
  ⟨job tableS2 "010" 0x40 2, wf_S2, prefixFree_S2, by decide +kernel⟩

/-- V-D8: two entries match at cursor 0, so the choice is free. -/
theorem witness_DecodeDependsOnlyOnItsInputs : ∃ s u : State, u.table = s.table ∧
    u.srcAddr = s.srcAddr ∧ u.srcLen = s.srcLen ∧ u.dstAddr = s.dstAddr ∧ u.dstCap = s.dstCap ∧
    u.dmemSize = s.dmemSize ∧ u.draw = s.draw ∧ u.sourceBytes = s.sourceBytes ∧ s ≠ u ∧
    s.matchesAt s.dmem 0 0x61#8 = true ∧ s.matchesAt s.dmem 0 0x62#8 = true :=
  ⟨job tableBad "01" 0x40 2, { job tableBad "01" 0x40 2 with irqEn := true }, rfl, rfl, rfl, rfl,
    rfl, rfl, rfl, rfl, fun h => absurd (congrArg State.irqEn h) (by decide), by decide +kernel,
    by decide +kernel⟩

/-- V-D9, V-D16, and a prefix-free table. -/
theorem witness_DecodeVValidatesFirst : ∃ s u : State,
    (s.RegionsOk ∧ s.srcLen = 0 ∧ s.table.findConflict = some (0x61#8, 0x62#8)) ∧
    (u.RegionsOk ∧ u.table.prefixFree) :=
  ⟨job tableBad "" 0x40 0, job tableE "" 0x40 0,
    ⟨regionsOk_of _ (by decide +kernel), rfl, conflict_bad⟩, regionsOk_of _ (by decide +kernel),
    prefixFree_E⟩

/-- "ab" to "010", and back with room for exactly two symbols. -/
theorem witness_DecodeInvertsEncode : ∃ s t u : State, s.table.wf ∧ s.table.prefixFree ∧
    exec .encode s = .next t ∧ t.errCode = .none ∧ u.table = t.table ∧ u.srcLen = t.outLen ∧
    u.sourceBytes = t.destBytes t.outLen.toNat ∧ u.RegionsOk ∧ s.srcLen.toNat ≤ u.dstCap.toNat := by
  obtain ⟨t, ht, h⟩ := next_spec (o := exec .encode (job tableS2 "ab" 0x40 3))
    (p := fun t => t.errCode == .none && t.outLen == 3#32 &&
      t.destBytes 3 == bytesOfText ['0', '1', '0']) (by decide +kernel)
  simp only [Bool.and_eq_true, beq_iff_eq] at h
  obtain ⟨⟨h1, h2⟩, h3⟩ := h
  refine ⟨job tableS2 "ab" 0x40 3, t, { job tableS2 "010" 0x40 2 with table := t.table }, wf_S2,
    prefixFree_S2, ht, h1, rfl, ?_, ?_, ?_, ?_⟩
  · rw [h2]; rfl
  · rw [h2, show (3#32).toNat = 3 from rfl, h3]
    exact (by decide +kernel : (job tableS2 "010" 0x40 2).sourceBytes = bytesOfText ['0', '1', '0'])
  · exact regionsOk_of _ (by decide +kernel :
      (job tableS2 "010" 0x40 2).regionError = none)
  · exact (by decide +kernel : (job tableS2 "ab" 0x40 3).srcLen.toNat ≤
      (job tableS2 "010" 0x40 2).dstCap.toNat)

/-- A BUSY state of the invariant with a written byte, and its step. -/
theorem witness_EveryStepKeepsTheInvariant : ∃ s t : State, s.Inv ∧ s.busy = true ∧
    step s = .next t :=
  ⟨(job tableS2 "0" 0x40 1).accept 0x11000000#32, _,
    ⟨by decide, by decide, wf_S2, fun _ => ⟨rfl, rfl, rfl⟩, fun _ => rfl, nofun, by decide⟩, rfl,
    (step_next _).choose_spec⟩

theorem witness_TblLoadStoresTheCodeword : ∃ (s : State) (x : Byte) (cw : Codeword)
    (rest : List Stimulus), s.job = .idle ∧ Codeword.wellFormed cw = true ∧
    s.stimuli = (Line.tblLoad x cw).expand ++ rest ∧ s.schedule = [.engine, .host, .host, .host] :=
  ⟨{ State.reset with
      stimuli := (Line.tblLoad 0xFF#8 (List.replicate 32 true)).expand ++ [.reset]
      schedule := [.engine, .host, .host, .host] }, 0xFF#8, List.replicate 32 true, [.reset], rfl,
    by decide, rfl, rfl⟩

/-- A DMEM write, a WAIT while BUSY, nothing left, and an idle engine. -/
theorem witness_HostStepsPerformTheirTransactions : ∃ s u v w : State,
    (s.schedule = [] ∧ s.mover = .host ∧ s.stimuli = .txn (.writeDmemByte 4095 7#8) :: []) ∧
    (u.schedule = .host :: [] ∧ u.mover = .host ∧ u.stimuli = .wait :: [] ∧ u.busy = true) ∧
    (v.mover = .host ∧ v.stimuli = []) ∧ w.mover = .engine ∧ w.job = .idle :=
  ⟨{ State.reset with stimuli := [.txn (.writeDmemByte 4095 7#8)] },
    { pending 0 with stimuli := [.wait], schedule := [.host] }, State.reset,
    { State.reset with schedule := [.engine] }, ⟨rfl, rfl, rfl⟩, ⟨rfl, rfl, rfl, rfl⟩, ⟨rfl, rfl⟩,
    rfl, rfl⟩

theorem witness_BuildGivesAPrefixCode : ([0x61#8] : List Byte) ≠ [] := by decide

end Sys2Proof.Tests
end

section
/-! PROOF. Completions do not see the world outside the block, and runs through the turns that a
schedule hands out: what O28 rests on. -/

namespace Sys2Proof.Machine

/-! ### The world outside the block -/

/-- The block of `s` in another world outside: other stimuli, another schedule, another last
answer on the bus. -/
def State.withWorld (s : State) (l : List Stimulus) (a : List Agent) (r : Option Response) :
    State :=
  { s with stimuli := l, schedule := a, response := r }

section
variable (s : State) (l : List Stimulus) (a : List Agent) (r : Option Response)

@[simp] theorem State.withWorld_table : (s.withWorld l a r).table = s.table := rfl
@[simp] theorem State.withWorld_srcAddr : (s.withWorld l a r).srcAddr = s.srcAddr := rfl
@[simp] theorem State.withWorld_srcLen : (s.withWorld l a r).srcLen = s.srcLen := rfl
@[simp] theorem State.withWorld_dstAddr : (s.withWorld l a r).dstAddr = s.dstAddr := rfl
@[simp] theorem State.withWorld_dstCap : (s.withWorld l a r).dstCap = s.dstCap := rfl
@[simp] theorem State.withWorld_tblLen : (s.withWorld l a r).tblLen = s.tblLen := rfl
@[simp] theorem State.withWorld_dmem : (s.withWorld l a r).dmem = s.dmem := rfl
@[simp] theorem State.withWorld_job : (s.withWorld l a r).job = s.job := rfl

@[simp] theorem State.withWorld_regionError : (s.withWorld l a r).regionError = s.regionError := rfl
@[simp] theorem State.withWorld_validationError :
    (s.withWorld l a r).validationError = s.validationError := rfl
@[simp] theorem State.withWorld_decodeCheck (v : Bool) :
    (s.withWorld l a r).decodeCheck v = s.decodeCheck v := rfl
@[simp] theorem State.withWorld_matchChoice (m : Memory) (n k : Nat) :
    (s.withWorld l a r).matchChoice m n k = s.matchChoice m n k := rfl

/-- `SameBlock` says that only the world outside is another. -/
theorem State.sameBlock_withWorld : s.SameBlock (s.withWorld l a r) := rfl

end

theorem State.SameBlock.eq_withWorld {s t : State} (h : s.SameBlock t) :
    t = s.withWorld t.stimuli t.schedule t.response := h

theorem State.SameBlock.trans {s t u : State} (h : s.SameBlock t) (h' : t.SameBlock u) :
    s.SameBlock u := by
  rw [State.SameBlock, h'.eq_withWorld, h.eq_withWorld]; rfl

theorem State.SameBlock.job {s t : State} (h : s.SameBlock t) : t.job = s.job := by
  rw [h.eq_withWorld, State.withWorld_job]

theorem State.SameBlock.accept {s t : State} (h : s.SameBlock t) (w : Word) :
    (s.accept w).SameBlock (t.accept w) := by
  rw [h.eq_withWorld]; rfl

/-! ### Completions do not see it -/

@[simp] theorem State.withWorld_encodeLoop (s : State) (l : List Stimulus) (a : List Agent)
    (r : Option Response) (n i o : Nat) (m : Memory) :
    (s.withWorld l a r).encodeLoop n i o m = s.encodeLoop n i o m := by
  induction n generalizing i o m with
  | zero => rfl
  | succ n ih => simp [State.encodeLoop, ih]

@[simp] theorem State.withWorld_decodeLoop (s : State) (l : List Stimulus) (a : List Agent)
    (r : Option Response) (room n k : Nat) (m : Memory) :
    (s.withWorld l a r).decodeLoop room n k m = s.decodeLoop room n k m := by
  induction room generalizing n k m with
  | zero =>
    unfold State.decodeLoop
    rfl
  | succ room ih =>
    unfold State.decodeLoop
    simp [ih]

/-- A command's completion does to the block the same in every world outside, and leaves that
world as it is. -/
theorem exec_withWorld (i : Instr) (s : State) (l : List Stimulus) (a : List Agent)
    (r : Option Response) :
    ∃ u, exec i s = .next u ∧ exec i (s.withWorld l a r) = .next (u.withWorld l a r) := by
  cases i with
  | nop => exact ⟨_, rfl, rfl⟩
  | tblClear => exact ⟨_, rfl, rfl⟩
  | tblWrite sym =>
    simp only [exec, execTblWrite, State.withWorld_tblLen]
    by_cases h : badLength s.tblLen
    · exact ⟨_, if_pos h, if_pos h⟩
    · exact ⟨_, if_neg h, if_neg h⟩
  | tblInval sym => exact ⟨_, rfl, rfl⟩
  | tblRead sym =>
    simp only [exec, execTblRead, State.withWorld_table]
    by_cases h : (s.table.entry sym).valid
    · exact ⟨_, if_pos h, if_pos h⟩
    · exact ⟨_, if_neg h, if_neg h⟩
  | tblCheck =>
    simp only [exec, execTblCheck, State.withWorld_validationError]
    cases s.validationError <;> exact ⟨_, rfl, rfl⟩
  | encode =>
    simp only [exec, execEncode, State.withWorld_regionError, State.withWorld_srcLen,
      State.withWorld_dmem, State.withWorld_encodeLoop]
    cases s.regionError with
    | some e => exact ⟨_, rfl, rfl⟩
    | none => cases s.encodeLoop s.srcLen.toNat 0 0 s.dmem <;> exact ⟨_, rfl, rfl⟩
  | decode v =>
    simp only [exec, execDecode, State.withWorld_decodeCheck, State.withWorld_dstCap,
      State.withWorld_dmem, State.withWorld_decodeLoop]
    cases s.decodeCheck v with
    | some e => exact ⟨_, rfl, rfl⟩
    | none => cases s.decodeLoop s.dstCap.toNat 0 0 s.dmem <;> exact ⟨_, rfl, rfl⟩

/-- The same for any pending word, legal or not. -/
theorem completeWord_withWorld (w : Word) (s : State) (l : List Stimulus) (a : List Agent)
    (r : Option Response) :
    ∃ u, completeWord w s = .next u ∧
      completeWord w (s.withWorld l a r) = .next (u.withWorld l a r) := by
  unfold completeWord
  cases decodeWord w with
  | ok i => exact exec_withWorld i s l a r
  | error e => exact ⟨_, rfl, rfl⟩

/-- Two states with the same block have completions with the same block. -/
theorem completeWord_sameBlock (w : Word) {s t : State} (h : s.SameBlock t) :
    ∃ u, completeWord w s = .next u ∧
      completeWord w t = .next (u.withWorld t.stimuli t.schedule t.response) := by
  have := completeWord_withWorld w s t.stimuli t.schedule t.response
  rwa [← h.eq_withWorld] at this

/-- A completion leaves the block idle (40_command_lifecycle.md R124). -/
theorem completeWord_job {w : Word} {s u : State} (h : completeWord w s = .next u) :
    u.job = .idle := by
  unfold completeWord at h
  cases hd : decodeWord w with
  | ok i =>
    rw [hd] at h
    rcases exec_shape i s with ⟨e, -, he⟩ | ⟨len, bits, T, m, out, he⟩
    · cases he.symm.trans h
      rfl
    · cases he.symm.trans h
      rfl
  | error e =>
    rw [hd] at h
    cases h
    rfl

/-! ### One rule for each kind of turn -/

theorem step_engine_idle {s : State} (hm : s.mover = .engine) (hj : s.job = .idle) :
    step s = .next s.afterTurn := by
  simp [step, hm, engineStep, hj]

theorem step_engine_pending {s : State} {w : Word} (hm : s.mover = .engine)
    (hj : s.job = .pending w) : step s = completeWord w s.afterTurn := by
  simp [step, hm, engineStep, hj]

theorem step_host_txn {s : State} {t : Txn} {rest : List Stimulus} (hm : s.mover = .host)
    (hs : s.stimuli = .txn t :: rest) :
    step s = .next ((s.withWorld rest s.schedule.tail s.response).transact t) := by
  simp only [step, hm, hostStep, State.afterTurn_stimuli, hs]
  rfl

theorem State.transact_writeReg (s : State) (r : Reg) (v : Word) :
    s.transact (.writeReg r v) = { s.writeReg v r with response := some ⟨.ok, none⟩ } := by
  rw [State.transact, State.busAccess_writeReg]

theorem State.transact_readReg (s : State) (r : Reg) :
    s.transact (.readReg r) = { s with response := some ⟨.ok, some (s.readReg r)⟩ } := by
  rw [State.transact, State.busAccess_readReg]

theorem State.submit_of_idle {s : State} (hj : s.job = .idle) (w : Word) :
    s.submit w = s.accept w := by
  rw [State.submit, s.not_busy_iff.2 hj, if_neg Bool.false_ne_true]

/-- A write of CMD while idle is accepted (40_command_lifecycle.md R121). -/
theorem step_host_command {s : State} {w : Word} {rest : List Stimulus} (hm : s.mover = .host)
    (hj : s.job = .idle) (hs : s.stimuli = .txn (.writeReg .cmd w) :: rest) :
    step s = .next ((s.accept w).withWorld rest s.schedule.tail (some ⟨.ok, none⟩)) := by
  have hidle : (s.withWorld rest s.schedule.tail s.response).job = .idle := hj
  rw [step_host_txn hm hs, State.transact_writeReg, State.writeReg, State.submit_of_idle hidle]
  rfl

/-- A WAIT reads STATUS, which changes nothing in the block, and is over when BUSY reads 0
(30_encoding.md R101). -/
theorem step_host_wait {s : State} {rest : List Stimulus} (hm : s.mover = .host)
    (hs : s.stimuli = .wait :: rest) :
    step s = .next (s.withWorld (if s.busy then .wait :: rest else rest) s.schedule.tail
      (some ⟨.ok, some s.statusWord⟩)) := by
  simp only [step, hm, hostStep, State.afterTurn_stimuli, hs, State.transact_readReg,
    State.readsBusy_eq]
  rfl

/-! ### Runs -/

/-- Some run leads from `s` to `t`. -/
def State.Reaches (s t : State) : Prop := ∃ k, Sys2Proof.core.run k s = .next t

theorem State.Reaches.refl (s : State) : s.Reaches s := ⟨0, rfl⟩

theorem State.Reaches.head {s t u : State} (h : step s = .next t) : t.Reaches u → s.Reaches u
  | ⟨k, hk⟩ => ⟨k + 1, (run_succ k h).trans hk⟩

theorem State.Reaches.single {s t : State} (h : step s = .next t) : s.Reaches t :=
  .head h (.refl t)

theorem State.Reaches.trans {s t u : State} : s.Reaches t → t.Reaches u → s.Reaches u
  | ⟨k, hk⟩, htu => by
    induction k generalizing s with
    | zero => cases hk; exact htu
    | succ k ih =>
      obtain ⟨s', hs⟩ := step_next s
      rw [run_succ k hs] at hk
      exact .head hs (ih hk)

/-- An idle block stays as it is until the host moves, and the host does move: the schedule runs
through the engine's turns, which pass, and after its end the host moves. -/
theorem State.reaches_host_turn {s : State} (hj : s.job = .idle) :
    ∃ t, s.Reaches t ∧ s.SameBlock t ∧ t.stimuli = s.stimuli ∧ t.mover = .host := by
  induction hsch : s.schedule generalizing s with
  | nil => exact ⟨s, .refl s, rfl, rfl, by simp [State.mover, hsch, State.busy_eq, hj]⟩
  | cons agent l ih =>
    have hm : s.mover = agent := by simp [State.mover, hsch]
    cases agent with
    | host => exact ⟨s, .refl s, rfl, rfl, hm⟩
    | engine =>
      obtain ⟨t, hst, hb, hl, ht⟩ := ih (s := s.afterTurn) hj (by simp [hsch])
      exact ⟨t, .head (step_engine_idle hm hj) hst, (s.sameBlock_withWorld _ _ _).trans hb, hl, ht⟩

/-- On the engine's turn a pending word completes, and the block is then as its completion at once
leaves it. -/
theorem State.reaches_completion_of_engine {s u : State} {w : Word} (hm : s.mover = .engine)
    (hj : s.job = .pending w) (hu : completeWord w s = .next u) :
    ∃ t, s.Reaches t ∧ u.SameBlock t ∧ t.stimuli = s.stimuli := by
  obtain ⟨v, hv, hv'⟩ := completeWord_withWorld w s s.stimuli s.schedule.tail s.response
  cases hu.symm.trans hv
  exact ⟨_, .single ((step_engine_pending hm hj).trans hv'), u.sameBlock_withWorld _ _ _, rfl⟩

/-- A pending word completes while the host waits, whenever the engine's turn comes: the polls of
STATUS before it change nothing that the completion sees. -/
theorem State.reaches_completion {s u : State} {w : Word} {rest : List Stimulus}
    (hj : s.job = .pending w) (hs : s.stimuli = .wait :: rest) (hu : completeWord w s = .next u) :
    ∃ t, s.Reaches t ∧ u.SameBlock t ∧ t.stimuli = .wait :: rest := by
  induction hsch : s.schedule generalizing s u with
  | nil =>
    have hm : s.mover = .engine := by simp [State.mover, hsch, State.busy_eq, hj]
    exact hs ▸ State.reaches_completion_of_engine hm hj hu
  | cons agent l ih =>
    have hm : s.mover = agent := by simp [State.mover, hsch]
    cases agent with
    | engine => exact hs ▸ State.reaches_completion_of_engine hm hj hu
    | host =>
      have hpoll := step_host_wait hm hs
      rw [s.busy_iff.2 ⟨w, hj⟩, if_pos rfl, hsch, List.tail_cons] at hpoll
      obtain ⟨v, hv, hv'⟩ := completeWord_withWorld w s (.wait :: rest) l
        (some ⟨.ok, some s.statusWord⟩)
      cases hu.symm.trans hv
      obtain ⟨t, hst, hut, hl⟩ := ih (s := s.withWorld (.wait :: rest) l _) hj rfl hv' rfl
      exact ⟨t, .head hpoll hst, (u.sameBlock_withWorld _ _ _).trans hut, hl⟩

/-- A WAIT on an idle block is over at the host's next turn and changes nothing in the block. -/
theorem State.reaches_wait_over {s : State} {rest : List Stimulus} (hj : s.job = .idle)
    (hs : s.stimuli = .wait :: rest) :
    ∃ t, s.Reaches t ∧ s.SameBlock t ∧ t.stimuli = rest := by
  obtain ⟨t, hst, hb, hl, hm⟩ := State.reaches_host_turn hj
  have hpoll := step_host_wait hm (hl.trans hs)
  rw [t.not_busy_iff.2 (hb.job.trans hj), if_neg Bool.false_ne_true] at hpoll
  exact ⟨_, hst.trans (.single hpoll), hb.trans (t.sameBlock_withWorld _ _ _), rfl⟩

/-- A word written to CMD while idle is accepted at the host's next turn
(40_command_lifecycle.md R121). -/
theorem State.reaches_acceptance {s : State} {w : Word} {rest : List Stimulus} (hj : s.job = .idle)
    (hs : s.stimuli = .txn (.writeReg .cmd w) :: rest) :
    ∃ t, s.Reaches t ∧ (s.accept w).SameBlock t ∧ t.stimuli = rest := by
  obtain ⟨t, hst, hb, hl, hm⟩ := State.reaches_host_turn hj
  have haccept := step_host_command hm (hb.job.trans hj) (hl.trans hs)
  exact ⟨_, hst.trans (.single haccept), (hb.accept w).trans (State.sameBlock_withWorld _ _ _ _),
    rfl⟩

/-- Settles O28: the word is accepted at the host's first turn, completes at the engine's first turn
after that, and the WAIT is over at the host's first turn after that; in between turns pass and
STATUS is polled, which leaves the block as it is. -/
theorem commandThenWaitIsScheduleIndependent :
    Obligations.CommandThenWaitIsScheduleIndependent := by
  unfold Obligations.CommandThenWaitIsScheduleIndependent
  intro s w rest hj hs
  obtain ⟨accepted, hrun₁, hblock₁, hl₁⟩ := State.reaches_acceptance hj hs
  obtain ⟨u, hu, hu'⟩ := completeWord_sameBlock w hblock₁
  obtain ⟨completed, hrun₂, hblock₂, hl₂⟩ := State.reaches_completion hblock₁.job hl₁ hu'
  have hblock₂ : u.SameBlock completed := (u.sameBlock_withWorld _ _ _).trans hblock₂
  have hidle : completed.job = .idle := hblock₂.job.trans (completeWord_job hu)
  obtain ⟨t, hrun₃, hblock₃, hl₃⟩ := State.reaches_wait_over hidle hl₂
  obtain ⟨k, hk⟩ := hrun₁.trans (hrun₂.trans hrun₃)
  exact ⟨k, t, u, hk, hl₃, hu, hblock₂.trans hblock₃⟩

end Sys2Proof.Machine
end

section
/-! PROOF. The state, register by register, and the invariant: what O4, O5, O6, O8, O13, O27, O54
and O55 rest on. -/

namespace Sys2Proof.Machine

/-! ### Completions -/

/-- The completion of any word, legal or not, has one of the two ends of a command. -/
theorem completeWord_shape (w : Word) (s : State) :
    (∃ e, e.code ≠ .none ∧ completeWord w s = .next (s.raise e)) ∨
    ∃ len bits T m out, completeWord w s = .next
      ({ s with tblLen := len, tblBits := bits, table := T, dmem := m }.complete .none 0 out) := by
  unfold completeWord
  cases decodeWord w with
  | ok i => exact exec_shape i s
  | error e => exact .inl ⟨⟨.illegalCmd, 0⟩, by simp, rfl⟩

/-! ### Registers that the host reads and writes -/

theorem State.ctrlWord_eq (s : State) : s.ctrlWord = if s.irqEn then 1#32 else 0#32 := by
  rw [State.ctrlWord, bitAt, BitVec.shiftLeft_zero]

/-- Every legal DMEM_SIZE fits in its register (10_state.md R26). -/
theorem State.toNat_ofNat_dmemSize (s : State) :
    (BitVec.ofNat 32 s.dmemSize.val).toNat = s.dmemSize.val := by
  rw [BitVec.toNat_ofNat]
  exact Nat.mod_eq_of_lt (s.dmemSize.property.2.trans_lt (by decide))

/-- Settles O4: the three registers are no storage, so that a write has nothing to change. -/
theorem identificationRegistersAreConstant : Obligations.IdentificationRegistersAreConstant := by
  unfold Obligations.IdentificationRegistersAreConstant
  intro s v
  exact ⟨s.busAccess_readReg .id, s.busAccess_readReg .param, by decide, by decide, by decide,
    by decide, s.busAccess_readReg .dmemSize, s.toNat_ofNat_dmemSize, s.busAccess_writeReg .id v,
    s.busAccess_writeReg .param v, s.busAccess_writeReg .dmemSize v⟩

/-- Settles O5: CTRL holds one field, at bit 0. -/
theorem ctrlStoresOnlyIrqEnable : Obligations.CtrlStoresOnlyIrqEnable := by
  unfold Obligations.CtrlStoresOnlyIrqEnable
  intro s v
  refine ⟨s.busAccess_writeReg .ctrl v, ?_, rfl⟩
  rw [s.busAccess_readReg, State.readReg, s.ctrlWord_eq]

/-- Bits 4 to 7 and 10 to 31 of STATUS are reserved (10_state.md R28). -/
theorem State.getLsbD_statusWord_reserved (s : State) {i : Nat} (hi : i ∉ [0, 1, 2, 3, 8, 9]) :
    s.statusWord.getLsbD i = false := by
  simp only [List.mem_cons, List.not_mem_nil, or_false, not_or] at hi
  obtain ⟨h0, h1, h2, h3, h8, h9⟩ := hi
  simp [State.getLsbD_statusWord, Ne.symm h0, Ne.symm h1, Ne.symm h2, Ne.symm h3, Ne.symm h8,
    Ne.symm h9]

theorem State.busy_iff_job_ne_idle (s : State) : s.busy = true ↔ s.job ≠ .idle := by
  rw [Ne, ← s.not_busy_iff, Bool.not_eq_false]

/-- Settles O6: each field's bit of STATUS is read off `getLsbD_statusWord`. -/
theorem statusReadsItsFieldsAndClearsByOne : Obligations.StatusReadsItsFieldsAndClearsByOne := by
  unfold Obligations.StatusReadsItsFieldsAndClearsByOne
  refine ⟨fun s => ⟨s.statusWord, s.busAccess_readReg .status, ?busy, ?done, ?err, ?irq, ?rejected,
    ?blocked, fun _ => s.getLsbD_statusWord_reserved⟩, fun s v => ⟨s.writeStatus v,
    s.busAccess_writeReg .status v, rfl, rfl, rfl, rfl⟩, by decide⟩
  case busy =>
    rw [State.getLsbD_statusWord]
    simp [State.busy_iff_job_ne_idle]
  case done | err | irq | rejected | blocked =>
    rw [State.getLsbD_statusWord]
    simp

/-! ### Operand registers -/

/-- The state with the value `v` in operand register `r`, cut to the width of the register
(10_state.md R38, R41). -/
def State.setOperand (s : State) (r : Reg) (v : Word) : State :=
  { s with
    srcAddr := if r = .srcAddr then v else s.srcAddr
    srcLen := if r = .srcLen then v else s.srcLen
    dstAddr := if r = .dstAddr then v else s.dstAddr
    dstCap := if r = .dstCap then v else s.dstCap
    tblLen := if r = .tblLen then v.setWidth 6 else s.tblLen
    tblBits := if r = .tblBits then v else s.tblBits }

theorem Reg.operand_cases {r : Reg} (hr : r.isOperand = true) :
    r = .srcAddr ∨ r = .srcLen ∨ r = .dstAddr ∨ r = .dstCap ∨ r = .tblLen ∨ r = .tblBits := by
  cases r <;> revert hr <;> decide

theorem State.writeReg_operand {r : Reg} (hr : r.isOperand = true) (s : State) (v : Word) :
    s.writeReg v r = s.writeOperand (s.setOperand r v) := by
  rcases Reg.operand_cases hr with rfl | rfl | rfl | rfl | rfl | rfl <;> rfl

theorem State.writeReg_operand_idle {r : Reg} (hr : r.isOperand = true) {s : State}
    (hb : s.busy = false) (v : Word) : s.writeReg v r = s.setOperand r v := by
  rw [State.writeReg_operand hr, State.writeOperand, hb, if_neg Bool.false_ne_true]

theorem State.writeReg_operand_busy {r : Reg} (hr : r.isOperand = true) {s : State}
    (hb : s.busy = true) (v : Word) : s.writeReg v r = s.blocked := by
  rw [State.writeReg_operand hr, State.writeOperand, if_pos hb]

theorem setWidth_six_setWidth (v : Word) : (v.setWidth 6).setWidth 32 = v &&& 0x3F#32 := by
  apply BitVec.eq_of_toNat_eq
  simp only [BitVec.toNat_setWidth, BitVec.toNat_and, BitVec.toNat_ofNat]
  rw [show 63 % 2 ^ 32 = 2 ^ 6 - 1 from rfl, Nat.and_two_pow_sub_one_eq_mod]
  omega

theorem State.readReg_setOperand_same {r : Reg} (hr : r.isOperand = true) (s : State) (v : Word) :
    (s.setOperand r v).readReg r = if r = .tblLen then v &&& 0x3F#32 else v := by
  rw [← setWidth_six_setWidth]
  rcases Reg.operand_cases hr with rfl | rfl | rfl | rfl | rfl | rfl <;> rfl

theorem State.readReg_setOperand_ne {r q : Reg} (hq : q ≠ r) (s : State) (v : Word) :
    (s.setOperand r v).readReg q = s.readReg q := by
  cases q with
  | srcAddr => exact if_neg hq.symm
  | srcLen => exact if_neg hq.symm
  | dstAddr => exact if_neg hq.symm
  | dstCap => exact if_neg hq.symm
  | tblLen => exact congrArg (BitVec.setWidth 32) (if_neg hq.symm)
  | tblBits => exact if_neg hq.symm
  | _ => rfl

theorem State.reset_readReg_operand {r : Reg} (hr : r.isOperand = true) :
    State.reset.readReg r = 0 := by
  rcases Reg.operand_cases hr with rfl | rfl | rfl | rfl | rfl | rfl <;> rfl

/-- Settles O8: a completion, in either shape, leaves the job parameters out of its update. -/
theorem operandRegistersStoreOnlyWhileIdle : Obligations.OperandRegistersStoreOnlyWhileIdle := by
  unfold Obligations.OperandRegistersStoreOnlyWhileIdle
  refine ⟨fun s r v hr => ⟨fun hb => ⟨s.setOperand r v, ?idle, s.readReg_setOperand_same hr v,
    fun _ hq => s.readReg_setOperand_ne hq v, rfl, rfl, rfl⟩, fun hb => ?busy,
    s.busAccess_readReg r, State.reset_readReg_operand hr⟩, fun w s => ?completion⟩
  case idle => rw [s.busAccess_writeReg, State.writeReg_operand_idle hr hb]
  case busy => rw [s.busAccess_writeReg, State.writeReg_operand_busy hr hb]; rfl
  case completion =>
    rcases completeWord_shape w s with ⟨e, -, h⟩ | ⟨_, _, _, _, _, h⟩ <;>
      exact ⟨_, h, rfl, rfl, rfl, rfl⟩

/-! ### The interrupt line -/

theorem completeWord_irq (w : Word) (s : State) :
    ∃ t, completeWord w s = .next t ∧ t.done = true ∧ t.irq = s.irqEn := by
  rcases completeWord_shape w s with ⟨e, -, h⟩ | ⟨_, _, _, _, _, h⟩ <;>
    exact ⟨_, h, rfl, Bool.and_true _⟩

/-- Settles O13: what each event does to DONE or IRQ_EN decides the line. -/
theorem interruptLineFollowsDone : Obligations.InterruptLineFollowsDone := by
  unfold Obligations.InterruptLineFollowsDone
  refine ⟨State.irq_eq, completeWord_irq, fun s v hv => ?clearDone, fun s v hv => ?clearIrqEn,
    fun s w hb => ?accepted, rfl⟩
  case clearDone =>
    rw [s.busAccess_writeReg, State.writeReg, State.irq_eq, State.writeStatus_done, hv]
    simp
  case clearIrqEn =>
    rw [s.busAccess_writeReg, State.writeReg, State.irq_eq, State.writeCtrl_irqEn, hv,
      Bool.false_and]
  case accepted =>
    rw [s.busAccess_writeReg, State.writeReg, State.submit_of_idle (s.not_busy_iff.1 hb),
      State.irq_eq, State.accept_done, Bool.and_false]

/-! ### The ends of ENCODE and DECODE -/

/-- How ENCODE and DECODE end: with an error, whose effect on DMEM stays in a destination that
passed its check (60_exceptions.md R253), or with bytes written from DST_ADDR on, at most DST_CAP of
them, and their number in OUT_LEN (42_encode.md R175, 43_decode.md R199). -/
inductive State.JobEnd (s : State) : Host.Outcome State Fault Refusal → Prop
  | error (e : JobError) (checked : e.code.spoilsDestination = true → s.RegionsOk) :
    s.JobEnd (.next (s.raise e))
  | success (bytes : List Byte) (regions : s.RegionsOk) (fits : bytes.length ≤ s.dstCap.toNat) :
    s.JobEnd (.next ({ s with dmem := s.dmem.writeBytes s.dstAddr.toNat bytes }.complete .none 0
      bytes.length))

/-- The region checks fail before the data pass, so their errors write nothing. -/
theorem State.regionError_not_spoils {s : State} {e : JobError} (h : s.regionError = some e) :
    e.code.spoilsDestination = false := by
  rcases State.regionError_eq_some h with ⟨rfl, -⟩ | ⟨rfl, -⟩ | ⟨rfl, -⟩ <;> rfl

/-- Neither do the errors of DECODE.V's validation pass. -/
theorem State.decodeCheck_not_spoils {s : State} {v : Bool} {e : JobError}
    (h : s.decodeCheck v = some e) : e.code.spoilsDestination = false := by
  unfold State.decodeCheck at h
  split at h
  next e' hr => cases h; exact State.regionError_not_spoils hr
  next =>
    split at h
    next =>
      obtain ⟨p, -, rfl⟩ := Option.map_eq_some_iff.1 h
      rfl
    next => cases h

/-- The checks of DECODE begin with the region checks (60_exceptions.md R252). -/
theorem State.regionsOk_of_decodeCheck {s : State} {v : Bool} (h : s.decodeCheck v = none) :
    s.RegionsOk := by
  refine (s.regionError_eq_none).1 ?_
  cases hr : s.regionError with
  | none => rfl
  | some e => simp [State.decodeCheck, hr] at h

/-- DECODE.V goes on behind its checks only when FindConflict finds no pair (43_decode.md
R191). -/
theorem State.prefixFree_of_decodeCheck {s : State} (h : s.decodeCheck true = none) :
    s.table.prefixFree := by
  have hr := (s.regionError_eq_none).2 (State.regionsOk_of_decodeCheck h)
  rw [← Table.findConflict_eq_none]
  simpa [State.decodeCheck, hr, State.validationError] using h

theorem execEncode_jobEnd (s : State) : s.JobEnd (execEncode s) := by
  cases hr : s.regionError with
  | some e =>
    rw [execEncode, hr]
    exact .error e fun h => by simp [State.regionError_not_spoils hr] at h
  | none =>
    have regions := (s.regionError_eq_none).1 hr
    rw [execEncode_eq regions]
    cases hl : s.table.encodeList s.dstCap.toNat s.sourceBytes 0 0 with
    | error e => exact .error e fun _ => regions
    | ok bits =>
      obtain ⟨-, hfit, rfl⟩ := (Table.encodeList_ok (Nat.zero_le _) bits).1 hl
      have hend := State.JobEnd.success ((s.table.codeOf s.sourceBytes).map bitChar) regions
        (by simpa using hfit)
      rw [List.length_map] at hend
      exact hend

theorem execDecode_jobEnd (v : Bool) (s : State) : s.JobEnd (execDecode v s) := by
  cases hc : s.decodeCheck v with
  | some e =>
    rw [execDecode, hc]
    exact .error e fun h => by simp [State.decodeCheck_not_spoils hc] at h
  | none =>
    have regions := State.regionsOk_of_decodeCheck hc
    rw [execDecode_eq regions fun hv => State.prefixFree_of_decodeCheck (hv ▸ hc)]
    cases hl : s.decodeList s.dstCap.toNat 0 0 with
    | error e => exact .error e fun _ => regions
    | ok ys => exact .success ys regions (State.decodeList_ok (Nat.zero_le _) hl).2.1

/-! ### The table -/

theorem State.JobEnd.table {s t : State} (h : s.JobEnd (.next t)) : t.table = s.table := by
  cases h <;> rfl

/-- Only TBL.CLEAR, TBL.WRITE and TBL.INVAL change the table (10_state.md R43). -/
theorem exec_table {i : Instr} {s t : State} (h : exec i s = .next t) : t.table = s.table ∨
    i = .tblClear ∨ (∃ x, i = .tblWrite x) ∨ ∃ x, i = .tblInval x := by
  cases i with
  | nop => cases h; exact .inl rfl
  | tblClear => exact .inr (.inl rfl)
  | tblWrite sym => exact .inr (.inr (.inl ⟨sym, rfl⟩))
  | tblInval sym => exact .inr (.inr (.inr ⟨sym, rfl⟩))
  | tblRead sym =>
    simp only [exec, execTblRead] at h
    split at h <;> cases h <;> exact .inl rfl
  | tblCheck =>
    simp only [exec, execTblCheck] at h
    split at h <;> cases h <;> exact .inl rfl
  | encode => exact .inl (State.JobEnd.table (h ▸ execEncode_jobEnd s))
  | decode v => exact .inl (State.JobEnd.table (h ▸ execDecode_jobEnd v s))

@[simp] theorem State.submit_table (s : State) (w : Word) : (s.submit w).table = s.table := by
  rw [State.submit, apply_ite State.table, State.reject_table, State.accept_table, ite_self]

/-- No transaction changes the table. -/
theorem State.transact_table (s : State) (t : Txn) : (s.transact t).table = s.table := by
  change (s.busAccess t).1.table = s.table
  rcases busAccess_cases s t with h | ⟨v, h⟩ | ⟨v, h⟩ | ⟨w, h⟩ | ⟨-, h⟩ |
    ⟨-, _, _, _, _, _, _, h⟩ | ⟨-, _, _, _, -, h⟩ <;> simp [h]

/-- Settles O27: of the steps that `step_cases` lists only a command's completion and the reset can
touch the table. -/
theorem tableChangesOnlyByItsCommandsAndReset :
    Obligations.TableChangesOnlyByItsCommandsAndReset := by
  unfold Obligations.TableChangesOnlyByItsCommandsAndReset
  intro s t h
  rcases step_cases s with hs | ⟨w, i, hm, hj, hi, hs⟩ | ⟨w, e, -, -, -, hs⟩ |
    ⟨x, rest, -, -, hs⟩ | ⟨rest, hm, hr, -⟩
  · cases hs.symm.trans h
    exact .inl rfl
  · exact (exec_table (hs.symm.trans h)).imp id fun hc => .inl ⟨hm, w, i, hj, hi, hc⟩
  · cases hs.symm.trans h
    exact .inl rfl
  · cases hs.symm.trans h
    exact .inl (State.transact_table _ x)
  · exact .inr (.inr ⟨hm, rest, hr⟩)

/-! ### The invariant: what an update has to keep -/

/-- Two states that differ in no field of which the invariant speaks. -/
def State.SameForInv (s t : State) : Prop :=
  t = { s with
    irqEn := t.irqEn, cmdRejected := t.cmdRejected, accessWhileBusy := t.accessWhileBusy,
    srcAddr := t.srcAddr, srcLen := t.srcLen, dstAddr := t.dstAddr, dstCap := t.dstCap,
    tblLen := t.tblLen, tblBits := t.tblBits, draw := t.draw, stimuli := t.stimuli,
    schedule := t.schedule, response := t.response }

theorem State.Inv.of_same {s t : State} (h : s.Inv) (hst : s.SameForInv t) : t.Inv := by
  rw [State.SameForInv] at hst
  rw [hst]
  exact ⟨h.memory_wf, h.memory_inside, h.table_wf, h.busy_clear, h.success_pos, h.error_out,
    h.out_le⟩

theorem Table.wf_setEntry {T : Table} (hT : T.wf) (x : Byte) {e : Entry} (he : e.wf = true) :
    (T.setEntry x e).wf := by
  intro y
  by_cases hy : y = x
  · rw [hy, Table.entry_setEntry_same, he]
  · rw [Table.entry_setEntry_ne T e hy, hT y]

theorem Table.wf_clear (T : Table) : Table.wf (T.map Entry.invalidate) := fun x => by simp

theorem Table.wf_atReset : Table.wf (Vector.replicate Config.nsym Entry.atReset) := fun x => by
  rw [Table.entry_replicate]; rfl

theorem State.inv_atReset (size : Config.DmemSize) (epoch : Nat) :
    (State.atReset size epoch).Inv where
  memory_wf := Memory.wf_atReset size epoch
  memory_inside := List.forall_mem_nil _
  table_wf := Table.wf_atReset
  busy_clear := nofun
  success_pos := fun _ => rfl
  error_out := fun _ => rfl
  out_le := Nat.zero_le _

/-- Settles O54: the reset state of the reference size is one of the states after a reset. -/
theorem invariantHoldsAfterReset : Obligations.InvariantHoldsAfterReset :=
  State.inv_atReset _ _

/-! ### The invariant: what a completion has to keep -/

/-- A completion writes the whole record, so the invariant after it asks for the memory and the
table, and for an output that fits and is 0 after an error. -/
theorem State.inv_complete {s : State} {code : ErrCode} {pos out : Nat} (hwf : s.dmem.wf)
    (hinside : s.dmem.Below s.dmemSize.val) (htable : s.table.wf)
    (herror : code ≠ .none → out = 0) (hfits : out ≤ s.dmemSize.val) :
    (s.complete code pos out).Inv where
  memory_wf := hwf
  memory_inside := hinside
  table_wf := htable
  busy_clear := nofun
  success_pos := fun h => if_pos h
  error_out := fun h => by rw [State.complete_outLen, herror h]; rfl
  out_le := by
    rw [State.complete_outLen, BitVec.toNat_ofNat]
    exact (Nat.mod_le _ _).trans hfits

theorem State.Inv.succeed {s : State} (h : s.Inv) : s.succeed.Inv :=
  State.inv_complete h.memory_wf h.memory_inside h.table_wf (fun _ => rfl) (Nat.zero_le _)

theorem State.Inv.withTable {s : State} (h : s.Inv) {T : Table} (hT : T.wf) :
    State.Inv { s with table := T } where
  __ := h
  table_wf := hT

theorem State.Inv.withTblRegs {s : State} (h : s.Inv) (len : BitVec 6) (bits : Word) :
    State.Inv { s with tblLen := len, tblBits := bits } := h.of_same rfl

theorem State.Inv.withDmem {s : State} (h : s.Inv) {m : Memory} (hwf : m.wf)
    (hinside : m.Below s.dmemSize.val) : State.Inv { s with dmem := m } where
  __ := h
  memory_wf := hwf
  memory_inside := hinside

theorem State.Inv.raise {s : State} (h : s.Inv) {e : JobError}
    (hdst : e.code.spoilsDestination = true → s.RegionsOk) : (s.raise e).Inv := by
  have hmem : (s.raise e).dmem.wf ∧ (s.raise e).dmem.Below s.dmemSize.val := by
    rw [State.raise_dmem]
    split
    next hspoils =>
      exact ⟨Memory.wf_spoil _ _ _ h.memory_wf,
        Memory.below_spoil _ h.memory_inside (hdst hspoils).dst_inside⟩
    next => exact ⟨h.memory_wf, h.memory_inside⟩
  exact State.inv_complete hmem.1 hmem.2 h.table_wf (fun _ => rfl) (Nat.zero_le _)

theorem State.JobEnd.inv {s t : State} (h : s.Inv) (hend : s.JobEnd (.next t)) : t.Inv := by
  cases hend with
  | error e checked => exact h.raise checked
  | success bytes regions fits =>
    have hroom : s.dstAddr.toNat + bytes.length ≤ s.dmemSize.val :=
      (Nat.add_le_add_left fits _).trans regions.dst_inside
    exact State.inv_complete (Memory.wf_writeBytes _ _ h.memory_wf)
      (Memory.below_writeBytes _ h.memory_inside hroom) h.table_wf (fun hne => absurd rfl hne)
      ((Nat.le_add_left _ _).trans hroom)

theorem exec_keeps_inv {i : Instr} {s t : State} (h : s.Inv) (ht : exec i s = .next t) :
    t.Inv := by
  cases i with
  | nop => cases ht; exact h.succeed
  | tblClear => cases ht; exact (h.withTable (Table.wf_clear _)).succeed
  | tblWrite sym =>
    simp only [exec, execTblWrite] at ht
    split at ht
    next => cases ht; exact h.raise nofun
    next hlen =>
      cases ht
      exact (h.withTable (Table.wf_setEntry h.table_wf sym
        (Entry.ofOperands_wf _ _ (by simpa using hlen)))).succeed
  | tblInval sym =>
    cases ht
    exact (h.withTable (Table.wf_setEntry h.table_wf sym (Entry.invalidate_wf _))).succeed
  | tblRead sym =>
    simp only [exec, execTblRead] at ht
    split at ht <;> cases ht <;> exact (h.withTblRegs _ _).succeed
  | tblCheck =>
    simp only [exec, execTblCheck] at ht
    split at ht
    next e he =>
      obtain ⟨p, -, rfl⟩ := Option.map_eq_some_iff.1 he
      cases ht
      exact h.raise nofun
    next => cases ht; exact h.succeed
  | encode => exact State.JobEnd.inv h (ht ▸ execEncode_jobEnd s)
  | decode v => exact State.JobEnd.inv h (ht ▸ execDecode_jobEnd v s)

/-! ### The invariant: steps of the host -/

theorem State.Inv.writeStatus {s : State} (h : s.Inv) (v : Word) : (s.writeStatus v).Inv where
  memory_wf := h.memory_wf
  memory_inside := h.memory_inside
  table_wf := h.table_wf
  busy_clear := fun hb => by
    obtain ⟨hdone, hrecord⟩ := h.busy_clear hb
    exact ⟨by rw [State.writeStatus_done, hdone, Bool.false_and], hrecord⟩
  success_pos := h.success_pos
  error_out := h.error_out
  out_le := h.out_le

theorem State.Inv.accept {s : State} (h : s.Inv) (w : Word) : (s.accept w).Inv where
  memory_wf := h.memory_wf
  memory_inside := h.memory_inside
  table_wf := h.table_wf
  busy_clear := fun _ => ⟨rfl, rfl, rfl⟩
  success_pos := fun _ => rfl
  error_out := fun _ => rfl
  out_le := Nat.zero_le _

theorem State.Inv.submit {s : State} (h : s.Inv) (w : Word) : (s.submit w).Inv := by
  unfold State.submit
  split
  · exact h.of_same rfl
  · exact h.accept w

theorem State.Inv.transact {s : State} (h : s.Inv) (t : Txn) : (s.transact t).Inv := by
  suffices hblock : (s.busAccess t).1.Inv from hblock.of_same rfl
  rcases busAccess_cases s t with he | ⟨v, he⟩ | ⟨v, he⟩ | ⟨w, he⟩ | ⟨-, he⟩ |
    ⟨-, _, _, _, _, _, _, he⟩ | ⟨-, a, n, v, hroom, he⟩ <;> rw [he]
  · exact h
  · exact h.of_same rfl
  · exact h.writeStatus v
  · exact h.submit w
  · exact h.of_same rfl
  · exact h.of_same rfl
  · exact h.withDmem (Memory.wf_writeLE _ _ _ h.memory_wf)
      (Memory.below_writeLE _ h.memory_inside hroom)

theorem State.inv_resetBlock (s : State) : s.resetBlock.Inv :=
  (State.inv_atReset s.dmemSize (s.draw + 1)).of_same rfl

/-- Settles O55, by the kinds of step that `step_cases` lists. -/
theorem everyStepKeepsTheInvariant : Obligations.EveryStepKeepsTheInvariant := by
  unfold Obligations.EveryStepKeepsTheInvariant
  intro s t h ht
  have hturn : s.afterTurn.Inv := h.of_same rfl
  rcases step_cases s with hs | ⟨w, i, -, -, -, hs⟩ | ⟨w, e, -, -, -, hs⟩ | ⟨x, rest, -, -, hs⟩ |
    ⟨rest, -, -, hs⟩
  · cases hs.symm.trans ht
    exact hturn
  · exact exec_keeps_inv hturn (hs.symm.trans ht)
  · cases hs.symm.trans ht
    exact hturn.raise nofun
  · cases hs.symm.trans ht
    exact (hturn.of_same rfl : State.Inv { s.afterTurn with stimuli := rest }).transact x
  · cases hs.symm.trans ht
    exact State.inv_resetBlock _

end Sys2Proof.Machine
end

section
/-! PROOF. The transactions of the host window, by what they reach, and the host's steps that issue
them: what O9, O10, O11, O12 and O60 rest on. -/

namespace Sys2Proof.Machine

/-! ### What a transaction reaches -/

/-- The transactions that 20_memory.md R61, R63 and R64 call illegal reach nothing. -/
theorem Txn.target_eq_illegal {t : Txn} {size : Config.DmemSize}
    (h : (t.off.toNat < 0x1000 ∧ ¬(t.size = .four ∧ t.off.toNat % 4 = 0)) ∨
      (0x1000 ≤ t.off.toNat ∧ t.off.toNat < 0x80000) ∨
      (0x80000 ≤ t.off.toNat ∧ ¬((t.off.toNat - 0x80000) % t.size.bytes = 0 ∧
        t.off.toNat - 0x80000 + t.size.bytes ≤ size.val))) :
    t.target size = .illegal := by
  unfold Txn.target
  rcases h with ⟨hreg, hmis⟩ | ⟨hlo, hhi⟩ | ⟨hlo, hmis⟩
  · rw [if_pos hreg, if_neg hmis]
  · rw [if_neg hlo.not_gt, if_pos hhi]
  · rw [if_neg (by unfold Config.registerRegion; omega), if_neg hlo.not_gt, if_neg hmis]

/-- A legal access of the DMEM window reaches its bytes (20_memory.md R62, R64). -/
theorem Txn.target_eq_dmem_of_legal {t : Txn} {size : Config.DmemSize} {a : Nat}
    (ho : t.off.toNat = 0x80000 + a) (halign : a % t.size.bytes = 0)
    (hfit : a + t.size.bytes ≤ size.val) : t.target size = .dmem a := by
  have ha : t.off.toNat - Config.dmemBase = a := by rw [ho, Nat.add_sub_cancel_left]
  unfold Txn.target
  rw [ha, if_neg (by rw [ho]; unfold Config.registerRegion; omega),
    if_neg (by rw [ho]; exact (Nat.le_add_right _ _).not_gt), if_pos ⟨halign, hfit⟩]

theorem Reg.ofOffset_eq_none {off : Nat} (h : off ∉ Reg.all.map Reg.offset) :
    Reg.ofOffset off = none := by
  refine List.find?_eq_none.2 fun r hr hoff => h ?_
  exact List.mem_map.2 ⟨r, hr, beq_iff_eq.1 hoff⟩

/-- An aligned word of the register region at no register's offset is reserved (10_state.md R23). -/
theorem Txn.target_eq_reserved (a : Access) {off : BitVec 20} (size : Config.DmemSize)
    (hreg : off.toNat < 0x1000) (halign : off.toNat % 4 = 0)
    (hoff : off.toNat ∉ Reg.all.map Reg.offset) :
    (Txn.mk a off .four).target size = .reserved := by
  unfold Txn.target
  rw [if_pos hreg, if_pos ⟨rfl, halign⟩, Reg.ofOffset_eq_none hoff]

/-! ### What it then does -/

section
variable {s : State} {t : Txn}

theorem State.busAccess_of_illegal (h : t.target s.dmemSize = .illegal) :
    s.busAccess t = (s, t.access.answer .error 0) := by
  rw [State.busAccess, h]

theorem State.busAccess_of_reserved (h : t.target s.dmemSize = .reserved) :
    s.busAccess t = (s, t.access.answer .ok 0) := by
  rw [State.busAccess, h]

theorem State.busAccess_read_register {r : Reg} (h : t.target s.dmemSize = .register r)
    (ht : t.access = .read) : s.busAccess t = (s, ⟨.ok, some (s.readReg r)⟩) := by
  simp only [State.busAccess, h, ht]

theorem State.busAccess_of_dmem {a : Nat} (h : t.target s.dmemSize = .dmem a) :
    s.busAccess t = s.accessDmem t a := by
  rw [State.busAccess, h]

theorem State.accessDmem_of_busy (hb : s.busy = true) (a : Nat) :
    s.accessDmem t a = (s.blocked, t.access.answer .ok 0) := by
  rw [State.accessDmem, if_pos hb]

theorem State.accessDmem_read (hb : s.busy = false) (a : Nat) (ht : t.access = .read) :
    s.accessDmem t a = (s, ⟨.ok, some (s.dmem.readLE a t.size.bytes)⟩) := by
  rw [State.accessDmem, hb, if_neg Bool.false_ne_true, ht]

theorem State.accessDmem_write (hb : s.busy = false) (a : Nat) {w : Word}
    (ht : t.access = .write w) :
    s.accessDmem t a = ({ s with dmem := s.dmem.writeLE a t.size.bytes w }, ⟨.ok, none⟩) := by
  rw [State.accessDmem, hb, if_neg Bool.false_ne_true, ht]

theorem Access.answer_status (a : Access) (st : BusStatus) (v : Word) :
    (a.answer st v).status = st := by
  cases a <;> rfl

end

/-- Settles O9: an illegal transaction reaches nothing, and is answered without the block. -/
theorem illegalTransactionsChangeNothing : Obligations.IllegalTransactionsChangeNothing := by
  unfold Obligations.IllegalTransactionsChangeNothing
  intro s t h
  have hbus := State.busAccess_of_illegal (Txn.target_eq_illegal h)
  exact ⟨fun ht => by rw [hbus, ht]; rfl, fun v ht => by rw [hbus, ht]; rfl⟩

/-! ### The register region -/

/-- An offset on the bus is a register's when its number is. -/
theorem Reg.busOffset_eq {r : Reg} {off : BitVec 20} (h : off.toNat = r.offset) :
    off = BitVec.ofNat 20 r.offset := by
  rw [← h, BitVec.ofNat_toNat, BitVec.setWidth_eq]

theorem State.writeReg_readOnly (s : State) (v : Word) {r : Reg}
    (hr : r ∈ [Reg.id, .param, .dmemSize, .errCode, .errPos, .outLen]) : s.writeReg v r = s := by
  simp only [List.mem_cons, List.not_mem_nil, or_false] at hr
  rcases hr with rfl | rfl | rfl | rfl | rfl | rfl <;> rfl

/-- Settles O10: the map's offsets are those of `Reg.offset`, and the other aligned offsets are
reserved. -/
theorem registerRegionAccesses : Obligations.RegisterRegionAccesses := by
  unfold Obligations.RegisterRegionAccesses
  refine ⟨fun s t hreg hmis => ?misaligned, fun p hp => ?mapped,
    fun s off v hreg halign hoff => ?reserved, fun s => ?fields,
    fun s v _ => s.writeReg_readOnly v⟩
  case misaligned =>
    rw [State.busAccess_of_illegal (Txn.target_eq_illegal (.inl ⟨hreg, hmis⟩)),
      Access.answer_status]
  case mapped =>
    have hoffset : p.2.offset = p.1 := by revert p; decide
    refine ⟨hoffset, fun s off v hoff => ?_⟩
    rw [Reg.busOffset_eq (hoff.trans hoffset.symm)]
    exact ⟨s.busAccess_readReg p.2, s.busAccess_writeReg p.2 v⟩
  case reserved =>
    have htarget (a : Access) := Txn.target_eq_reserved a s.dmemSize hreg halign hoff
    exact ⟨State.busAccess_of_reserved (htarget .read),
      State.busAccess_of_reserved (htarget (.write v))⟩
  case fields =>
    exact ⟨s.busAccess_readReg .cmd, s.busAccess_readReg .errPos, s.busAccess_readReg .outLen,
      s.busAccess_readReg .srcAddr, s.busAccess_readReg .srcLen, s.busAccess_readReg .dstAddr,
      s.busAccess_readReg .dstCap, s.busAccess_readReg .tblLen, s.busAccess_readReg .tblBits⟩

/-! ### The DMEM window -/

theorem Size.bytes_le_four (z : Size) : z.bytes ≤ 4 := by
  cases z <;> decide

/-- A little-endian read is zero-extended (20_memory.md R64). -/
theorem Memory.readLE_lt (m : Memory) (a n : Nat) : (m.readLE a n).toNat < 2 ^ (8 * n) := by
  refine Nat.lt_pow_two_of_testBit _ fun j hj => ?_
  rw [BitVec.testBit_toNat]
  by_cases hw : j < 32
  · rw [Memory.getLsbD_readLE m a n j hw, decide_eq_false (by omega), Bool.false_and]
  · exact BitVec.getLsbD_of_ge _ _ (by omega)

/-- Byte `i` of a little-endian read is the byte at its place (20_memory.md R64, R67). -/
theorem Memory.extractLsb'_readLE (m : Memory) (a : Nat) {n i : Nat} (hn : n ≤ 4) (hi : i < n) :
    (m.readLE a n).extractLsb' (8 * i) 8 = m.read (a + i) := by
  apply BitVec.eq_of_getLsbD_eq
  intro j hj
  have hdiv : (8 * i + j) / 8 = i := by omega
  have hmod : (8 * i + j) % 8 = j := by omega
  rw [BitVec.getLsbD_extractLsb', Memory.getLsbD_readLE m a n _ (by omega), hdiv, hmod]
  simp [hj, hi]

/-- Settles O11: a legal access is `accessDmem` at its DMEM offset, and the laws of little-endian
reads and writes say what that does. -/
theorem dmemWindowAccesses : Obligations.DmemWindowAccesses := by
  unfold Obligations.DmemWindowAccesses
  intro s t a ho
  refine ⟨fun hmis => ?illegal, fun halign hfit hb => ?blocked, fun halign hfit hb =>
    ⟨fun ht => ⟨s.dmem.readLE a t.size.bytes, ?read, Memory.readLE_lt _ _ _, fun i hi =>
      Memory.extractLsb'_readLE _ _ t.size.bytes_le_four hi⟩,
    fun w ht => ⟨s.dmem.writeLE a t.size.bytes w, ?write, fun i hi =>
      Memory.read_writeLE_inside _ _ _ _ hi, fun b hb => Memory.read_writeLE_outside _ _ hb⟩⟩⟩
  case illegal =>
    have hillegal : t.target s.dmemSize = .illegal :=
      Txn.target_eq_illegal (.inr (.inr ⟨by omega, by rwa [ho, Nat.add_sub_cancel_left]⟩))
    rw [State.busAccess_of_illegal hillegal]
    exact ⟨rfl, Access.answer_status _ _ _⟩
  case blocked =>
    rw [State.busAccess_of_dmem (Txn.target_eq_dmem_of_legal ho halign hfit),
      State.accessDmem_of_busy hb]
    exact ⟨rfl, Access.answer_status _ _ _, fun ht => by rw [ht]; rfl⟩
  case read =>
    rw [State.busAccess_of_dmem (Txn.target_eq_dmem_of_legal ho halign hfit),
      State.accessDmem_read hb a ht]
  case write =>
    rw [State.busAccess_of_dmem (Txn.target_eq_dmem_of_legal ho halign hfit),
      State.accessDmem_write hb a ht]

/-! ### Reads -/

/-- Settles O12: of all that a read can reach, only DMEM while BUSY is left changed, by the flag. -/
theorem readsHaveNoSideEffect : Obligations.ReadsHaveNoSideEffect := by
  unfold Obligations.ReadsHaveNoSideEffect
  intro s t ht
  cases htarget : t.target s.dmemSize with
  | illegal => exact .inl (by rw [State.busAccess_of_illegal htarget])
  | reserved => exact .inl (by rw [State.busAccess_of_reserved htarget])
  | register r => exact .inl (by rw [State.busAccess_read_register htarget ht])
  | dmem a =>
    rw [State.busAccess_of_dmem htarget]
    cases hb : s.busy with
    | false => exact .inl (by rw [State.accessDmem_read hb a ht])
    | true =>
      exact .inr ⟨rfl, (Txn.target_eq_dmem htarget).1, by rw [State.accessDmem_of_busy hb]; rfl⟩

/-! ### Steps of the host -/

theorem State.mover_of_schedule {s : State} {a : Agent} {rest : List Agent}
    (h : s.schedule = a :: rest) : s.mover = a := by
  rw [State.mover, h]

/-- Behind the end of the schedule the engine moves exactly while a job is pending
(40_command_lifecycle.md R120). -/
theorem State.mover_eq_engine_iff {s : State} (h : s.schedule = []) :
    s.mover = .engine ↔ s.busy = true := by
  rw [State.mover, h]
  cases s.busy <;> decide

theorem step_host_nothing_left {s : State} (hm : s.mover = .host) (hs : s.stimuli = []) :
    step s = .next s.afterTurn := by
  simp only [step, hm, hostStep, State.afterTurn_stimuli, hs]

/-- STATUS shows BUSY in bit 0 (10_state.md R28). -/
theorem State.statusWord_getLsbD_zero (s : State) : s.statusWord.getLsbD 0 = s.busy :=
  s.readsBusy_eq

/-- Settles O60: one rule of a turn for each clause. -/
theorem hostStepsPerformTheirTransactions : Obligations.HostStepsPerformTheirTransactions := by
  unfold Obligations.HostStepsPerformTheirTransactions
  intro s
  refine ⟨fun a rest => State.mover_of_schedule, State.mover_eq_engine_iff,
    fun t rest hm hs => ⟨_, _, rfl, step_host_txn hm hs⟩,
    fun rest hm hs => ⟨s.statusWord, s.busAccess_readReg .status, ?wait⟩,
    step_host_nothing_left, step_engine_idle⟩
  rw [step_host_wait hm hs, s.statusWord_getLsbD_zero]
  rfl

end Sys2Proof.Machine
end

section
/-! PROOF. The regions of ENCODE and DECODE: the checks that come first, and the bytes that a job
may write: what O38 and O39 rest on. -/

namespace Sys2Proof.Machine

/-! ### The region checks, each behind those before it -/

theorem State.regionError_of_src {s : State}
    (h : s.dmemSize.val < s.srcAddr.toNat + s.srcLen.toNat) :
    s.regionError = some ⟨.rangeError, 0⟩ := by
  have hsrc : s.srcOk = false := Bool.eq_false_iff.2 fun hok => h.not_ge (s.srcOk_iff.1 hok)
  rw [State.regionError, if_pos hsrc]

theorem State.regionError_of_dst {s : State}
    (hsrc : s.srcAddr.toNat + s.srcLen.toNat ≤ s.dmemSize.val)
    (h : s.dmemSize.val < s.dstAddr.toNat + s.dstCap.toNat) :
    s.regionError = some ⟨.rangeError, 1⟩ := by
  have hdst : s.dstOk = false := Bool.eq_false_iff.2 fun hok => h.not_ge (s.dstOk_iff.1 hok)
  rw [State.regionError, s.srcOk_iff.2 hsrc, if_neg nofun, if_pos hdst]

theorem State.regionError_of_overlap {s : State}
    (hsrc : s.srcAddr.toNat + s.srcLen.toNat ≤ s.dmemSize.val)
    (hdst : s.dstAddr.toNat + s.dstCap.toNat ≤ s.dmemSize.val) (h : s.overlap = true) :
    s.regionError = some ⟨.overlapError, 0⟩ := by
  rw [State.regionError, s.srcOk_iff.2 hsrc, if_neg nofun, s.dstOk_iff.2 hdst, if_neg nofun,
    if_pos h]

/-! ### An error found before the data pass -/

theorem Instr.job_cases {i : Instr} (hi : i ∈ [Instr.encode, .decode false, .decode true]) :
    i = .encode ∨ ∃ v, i = .decode v := by
  simp only [List.mem_cons, List.not_mem_nil, or_false] at hi
  rcases hi with rfl | rfl | rfl
  · exact .inl rfl
  · exact .inr ⟨false, rfl⟩
  · exact .inr ⟨true, rfl⟩

/-- What the jobs with regions do when a region check fails. -/
theorem exec_of_regionError {i : Instr} (hi : i ∈ [Instr.encode, .decode false, .decode true])
    {s : State} {e : JobError} (he : s.regionError = some e) :
    exec i s = .next (s.raise e) := by
  rcases Instr.job_cases hi with rfl | ⟨v, rfl⟩
  · rw [exec, execEncode, he]
  · rw [exec, execDecode, State.decodeCheck, he]

theorem State.raise_record (s : State) {e : JobError} (hcode : e.code ≠ .none)
    (hpos : e.pos < 2 ^ 32) : (s.raise e).Record e.code e.pos 0 where
  errCode := rfl
  errPos := by rw [State.raise_errPos, if_neg hcode, BitVec.toNat_ofNat, Nat.mod_eq_of_lt hpos]
  outLen := rfl
  done := rfl
  job := rfl

theorem State.raise_keepsControl (s : State) (e : JobError) : s.KeepsControl (s.raise e) :=
  ⟨rfl, rfl, rfl, rfl, rfl, rfl, rfl, rfl, rfl, rfl, rfl⟩

theorem State.raise_keepsDmem (s : State) {e : JobError} (h : e.code.spoilsDestination = false) :
    s.KeepsDmem (s.raise e) := fun a => by
  rw [State.raise_dmem, if_neg (ne_true_of_eq_false h)]

/-- A failing region check is all that the job does (60_exceptions.md R253). -/
theorem exec_regionError_frame {i : Instr}
    (hi : i ∈ [Instr.encode, .decode false, .decode true]) {s : State} {code : ErrCode} {pos : Nat}
    (he : s.regionError = some ⟨code, pos⟩) :
    ∃ t, exec i s = .next t ∧ t.Record code pos 0 ∧ s.KeepsControl t ∧ s.KeepsTblRegs t ∧
      t.table = s.table ∧ s.KeepsDmem t := by
  have hrecord : (s.raise ⟨code, pos⟩).Record code pos 0 := by
    rcases State.regionError_eq_some he with ⟨h, -⟩ | ⟨h, -⟩ | ⟨h, -⟩ <;> cases h <;>
      exact s.raise_record nofun (by decide)
  exact ⟨_, exec_of_regionError hi he, hrecord, s.raise_keepsControl _, ⟨rfl, rfl⟩, rfl,
    s.raise_keepsDmem (State.regionError_not_spoils he)⟩

/-- Settles O38: each clause is the check that fails first. -/
theorem regionErrorsComeFirst : Obligations.RegionErrorsComeFirst := by
  unfold Obligations.RegionErrorsComeFirst
  intro s i hi
  exact ⟨fun hsrc => exec_regionError_frame hi (State.regionError_of_src hsrc),
    fun hsrc hdst => exec_regionError_frame hi (State.regionError_of_dst hsrc hdst),
    fun hsrc hdst hshare => exec_regionError_frame hi
      (State.regionError_of_overlap hsrc hdst (s.overlap_iff.2 hshare))⟩

/-! ### The bytes that a job writes -/

theorem exec_jobEnd {i : Instr} (hi : i ∈ [Instr.encode, .decode false, .decode true])
    (s : State) : s.JobEnd (exec i s) := by
  rcases Instr.job_cases hi with rfl | ⟨v, rfl⟩
  · exact execEncode_jobEnd s
  · exact execDecode_jobEnd v s

theorem State.JobEnd.exists_next {s : State} {o : Host.Outcome State Fault Refusal}
    (h : s.JobEnd o) : ∃ t, o = .next t ∧ s.JobEnd (.next t) := by
  cases h with
  | error e checked => exact ⟨_, rfl, .error e checked⟩
  | success bytes regions fits => exact ⟨_, rfl, .success bytes regions fits⟩

theorem State.KeepsDmem.outside {s t : State} (h : s.KeepsDmem t) (a n : Nat) :
    s.KeepsDmemOutside t a n := fun b _ => h b

theorem State.raise_keepsDmemOutside (s : State) (e : JobError) :
    s.KeepsDmemOutside (s.raise e) s.dstAddr.toNat s.dstCap.toNat := by
  cases h : e.code.spoilsDestination with
  | false => exact (s.raise_keepsDmem h).outside _ _
  | true =>
    intro b hb
    rw [State.raise_dmem, if_pos h, Memory.read_spoil_outside _ _ hb]

/-- Settles O39: an error spoils the destination or nothing, and a success writes as many bytes as
OUT_LEN counts, which fit in DST_CAP. -/
theorem jobsWriteOnlyTheDestination : Obligations.JobsWriteOnlyTheDestination := by
  unfold Obligations.JobsWriteOnlyTheDestination
  intro s i hi
  obtain ⟨t, ht, hend⟩ := (exec_jobEnd hi s).exists_next
  refine ⟨t, ht, ?_⟩
  cases hend with
  | error e checked =>
    refine ⟨s.raise_keepsDmemOutside e, fun hcode => ?_, fun hcode => s.raise_keepsDmem ?_⟩
    · rw [State.raise_errCode] at hcode
      exact (s.raise_keepsDmem (by rw [hcode]; rfl)).outside _ _
    · rw [State.raise_errCode] at hcode
      revert hcode
      cases e.code <;> decide
  | success bytes regions fits =>
    have hlen : (BitVec.ofNat 32 bytes.length).toNat = bytes.length := by
      rw [BitVec.toNat_ofNat]
      exact Nat.mod_eq_of_lt (fits.trans_lt s.dstCap.isLt)
    refine ⟨fun b hb => Memory.read_writeBytes_outside _ _ (by omega), fun _ b hb => ?_, nofun⟩
    rw [State.complete_outLen, hlen] at hb
    exact Memory.read_writeBytes_outside _ _ hb

end Sys2Proof.Machine
end

section
/-! PROOF. Command words by their fields, decoder and encoder as inverses of each other, the opcode
map, and the assembler: what O14, O15, O16 and O17 rest on. -/

namespace Sys2Proof

/-! ### The fields of a command word -/

/-- The fields of a command word as digits of a number (30_encoding.md R90). -/
theorem toNat_commandWord (opc flags sym : Byte) :
    (commandWord opc flags sym).toNat = 2 ^ 24 * opc.toNat + 2 ^ 8 * flags.toNat + sym.toNat := by
  have happend {m n : Nat} (x : BitVec m) (y : BitVec n) :
      (x ++ y).toNat = 2 ^ n * x.toNat + y.toNat := by
    rw [BitVec.toNat_append, Nat.shiftLeft_eq, Nat.mul_comm, Nat.two_pow_add_eq_or_of_lt y.isLt]
  simp only [commandWord, happend, BitVec.toNat_zero]
  omega

section
variable (w : Word)

theorem toNat_opcField : (opcField w).toNat = w.toNat / 2 ^ 24 := by
  rw [opcField, BitVec.extractLsb'_toNat, Nat.shiftRight_eq_div_pow]
  omega

theorem toNat_rsvField : (rsvField w).toNat = w.toNat / 2 ^ 16 % 2 ^ 8 := by
  rw [rsvField, BitVec.extractLsb'_toNat, Nat.shiftRight_eq_div_pow]

theorem toNat_flagsField : (flagsField w).toNat = w.toNat / 2 ^ 8 % 2 ^ 8 := by
  rw [flagsField, BitVec.extractLsb'_toNat, Nat.shiftRight_eq_div_pow]

theorem toNat_symField : (symField w).toNat = w.toNat % 2 ^ 8 := by
  rw [symField, BitVec.extractLsb'_toNat, Nat.shiftRight_zero]

end

section
variable (opc flags sym : Byte)

@[simp] theorem opcField_commandWord : opcField (commandWord opc flags sym) = opc := by
  apply BitVec.eq_of_toNat_eq
  rw [toNat_opcField, toNat_commandWord]
  omega

@[simp] theorem rsvField_commandWord : rsvField (commandWord opc flags sym) = 0 := by
  apply BitVec.eq_of_toNat_eq
  rw [toNat_rsvField, toNat_commandWord, BitVec.ofNat_eq_ofNat, BitVec.toNat_zero]
  omega

@[simp] theorem flagsField_commandWord : flagsField (commandWord opc flags sym) = flags := by
  apply BitVec.eq_of_toNat_eq
  rw [toNat_flagsField, toNat_commandWord]
  omega

@[simp] theorem symField_commandWord : symField (commandWord opc flags sym) = sym := by
  apply BitVec.eq_of_toNat_eq
  rw [toNat_symField, toNat_commandWord]
  omega

end

/-- A word is a command word exactly when its fields are that command word's. -/
theorem commandWord_eq_iff {opc flags sym : Byte} {w : Word} :
    commandWord opc flags sym = w ↔
      opcField w = opc ∧ rsvField w = 0 ∧ flagsField w = flags ∧ symField w = sym := by
  constructor
  · rintro rfl
    simp
  · rintro ⟨rfl, hrsv, rfl, rfl⟩
    have hrsv : w.toNat / 2 ^ 16 % 2 ^ 8 = 0 := by rw [← toNat_rsvField, hrsv]; rfl
    apply BitVec.eq_of_toNat_eq
    rw [toNat_commandWord, toNat_opcField, toNat_flagsField, toNat_symField]
    omega

/-- V is the low bit of FLAGS (30_encoding.md R91), so it is all of FLAGS when the bits [7:1] are
0. -/
theorem flagsField_eq_of_and {w : Word} (h : flagsField w &&& 0xFE#8 = 0) :
    flagsField w = if vField w then 0x01 else 0x00 := by
  have hv : vField w = (flagsField w).getLsbD 0 := by
    rw [flagsField, BitVec.getLsbD_extractLsb', vField]
    rfl
  rw [hv]
  generalize flagsField w = flags at h
  revert flags
  decide

/-! ### Decoder and encoder -/

@[simp] theorem encode_decode (v : Bool) :
    encode (.decode v) = commandWord 0x11 (if v then 0x01 else 0x00) 0x00 := by
  cases v <;> rfl

section
variable {w : Word} {opc : Byte} {j : Instr}

/-- What the decoder accepts as a command without operand fields is that command's word. -/
theorem encode_of_decodePlain {i : Instr} (hopc : opcField w = opc)
    (hi : encode i = commandWord opc 0 0) (h : decodePlain w i = .ok j) : encode j = w := by
  unfold decodePlain at h
  split_ifs at h with hrsv hflags hsym
  cases h
  rw [hi, commandWord_eq_iff]
  exact ⟨hopc, not_not.1 hrsv, not_not.1 hflags, not_not.1 hsym⟩

/-- What the decoder accepts as a command with the operand SYM is that command's word. -/
theorem encode_of_decodeSym {i : Byte → Instr} (hopc : opcField w = opc)
    (hi : ∀ x, encode (i x) = commandWord opc 0 x) (h : decodeSym w i = .ok j) : encode j = w := by
  unfold decodeSym at h
  split_ifs at h with hrsv hflags
  cases h
  rw [hi, commandWord_eq_iff]
  exact ⟨hopc, not_not.1 hrsv, not_not.1 hflags, rfl⟩

/-- What the decoder accepts as DECODE is the word of DECODE with the same V. -/
theorem encode_of_decodeFlagV (hopc : opcField w = 0x11) (h : decodeFlagV w .decode = .ok j) :
    encode j = w := by
  unfold decodeFlagV at h
  split_ifs at h with hrsv hflags hsym
  cases h
  rw [encode_decode, commandWord_eq_iff]
  exact ⟨hopc, not_not.1 hrsv, flagsField_eq_of_and (not_not.1 hflags), not_not.1 hsym⟩

end

/-- A word that decodes is the word of its command. -/
theorem encode_of_decodeWord {w : Word} {i : Instr} (h : decodeWord w = .ok i) : encode i = w := by
  unfold decodeWord at h
  split_ifs at h with hnop hclear hwrite hinval hread hcheck hencode hdecode
  · exact encode_of_decodePlain hnop rfl h
  · exact encode_of_decodePlain hclear rfl h
  · exact encode_of_decodeSym hwrite (fun _ => rfl) h
  · exact encode_of_decodeSym hinval (fun _ => rfl) h
  · exact encode_of_decodeSym hread (fun _ => rfl) h
  · exact encode_of_decodePlain hcheck rfl h
  · exact encode_of_decodePlain hencode rfl h
  · exact encode_of_decodeFlagV hdecode h

/-- Decoding the word of a command gives the command back. -/
theorem decodeWord_encode (i : Instr) : decodeWord (encode i) = .ok i := by
  cases i with
  | nop | tblClear | tblCheck | encode => decide
  | decode v => cases v <;> decide
  | tblWrite x | tblInval x | tblRead x => simp [encode, decodeWord, decodeSym]

/-- Settles O14: both halves are read off the fields of the word. -/
theorem decodeAndEncodeAgree : Obligations.DecodeAndEncodeAgree := by
  unfold Obligations.DecodeAndEncodeAgree
  exact ⟨fun i _ => decodeWord_encode i, fun _ _ => encode_of_decodeWord⟩

/-! ### The opcode map -/

/-- A masked word is a command word exactly when its masked fields are that command word's. -/
theorem and_eq_commandWord_iff {w m : Word} {opc flags : Byte} :
    w &&& m = commandWord opc flags 0 ↔ opcField w &&& opcField m = opc ∧
      rsvField w &&& rsvField m = 0 ∧ flagsField w &&& flagsField m = flags ∧
      symField w &&& symField m = 0 := by
  rw [eq_comm, commandWord_eq_iff]
  simp only [opcField, rsvField, flagsField, symField, BitVec.extractLsb'_and]

theorem eq_of_and_allOnes {n : Nat} {x y : BitVec n} (h : x &&& BitVec.allOnes n = y) : x = y :=
  BitVec.and_allOnes.symm.trans h

/-- A row whose mask leaves out SYM matches the words with any symbol in that field. -/
theorem commandWord_eq_of_and_sym {w : Word} {opc : Byte}
    (h : w &&& 0xFFFFFF00#32 = commandWord opc 0 0) : commandWord opc 0 (symField w) = w := by
  obtain ⟨hopc, hrsv, hflags, -⟩ := and_eq_commandWord_iff.1 h
  exact commandWord_eq_iff.2 ⟨eq_of_and_allOnes hopc, eq_of_and_allOnes hrsv,
    eq_of_and_allOnes hflags, rfl⟩

/-- The row of DECODE matches the two words of DECODE. -/
theorem encode_decode_eq_of_and_flagV {w : Word}
    (h : w &&& 0xFFFFFEFF#32 = 0x11000000#32) : encode (.decode (vField w)) = w := by
  obtain ⟨hopc, hrsv, hflags, hsym⟩ :=
    and_eq_commandWord_iff.1 (h.trans (show _ = commandWord 0x11 0 0 from rfl))
  rw [encode_decode, commandWord_eq_iff]
  exact ⟨eq_of_and_allOnes hopc, eq_of_and_allOnes hrsv, flagsField_eq_of_and hflags,
    eq_of_and_allOnes hsym⟩

/-- A word that matches a row is the word of a command of that row. -/
theorem exists_encode_of_matchesWord {w : Word} {r : OpcodeRow} (hr : r ∈ opcodeMap)
    (h : r.matchesWord w = true) : ∃ i, encode i = w ∧ i.mnemonic = r.mnemonic := by
  have h : w &&& r.mask = r.pattern := beq_iff_eq.1 h
  simp only [opcodeMap, List.mem_cons, List.not_mem_nil, or_false] at hr
  rcases hr with rfl | rfl | rfl | rfl | rfl | rfl | rfl | rfl
  · exact ⟨.nop, (eq_of_and_allOnes h).symm, rfl⟩
  · exact ⟨.tblClear, (eq_of_and_allOnes h).symm, rfl⟩
  · exact ⟨.tblWrite (symField w), commandWord_eq_of_and_sym h, rfl⟩
  · exact ⟨.tblInval (symField w), commandWord_eq_of_and_sym h, rfl⟩
  · exact ⟨.tblRead (symField w), commandWord_eq_of_and_sym h, rfl⟩
  · exact ⟨.tblCheck, (eq_of_and_allOnes h).symm, rfl⟩
  · exact ⟨.encode, (eq_of_and_allOnes h).symm, rfl⟩
  · exact ⟨.decode (vField w), encode_decode_eq_of_and_flagV h, rfl⟩

/-- The word of every command matches the row of its mnemonic. -/
theorem exists_row_of_encode (i : Instr) : Laws.EncodesInRow.Statement i := by
  cases i with
  | nop => exact Laws.EncodesInRow.nop
  | tblClear => exact Laws.EncodesInRow.tblClear
  | tblWrite sym => exact Laws.EncodesInRow.tblWrite sym
  | tblInval sym => exact Laws.EncodesInRow.tblInval sym
  | tblRead sym => exact Laws.EncodesInRow.tblRead sym
  | tblCheck => exact Laws.EncodesInRow.tblCheck
  | encode => exact Laws.EncodesInRow.encode
  | decode v => exact Laws.EncodesInRow.decode v

theorem legalWord_encode (i : Instr) : legalWord (encode i) = true := by
  obtain ⟨r, hr, -, hmatch⟩ := exists_row_of_encode i
  exact List.any_eq_true.2 ⟨r, hr, hmatch⟩

/-- No mnemonic stands in two rows of the map. -/
theorem opcodeMap_mnemonic_injective :
    ∀ r ∈ opcodeMap, ∀ q ∈ opcodeMap, r.mnemonic = q.mnemonic → r = q := by
  decide

/-- Settles O15: a row matches the words of its commands and no others, so the decoder decides as
the map does, and two rows that match one word carry the mnemonic of its one command. -/
theorem opcodeMapDecidesLegality : Obligations.OpcodeMapDecidesLegality := by
  unfold Obligations.OpcodeMapDecidesLegality
  have hdecode (w : Word) (r : OpcodeRow) (hr : r ∈ opcodeMap) (h : r.matchesWord w = true) :
      ∃ i, decodeWord w = .ok i ∧ i.mnemonic = r.mnemonic := by
    obtain ⟨i, rfl, hi⟩ := exists_encode_of_matchesWord hr h
    exact ⟨i, decodeWord_encode i, hi⟩
  refine ⟨hdecode, fun w hillegal => ?illegal, fun w r q hr hq hrw hqw => ?overlap⟩
  case illegal =>
    cases h : decodeWord w with
    | error e => exact ⟨e, rfl⟩
    | ok i =>
      rw [← encode_of_decodeWord h, legalWord_encode] at hillegal
      cases hillegal
  case overlap =>
    obtain ⟨i, hi, hir⟩ := hdecode w r hr hrw
    obtain ⟨j, hj, hjq⟩ := hdecode w q hq hqw
    cases hi.symm.trans hj
    exact opcodeMap_mnemonic_injective r hr q hq (hir.symm.trans hjq)

end Sys2Proof

namespace Sys2Proof.Machine

/-! ### The assembler -/

/-- A symbol operand stands in the low byte of its command's word. -/
theorem commandWord_sym (opc sym : Byte) :
    commandWord opc 0x00 sym = commandWord opc 0x00 0x00 ||| sym.setWidth 32 := by
  apply BitVec.eq_of_getLsbD_eq
  intro j hj
  simp only [commandWord, BitVec.getLsbD_or, BitVec.getLsbD_append, BitVec.getLsbD_setWidth]
  by_cases h : j < 8
  · simp [h, hj]
  · simp [h, BitVec.getLsbD_of_ge sym j (Nat.le_of_not_lt h)]

theorem assemble_map_toLower (cs : List Char) (x : Option Byte) :
    assemble (cs.map Char.toLower) x = assemble cs x := by
  simp only [assemble, List.map_map, Function.comp_def, Char.toUpper_toLower_eq_toUpper]

/-- Settles O16: the words of the examples are those of the encoder, which the decoder inverts; each
illegal word is refused at its first bad field. -/
theorem encodingExamplesDecode : Obligations.EncodingExamplesDecode := by
  unfold Obligations.EncodingExamplesDecode
  exact ⟨rfl, rfl, rfl, rfl, decodeWord_encode (.tblWrite (byteOfChar 'a')),
    decodeWord_encode (.tblRead (byteOfChar 'd')), decodeWord_encode (.tblInval 255),
    decodeWord_encode (.decode true), by decide, by decide, by decide, by decide, by decide⟩

/-- Settles O17: each mnemonic is a row of `assembleUpper`, and folding a letter to lower case first
does not change the upper case that it is folded to. -/
theorem assemblerMnemonicsGiveTheirWords : Obligations.AssemblerMnemonicsGiveTheirWords := by
  unfold Obligations.AssemblerMnemonicsGiveTheirWords
  refine ⟨rfl, rfl, fun x => ?_, fun x => ?_, fun x => ?_, rfl, rfl, rfl, rfl,
    assemble_map_toLower, fun w => rfl⟩
  · exact congrArg some (commandWord_sym 0x02 x)
  · exact congrArg some (commandWord_sym 0x03 x)
  · exact congrArg some (commandWord_sym 0x04 x)

end Sys2Proof.Machine
end

section
/-! PROOF. Codewords as the operands of TBL.WRITE, and the run of TBL.LOAD: what O18 and O59 rest
on. -/

namespace Sys2Proof.Machine

/-! ### The layout of a codeword -/

theorem Codeword.length_of_wellFormed {cw : Codeword} (h : Codeword.wellFormed cw = true) :
    1 ≤ cw.length ∧ cw.length ≤ 32 := by
  simpa [Codeword.wellFormed] using h

/-- The value of a codeword as the sum of its digits (30_encoding.md R96). -/
theorem Codeword.value_eq_sum (cw : Codeword) :
    Codeword.value cw = ((List.range cw.length).map fun j =>
      (cw.getD j false).toNat * 2 ^ (cw.length - 1 - j)).sum := by
  induction cw with
  | nil => rfl
  | cons b cw ih =>
    rw [Codeword.value_cons, ih, List.length_cons, List.range_succ_eq_map, List.map_cons,
      List.sum_cons, List.map_map]
    simp [Function.comp_def, Nat.sub_sub, Nat.add_comm]

section
variable {cw : Codeword} (h : Codeword.wellFormed cw = true)
include h

/-- A codeword of at most 32 bits fits in a register. -/
theorem Codeword.toNat_bits : (Codeword.bits cw).toNat = Codeword.value cw := by
  obtain ⟨-, hle⟩ := Codeword.length_of_wellFormed h
  rw [Codeword.bits, BitVec.toNat_ofNat]
  exact Nat.mod_eq_of_lt ((Codeword.value_lt cw).trans_le (Nat.pow_le_pow_right (by decide) hle))

theorem Codeword.getLsbD_bits (j : Nat) (hj : j < cw.length) :
    (Codeword.bits cw).getLsbD (cw.length - 1 - j) = cw[j] := by
  rw [← BitVec.testBit_toNat, Codeword.toNat_bits h]
  exact Codeword.testBit_value cw j hj

theorem Codeword.getLsbD_bits_of_ge (j : Nat) (hj : cw.length ≤ j) :
    (Codeword.bits cw).getLsbD j = false := by
  rw [← BitVec.testBit_toNat, Codeword.toNat_bits h]
  exact Nat.testBit_lt_two_pow
    ((Codeword.value_lt cw).trans_le (Nat.pow_le_pow_right (by decide) hj))

theorem Codeword.toNat_length : (BitVec.ofNat 6 cw.length).toNat = cw.length := by
  obtain ⟨-, hle⟩ := Codeword.length_of_wellFormed h
  rw [BitVec.toNat_ofNat]
  omega

/-- The entry that TBL.WRITE stores from a codeword's operands holds the codeword. -/
theorem Entry.codeword_ofOperands :
    (Entry.ofOperands (BitVec.ofNat 6 cw.length) (Codeword.bits cw)).codeword = cw := by
  obtain ⟨-, hle⟩ := Codeword.length_of_wellFormed h
  have hlen := Codeword.toNat_length h
  refine List.ext_getElem ((Entry.length_codeword _).trans hlen) fun j _ hj => ?_
  rw [Entry.getElem_codeword, Entry.length, Entry.ofOperands, hlen, BitVec.getLsbD_and,
    getLsbD_lowMask _ _ hle, Codeword.getLsbD_bits h j hj, decide_eq_true (by omega), Bool.and_true]

/-- TBL.WRITE accepts the length of a codeword (41_codebook_table.md R142). -/
theorem Codeword.badLength_eq_false : badLength (BitVec.ofNat 6 cw.length) = false := by
  obtain ⟨hpos, hle⟩ := Codeword.length_of_wellFormed h
  rw [badLength, Codeword.toNat_length h, beq_false_of_ne (by omega), Bool.false_or]
  exact decide_eq_false hle.not_gt

end

/-- Settles O18: bit and value of the numeral are those of `Codeword.value`, which fits in 32
bits. -/
theorem codewordLayoutIsMostSignificantFirst :
    Obligations.CodewordLayoutIsMostSignificantFirst := by
  unfold Obligations.CodewordLayoutIsMostSignificantFirst
  intro cw h
  exact ⟨Codeword.getLsbD_bits h, Codeword.getLsbD_bits_of_ge h,
    (Codeword.toNat_bits h).trans (Codeword.value_eq_sum cw), Entry.codeword_ofOperands h⟩

/-! ### TBL.LOAD -/

theorem completeWord_encode (i : Instr) (s : State) : completeWord (encode i) s = exec i s := by
  rw [completeWord, decodeWord_encode]

/-- TBL.WRITE of a codeword's operands succeeds and changes the one entry
(41_codebook_table.md R142). -/
theorem exec_tblWrite_codeword {s : State} {cw : Codeword} (h : Codeword.wellFormed cw = true)
    (hlen : s.tblLen = BitVec.ofNat 6 cw.length) (hbits : s.tblBits = Codeword.bits cw) (x : Byte) :
    exec (.tblWrite x) s = .next { s with
      table := s.table.setEntry x
        (.ofOperands (BitVec.ofNat 6 cw.length) (Codeword.bits cw)) }.succeed := by
  rw [exec, execTblWrite, hlen, hbits, Codeword.badLength_eq_false h, if_neg Bool.false_ne_true]

theorem State.succeed_record (s : State) : s.succeed.Record .none 0 0 := ⟨rfl, rfl, rfl, rfl, rfl⟩

theorem State.SameBlock.table {s t : State} (h : s.SameBlock t) : t.table = s.table := by
  rw [h.eq_withWorld, State.withWorld_table]

theorem State.SameBlock.dmem {s t : State} (h : s.SameBlock t) : t.dmem = s.dmem := by
  rw [h.eq_withWorld, State.withWorld_dmem]

theorem State.SameBlock.tblLen {s t : State} (h : s.SameBlock t) : t.tblLen = s.tblLen := by
  rw [h.eq_withWorld, State.withWorld_tblLen]

theorem State.SameBlock.tblBits {s t : State} (h : s.SameBlock t) : t.tblBits = s.tblBits := by
  rw [h.eq_withWorld]; rfl

theorem State.SameBlock.record {s t : State} {code : ErrCode} {pos out : Nat} (h : s.SameBlock t)
    (hs : s.Record code pos out) : t.Record code pos out := by
  rw [h.eq_withWorld]
  exact ⟨hs.errCode, hs.errPos, hs.outLen, hs.done, hs.job⟩

theorem State.SameBlock.setOperand {s t : State} (h : s.SameBlock t) (r : Reg) (v : Word) :
    (s.setOperand r v).SameBlock (t.setOperand r v) := by
  rw [h.eq_withWorld]; rfl

/-- A write of an operand register while idle is stored at the host's next turn
(10_state.md R38). -/
theorem State.reaches_operand_write {s : State} {r : Reg} {v : Word} {rest : List Stimulus}
    (hr : r.isOperand = true) (hj : s.job = .idle) (hs : s.stimuli = .wr r v :: rest) :
    ∃ t, s.Reaches t ∧ (s.setOperand r v).SameBlock t ∧ t.stimuli = rest := by
  obtain ⟨t, hst, hb, hl, hm⟩ := State.reaches_host_turn hj
  have hidle : (t.withWorld rest t.schedule.tail t.response).busy = false :=
    t.not_busy_iff.2 (hb.job.trans hj)
  have hstep := step_host_txn hm (hl.trans hs)
  rw [State.transact_writeReg, State.writeReg_operand_idle hr hidle] at hstep
  exact ⟨_, hst.trans (.single hstep),
    (hb.setOperand r v).trans (State.sameBlock_withWorld _ _ _ _), rfl⟩

/-- Settles O59: the two operand writes are stored at two turns of the host, and O28 says what the
TBL.WRITE and the WAIT behind them lead to. -/
theorem tblLoadStoresTheCodeword : Obligations.TblLoadStoresTheCodeword := by
  unfold Obligations.TblLoadStoresTheCodeword
  intro s x cw rest hj hcw hs
  obtain ⟨t₁, hrun₁, hblock₁, hl₁⟩ := State.reaches_operand_write (r := .tblLen) rfl hj hs
  obtain ⟨t₂, hrun₂, hstored, hl₂⟩ :=
    State.reaches_operand_write (r := .tblBits) rfl (hblock₁.job.trans hj) hl₁
  have hblock₂ := (hblock₁.setOperand .tblBits _).trans hstored
  have hlen : t₂.tblLen = (BitVec.ofNat 32 cw.length).setWidth 6 := hblock₂.tblLen
  rw [BitVec.setWidth_ofNat_of_le (by decide)] at hlen
  obtain ⟨k, t, u, hrun₃, hl₃, hu, hblock₃⟩ :=
    commandThenWaitIsScheduleIndependent t₂ _ rest (hblock₂.job.trans hj) hl₂
  rw [completeWord_encode] at hu
  cases (exec_tblWrite_codeword (s := t₂.accept _) hcw hlen hblock₂.tblBits x).symm.trans hu
  have htable : t.table = t₂.table.setEntry x _ := hblock₃.table
  rw [hblock₂.table] at htable
  obtain ⟨n, hn⟩ := hrun₁.trans (hrun₂.trans ⟨k, hrun₃⟩)
  refine ⟨n, t, hn, hl₃, hblock₃.record (State.succeed_record _), ?valid, ?codeword,
    fun y hy => ?others, fun a => ?dmem⟩
  case valid => rw [htable, Table.entry_setEntry_same]; rfl
  case codeword => rw [htable, Table.entry_setEntry_same, Entry.codeword_ofOperands hcw]
  case others => rw [htable, Table.entry_setEntry_ne _ _ hy]; rfl
  case dmem => rw [hblock₃.dmem]; exact congrArg (·.read a) hblock₂.dmem

end Sys2Proof.Machine
end

section
/-! PROOF. The life of a command: its acceptance and rejection, its completion, and the end of a
pending job: what O19 to O23, O25 and O29 rest on. -/

namespace Sys2Proof.Machine

/-! ### Acceptance and rejection -/

theorem State.submit_of_busy {s : State} (hb : s.busy = true) (w : Word) :
    s.submit w = s.reject := by
  rw [State.submit, if_pos hb]

/-- Settles O19: a write of CMD submits its word, and an idle block accepts what is submitted. -/
theorem cmdWriteWhileIdleIsAccepted : Obligations.CmdWriteWhileIdleIsAccepted := by
  unfold Obligations.CmdWriteWhileIdleIsAccepted
  intro s w hb
  rw [s.busAccess_writeReg, State.writeReg, State.submit_of_idle (s.not_busy_iff.1 hb)]
  rfl

/-- Settles O20: a write of CMD submits its word, and a busy block rejects what is submitted. -/
theorem cmdWriteWhileBusyIsRejected : Obligations.CmdWriteWhileBusyIsRejected := by
  unfold Obligations.CmdWriteWhileBusyIsRejected
  intro s w hb
  rw [s.busAccess_writeReg, State.writeReg, State.submit_of_busy hb]
  rfl

/-! ### The engine's step for a legal and for an illegal word -/

theorem completeWord_legal {w : Word} {i : Instr} (hi : decodeWord w = .ok i) (s : State) :
    completeWord w s = exec i s := by
  rw [completeWord, hi]

theorem completeWord_illegal {w : Word} (hw : legalWord w = false) (s : State) :
    completeWord w s = .next (s.raise ⟨.illegalCmd, 0⟩) := by
  obtain ⟨-, hillegal, -⟩ := opcodeMapDecidesLegality
  obtain ⟨e, he⟩ := hillegal w hw
  rw [completeWord, he, execIllegal]

/-- Settles O21: the engine's step completes the pending word, which is the word of `i`. -/
theorem stepRunsTheDecodedCommand : Obligations.StepRunsTheDecodedCommand := by
  unfold Obligations.StepRunsTheDecodedCommand
  intro s w i hm hj hi
  rw [step_engine_pending hm hj, completeWord_legal hi, State.afterTurn]

/-- Settles O22: the engine's step raises ILLEGAL_CMD, an error that leaves DMEM alone. -/
theorem illegalWordsCompleteWithIllegalCmd : Obligations.IllegalWordsCompleteWithIllegalCmd := by
  unfold Obligations.IllegalWordsCompleteWithIllegalCmd
  intro s w hw hm hj
  exact ⟨_, (step_engine_pending hm hj).trans (completeWord_illegal hw _),
    s.afterTurn.raise_record nofun (by decide), s.afterTurn.raise_keepsControl _, ⟨rfl, rfl⟩, rfl,
    rfl⟩

/-! ### What a completion writes and keeps -/

/-- What every completion of a command in `s` leaves in `t`: the record that
40_command_lifecycle.md R124 and 10_state.md R39 allow, and everything else that no command
changes. -/
structure State.Completed (s t : State) : Prop where
  done : t.done = true
  job : t.job = .idle
  success_pos : t.errCode = .none → t.errPos = 0
  error_out : t.errCode ≠ .none → t.outLen = 0
  out_le : t.outLen.toNat ≤ s.dstCap.toNat
  control : s.KeepsControl t

/-- A completion keeps to the rules of the record if its output fits and is 0 after an error. -/
theorem State.KeepsControl.completed {s t : State} (h : s.KeepsControl t) {code : ErrCode}
    {pos out : Nat} (herror : code ≠ .none → out = 0) (hfits : out ≤ s.dstCap.toNat) :
    s.Completed (t.complete code pos out) where
  done := rfl
  job := rfl
  success_pos := fun hcode => if_pos hcode
  error_out := fun hcode => by rw [State.complete_outLen, herror hcode]; rfl
  out_le := by
    rw [State.complete_outLen, BitVec.toNat_ofNat]
    exact (Nat.mod_le _ _).trans hfits
  control := { h with }

/-- The fields that a command may write before its completion are not among those it keeps. -/
theorem State.keepsControl_contents (s : State) (len : BitVec 6) (bits : Word) (T : Table)
    (m : Memory) :
    s.KeepsControl { s with tblLen := len, tblBits := bits, table := T, dmem := m } :=
  ⟨rfl, rfl, rfl, rfl, rfl, rfl, rfl, rfl, rfl, rfl, rfl⟩

theorem State.completed_raise (s : State) (e : JobError) : s.Completed (s.raise e) :=
  (s.keepsControl_contents _ _ _ _).completed (fun _ => rfl) (Nat.zero_le _)

theorem State.completed_succeed (s : State) (len : BitVec 6) (bits : Word) (T : Table) :
    s.Completed { s with tblLen := len, tblBits := bits, table := T }.succeed :=
  (s.keepsControl_contents _ _ _ _).completed (fun _ => rfl) (Nat.zero_le _)

theorem State.JobEnd.completed {s t : State} (h : s.JobEnd (.next t)) : s.Completed t := by
  cases h with
  | error e _ => exact s.completed_raise e
  | success bytes _ fits =>
    exact (s.keepsControl_contents _ _ _ _).completed (fun hne => absurd rfl hne) fits

theorem State.JobEnd.keepsTblRegs {s t : State} (h : s.JobEnd (.next t)) : s.KeepsTblRegs t := by
  cases h <;> exact ⟨rfl, rfl⟩

/-- Settles O29: NOP is a success in the state as it is. -/
theorem nopOnlyCompletes : Obligations.NopOnlyCompletes := by
  unfold Obligations.NopOnlyCompletes
  exact ⟨decodeWord_encode .nop, fun s => ⟨_, rfl, s.succeed_record,
    (s.completed_succeed _ _ _).control, ⟨rfl, rfl⟩, rfl, fun _ => rfl⟩⟩

/-! ### The ends of all commands -/

/-- A command ends as a job with regions does; or with an error that leaves DMEM alone; or with
success, a new table at most; or, as TBL.READ, with success and new table registers. -/
theorem exec_cases (i : Instr) (s : State) :
    ((i = .encode ∨ ∃ v, i = .decode v) ∧ s.JobEnd (exec i s)) ∨
    (∃ e, e.code.spoilsDestination = false ∧ exec i s = .next (s.raise e)) ∨
    (∃ T, exec i s = .next { s with table := T }.succeed) ∨
    ∃ x len bits, i = .tblRead x ∧
      exec i s = .next { s with tblLen := len, tblBits := bits }.succeed := by
  cases i with
  | nop => exact .inr (.inr (.inl ⟨_, rfl⟩))
  | tblClear => exact .inr (.inr (.inl ⟨_, rfl⟩))
  | tblWrite sym =>
    simp only [exec, execTblWrite]
    split
    · exact .inr (.inl ⟨_, rfl, rfl⟩)
    · exact .inr (.inr (.inl ⟨_, rfl⟩))
  | tblInval sym => exact .inr (.inr (.inl ⟨_, rfl⟩))
  | tblRead sym =>
    simp only [exec, execTblRead]
    split <;> exact .inr (.inr (.inr ⟨sym, _, _, rfl, rfl⟩))
  | tblCheck =>
    simp only [exec, execTblCheck]
    split
    next e he =>
      obtain ⟨p, -, rfl⟩ := Option.map_eq_some_iff.1 he
      exact .inr (.inl ⟨_, rfl, rfl⟩)
    next => exact .inr (.inr (.inl ⟨_, rfl⟩))
  | encode => exact .inl ⟨.inl rfl, execEncode_jobEnd s⟩
  | decode v => exact .inl ⟨.inr ⟨v, rfl⟩, execDecode_jobEnd v s⟩

theorem exec_completed (i : Instr) (s : State) : ∃ t, exec i s = .next t ∧ s.Completed t := by
  rcases exec_cases i s with ⟨-, hend⟩ | ⟨e, -, he⟩ | ⟨T, he⟩ | ⟨x, len, bits, -, he⟩
  · obtain ⟨t, ht, hend⟩ := hend.exists_next
    exact ⟨t, ht, hend.completed⟩
  · exact ⟨_, he, s.completed_raise e⟩
  · exact ⟨_, he, s.completed_succeed _ _ _⟩
  · exact ⟨_, he, s.completed_succeed _ _ _⟩

/-- Only TBL.READ changes TBL_LEN and TBL_BITS. -/
theorem exec_keepsTblRegs {i : Instr} {s t : State} (ht : exec i s = .next t)
    (hi : ∀ x, i ≠ .tblRead x) : s.KeepsTblRegs t := by
  rcases exec_cases i s with ⟨-, hend⟩ | ⟨e, -, he⟩ | ⟨T, he⟩ | ⟨x, len, bits, hread, -⟩
  · exact State.JobEnd.keepsTblRegs (ht ▸ hend)
  · cases he.symm.trans ht
    exact ⟨rfl, rfl⟩
  · cases he.symm.trans ht
    exact ⟨rfl, rfl⟩
  · exact absurd hread (hi x)

/-- Only ENCODE and DECODE have an output and change DMEM. -/
theorem exec_without_output {i : Instr} {s t : State} (ht : exec i s = .next t)
    (hencode : i ≠ .encode) (hdecode : ∀ v, i ≠ .decode v) : t.outLen = 0 ∧ s.KeepsDmem t := by
  rcases exec_cases i s with ⟨hjob, -⟩ | ⟨e, hkeep, he⟩ | ⟨T, he⟩ | ⟨x, len, bits, -, he⟩
  · rcases hjob with hi | ⟨v, hi⟩
    · exact absurd hi hencode
    · exact absurd hi (hdecode v)
  · cases he.symm.trans ht
    exact ⟨rfl, s.raise_keepsDmem hkeep⟩
  · cases he.symm.trans ht
    exact ⟨rfl, fun _ => rfl⟩
  · cases he.symm.trans ht
    exact ⟨rfl, fun _ => rfl⟩

/-- Settles O23: each part is read off the ends that `exec_cases` lists. -/
theorem everyCommandCompletes : Obligations.EveryCommandCompletes := by
  unfold Obligations.EveryCommandCompletes
  intro i s
  obtain ⟨t, ht, hdone, hjob, hpos, hout, hfits, hcontrol⟩ := exec_completed i s
  refine ⟨t, ht, hdone, hjob, hpos, hout, hfits, hcontrol, exec_keepsTblRegs ht,
    fun hclear hwrite hinval => ?table, exec_without_output ht⟩
  rcases exec_table ht with h | h | ⟨x, h⟩ | ⟨x, h⟩
  · exact h
  · exact absurd h hclear
  · exact absurd h (hwrite x)
  · exact absurd h (hinval x)

/-! ### The end of a pending job -/

/-- While a job is pending, a transaction leaves it as it is (40_command_lifecycle.md R122). -/
theorem State.transact_job_of_busy {s : State} (hb : s.busy = true) (t : Txn) :
    (s.transact t).job = s.job := by
  change (s.busAccess t).1.job = s.job
  rcases busAccess_cases s t with h | ⟨v, h⟩ | ⟨v, h⟩ | ⟨w, h⟩ | ⟨-, h⟩ |
    ⟨-, _, _, _, _, _, _, h⟩ | ⟨-, _, _, _, -, h⟩ <;> simp [h, State.submit_of_busy hb]

@[simp] theorem State.submit_schedule (s : State) (w : Word) :
    (s.submit w).schedule = s.schedule := by
  rw [State.submit, apply_ite State.schedule, State.reject_schedule, State.accept_schedule,
    ite_self]

/-- No transaction changes who moves next. -/
theorem State.transact_schedule (s : State) (t : Txn) : (s.transact t).schedule = s.schedule := by
  change (s.busAccess t).1.schedule = s.schedule
  rcases busAccess_cases s t with h | ⟨v, h⟩ | ⟨v, h⟩ | ⟨w, h⟩ | ⟨-, h⟩ |
    ⟨-, _, _, _, _, _, _, h⟩ | ⟨-, _, _, _, -, h⟩ <;> simp [h]

/-- The engine's step ends a pending job. -/
theorem step_engine_ends_job {s : State} {w : Word} (hm : s.mover = .engine)
    (hj : s.job = .pending w) : ∃ t, step s = .next t ∧ t.job = .idle := by
  obtain ⟨t, ht, -⟩ := completeWord_irq w s.afterTurn
  exact ⟨t, (step_engine_pending hm hj).trans ht, completeWord_job ht⟩

/-- A step of the host uses up its turn, and either abandons a pending job, by the reset, or leaves
it pending. -/
theorem step_host_pending {s : State} {w : Word} (hm : s.mover = .host)
    (hj : s.job = .pending w) :
    ∃ t, step s = .next t ∧
      (t.job = .idle ∨ t.job = .pending w ∧ t.schedule = s.schedule.tail) := by
  have hturn : Agent.host ≠ .engine := nofun
  rcases step_cases s with h | ⟨_, _, he, -⟩ | ⟨_, _, he, -⟩ | ⟨x, rest, -, -, h⟩ | ⟨_, -, -, h⟩
  · exact ⟨_, h, .inr ⟨hj, rfl⟩⟩
  · exact absurd (hm.symm.trans he) hturn
  · exact absurd (hm.symm.trans he) hturn
  · have hb : State.busy { s.afterTurn with stimuli := rest } = true :=
      (State.busy_iff _).2 ⟨w, hj⟩
    exact ⟨_, h, .inr ⟨(State.transact_job_of_busy hb x).trans hj, State.transact_schedule _ x⟩⟩
  · exact ⟨_, h, .inl rfl⟩

/-- Settles O25, by induction on the schedule: the engine's turn ends the job, a turn of the host
leaves a shorter schedule, and behind its end the engine moves. -/
theorem pendingJobsEndUnderEverySchedule : Obligations.PendingJobsEndUnderEverySchedule := by
  unfold Obligations.PendingJobsEndUnderEverySchedule
  intro s w hj
  induction hsch : s.schedule generalizing s with
  | nil =>
    have hm : s.mover = .engine := (State.mover_eq_engine_iff hsch).2 (s.busy_iff.2 ⟨w, hj⟩)
    obtain ⟨t, ht, hidle⟩ := step_engine_ends_job hm hj
    exact ⟨1, t, le_rfl, run_succ 0 ht, hidle⟩
  | cons agent l ih =>
    have hm : s.mover = agent := State.mover_of_schedule hsch
    cases agent with
    | engine =>
      obtain ⟨t, ht, hidle⟩ := step_engine_ends_job hm hj
      exact ⟨1, t, by simp, run_succ 0 ht, hidle⟩
    | host =>
      obtain ⟨t, ht, hidle | ⟨hpending, htail⟩⟩ := step_host_pending hm hj
      · exact ⟨1, t, by simp, run_succ 0 ht, hidle⟩
      · obtain ⟨k, u, hk, hu, hidle⟩ := ih t hpending (by rw [htail, hsch, List.tail_cons])
        exact ⟨k + 1, u, Nat.succ_le_succ hk, (run_succ k ht).trans hu, hidle⟩

end Sys2Proof.Machine
end

section
/-! PROOF. The codebook table commands and FindConflict: what O30 to O36 rest on. -/

namespace Sys2Proof.Machine

/-! ### The words of the commands with a symbol -/

/-- The word of a command with a symbol is the row's match with the symbol in the low byte
(30_encoding.md R93). -/
theorem decodeWord_sym {i : Byte → Instr} {opc : Byte}
    (hi : ∀ x, encode (i x) = commandWord opc 0x00 x) (x : Byte) :
    decodeWord (commandWord opc 0x00 0x00 ||| x.setWidth 32) = .ok (i x) := by
  rw [← commandWord_sym, ← hi, decodeWord_encode]

/-! ### An empty table -/

/-- After TBL.CLEAR no entry is valid (41_codebook_table.md R141). -/
theorem Table.valid_clear (T : Table) (x : Byte) :
    (Table.entry (T.map Entry.invalidate) x).valid = false := by
  rw [Table.entry_map, Entry.invalidate_valid]

theorem Table.encodeList_of_invalid {T : Table} {x : Byte} (hx : (T.entry x).valid = false)
    (cap : Nat) (xs : List Byte) (i o : Nat) :
    T.encodeList cap (x :: xs) i o = .error ⟨.lookupError, i⟩ := by
  rw [Table.encodeList, if_pos hx]

section
variable {s : State} (hempty : ∀ x : Byte, (s.table.entry x).valid = false) (hr : s.RegionsOk)
  (hlen : s.srcLen ≠ 0)
include hempty hr hlen

/-- With an empty table ENCODE finds no codeword for its first symbol (42_encode.md R171). -/
theorem exec_encode_of_empty_table : exec .encode s = .next (s.raise ⟨.lookupError, 0⟩) := by
  rw [exec, execEncode_eq hr]
  cases hsource : s.sourceBytes with
  | nil =>
    have hzero : s.srcLen.toNat = 0 := by
      rw [← s.dmem.length_readBytes s.srcAddr.toNat s.srcLen.toNat, ← State.sourceBytes, hsource]
      rfl
    exact absurd (BitVec.eq_of_toNat_eq hzero) hlen
  | cons x xs => rw [Table.encodeList_of_invalid (hempty x)]

/-- With an empty table DECODE finds no match at its first cursor (43_decode.md R194). -/
theorem exec_decode_of_empty_table :
    exec (.decode false) s = .next (s.raise ⟨.decodeError, 0⟩) := by
  have hpos : ¬s.srcLen.toNat ≤ 0 := fun h => hlen (BitVec.eq_of_toNat_eq (Nat.le_zero.1 h))
  have hnone : s.matchChoice s.dmem 0 0 = none :=
    State.matchChoice_none.2 fun x => by simp [State.matchesAt, hempty x]
  rw [exec, execDecode_eq hr (fun h => absurd h Bool.false_ne_true), State.decodeList,
    if_neg hpos, hnone]

end

/-- Settles O30: TBL.CLEAR leaves a table in which ENCODE and DECODE find nothing. -/
theorem tblClearEmptiesTheTable : Obligations.TblClearEmptiesTheTable := by
  unfold Obligations.TblClearEmptiesTheTable
  refine ⟨decodeWord_encode .tblClear, fun s => ⟨_, rfl, State.succeed_record _,
    s.table.valid_clear, (s.completed_succeed _ _ _).control, ⟨rfl, rfl⟩, fun _ => rfl,
    fun hr hlen => ?_⟩⟩
  exact ⟨⟨_, exec_encode_of_empty_table s.table.valid_clear hr hlen,
      State.raise_record _ nofun (by decide)⟩,
    ⟨_, exec_decode_of_empty_table s.table.valid_clear hr hlen,
      State.raise_record _ nofun (by decide)⟩⟩

/-! ### TBL.WRITE and TBL.INVAL -/

/-- The lengths that TBL.WRITE refuses (41_codebook_table.md R142). -/
theorem badLength_iff (len : BitVec 6) :
    badLength len = true ↔ len.toNat = 0 ∨ 32 < len.toNat := by
  rw [badLength, Bool.or_eq_true, beq_iff_eq, decide_eq_true_eq]

/-- The stored bits are those of the operand below the length (41_codebook_table.md R142). -/
theorem Entry.getLsbD_bits_ofOperands {len : BitVec 6} (hle : len.toNat ≤ 32) (bits : Word)
    (j : Nat) : (Entry.ofOperands len bits).bits.getLsbD j =
      (decide (j < len.toNat) && bits.getLsbD j) := by
  rw [Entry.ofOperands, BitVec.getLsbD_and, getLsbD_lowMask _ _ hle, Bool.and_comm]

theorem exec_tblWrite_of_badLength {s : State} (h : badLength s.tblLen = true) (x : Byte) :
    exec (.tblWrite x) s = .next (s.raise ⟨.badEntry, x.toNat⟩) := by
  rw [exec, execTblWrite, if_pos h]

theorem exec_tblWrite_of_not_badLength {s : State} (h : ¬badLength s.tblLen = true) (x : Byte) :
    exec (.tblWrite x) s = .next
      { s with table := s.table.setEntry x (.ofOperands s.tblLen s.tblBits) }.succeed := by
  rw [exec, execTblWrite, if_neg h]

/-- Settles O31: the two ends of TBL.WRITE, by the length. -/
theorem tblWriteStoresOrRefuses : Obligations.TblWriteStoresOrRefuses := by
  unfold Obligations.TblWriteStoresOrRefuses
  refine fun s x => ⟨decodeWord_sym (i := .tblWrite) (opc := 0x02) (fun _ => rfl) x,
    fun ⟨hpos, hle⟩ => ?good, fun hlen => ?bad⟩
  case good =>
    have hgood : ¬badLength s.tblLen = true := by rw [badLength_iff]; omega
    have hentry : (s.table.setEntry x (.ofOperands s.tblLen s.tblBits)).entry x =
        .ofOperands s.tblLen s.tblBits := Table.entry_setEntry_same _ _ _
    refine ⟨_, exec_tblWrite_of_not_badLength hgood x, State.succeed_record _, ?_, ?_, fun j => ?_,
      fun y hy => Table.entry_setEntry_ne _ _ hy, (s.completed_succeed _ _ _).control, ⟨rfl, rfl⟩,
      fun _ => rfl⟩ <;> rw [State.succeed_table, hentry]
    · rfl
    · rfl
    · exact Entry.getLsbD_bits_ofOperands hle _ j
  case bad =>
    exact ⟨_, exec_tblWrite_of_badLength ((badLength_iff _).2 hlen) x,
      s.raise_record nofun (x.isLt.trans (by decide)), rfl, s.raise_keepsControl _, ⟨rfl, rfl⟩,
      s.raise_keepsDmem rfl⟩

/-- Settles O32: TBL.INVAL sets the one entry. -/
theorem tblInvalRemovesOneEntry : Obligations.TblInvalRemovesOneEntry := by
  unfold Obligations.TblInvalRemovesOneEntry
  refine fun s x => ⟨decodeWord_sym (i := .tblInval) (opc := 0x03) (fun _ => rfl) x,
    _, rfl, State.succeed_record _, ?_, fun y hy => Table.entry_setEntry_ne _ _ hy,
    (s.completed_succeed _ _ _).control, ⟨rfl, rfl⟩, fun _ => rfl⟩
  rw [State.succeed_table, Table.entry_setEntry_same, Entry.invalidate_valid]

/-! ### TBL.READ -/

theorem exec_tblRead_of_valid {s : State} {x : Byte} (h : (s.table.entry x).valid = true) :
    exec (.tblRead x) s = .next { s with
      tblLen := (s.table.entry x).len, tblBits := (s.table.entry x).bits }.succeed := by
  rw [exec, execTblRead, if_pos h]

theorem exec_tblRead_of_invalid {s : State} {x : Byte} (h : (s.table.entry x).valid = false) :
    exec (.tblRead x) s = .next { s with tblLen := 0, tblBits := 0 }.succeed := by
  rw [exec, execTblRead, if_neg (ne_true_of_eq_false h)]

/-- A valid entry has a length of at least 1 (10_state.md R40). -/
theorem Entry.len_ne_zero {e : Entry} (hwf : e.wf = true) (hv : e.valid = true) : e.len ≠ 0 := by
  intro hzero
  obtain ⟨hpos, -, -⟩ := Entry.wf_valid hwf hv
  rw [Entry.length, hzero] at hpos
  exact absurd hpos (by decide)

/-- Settles O33: the two ends of TBL.READ, by the entry. -/
theorem tblReadReturnsTheEntry : Obligations.TblReadReturnsTheEntry := by
  unfold Obligations.TblReadReturnsTheEntry
  refine fun s x => ⟨decodeWord_sym (i := .tblRead) (opc := 0x04) (fun _ => rfl) x, ?_⟩
  cases hv : (s.table.entry x).valid with
  | true =>
    exact ⟨_, exec_tblRead_of_valid hv, State.succeed_record _, fun _ => ⟨rfl, rfl⟩, nofun,
      fun hwf => ⟨fun hlen => absurd hlen (Entry.len_ne_zero (hwf x) hv), nofun⟩, rfl,
      (s.completed_succeed _ _ _).control, fun _ => rfl⟩
  | false =>
    exact ⟨_, exec_tblRead_of_invalid hv, State.succeed_record _, nofun, fun _ => ⟨rfl, rfl⟩,
      fun _ => ⟨fun _ => rfl, fun _ => rfl⟩, rfl, (s.completed_succeed _ _ _).control,
      fun _ => rfl⟩

/-! ### FindConflict and TBL.CHECK -/

theorem Table.conflict_iff (T : Table) (a b : Byte) :
    T.conflict a b = true ↔ a ≠ b ∧ (T.entry a).valid = true ∧ (T.entry b).valid = true ∧
      (T.entry a).prefixOf (T.entry b) = true := by
  simp only [Table.conflict, Bool.and_eq_true, bne_iff_ne, and_assoc]

/-- FindConflict returns the conflicting pair that comes first in the lexicographic order. -/
theorem Table.findConflict_eq_some_iff_first (T : Table) (a b : Byte) :
    T.findConflict = some (a, b) ↔ T.conflict a b = true ∧
      ∀ a' b' : Byte, T.conflict a' b' = true →
        a.toNat < a'.toNat ∨ (a = a' ∧ b.toNat ≤ b'.toNat) := by
  rw [Table.findConflict_eq_some]
  refine and_congr_right fun _ => ⟨fun ⟨hb, ha⟩ a' b' hc => ?_, fun hmin => ⟨fun b' hlt => ?_,
    fun a' hlt b' => ?_⟩⟩
  · rcases Nat.lt_trichotomy a.toNat a'.toNat with hlt | heq | hgt
    · exact .inl hlt
    · obtain rfl := BitVec.eq_of_toNat_eq heq
      refine .inr ⟨rfl, Nat.le_of_not_lt fun hlt => ?_⟩
      exact Bool.false_ne_true ((hb b' hlt).symm.trans hc)
    · exact absurd ((ha a' hgt b').symm.trans hc) Bool.false_ne_true
  · refine Bool.eq_false_iff.2 fun hc => ?_
    rcases hmin a b' hc with h | ⟨-, h⟩ <;> omega
  · refine Bool.eq_false_iff.2 fun hc => ?_
    rcases hmin a' b' hc with h | ⟨rfl, -⟩ <;> omega

/-- Settles O35: the conflicts are those pairs that the statement writes out. -/
theorem findConflictReturnsTheFirstPair : Obligations.FindConflictReturnsTheFirstPair := by
  unfold Obligations.FindConflictReturnsTheFirstPair
  refine fun T => ⟨T.findConflict_eq_none, fun a b => ?_⟩
  simpa only [Table.conflict_iff, and_imp] using T.findConflict_eq_some_iff_first a b

theorem exec_tblCheck_of_none {s : State} (h : s.table.findConflict = none) :
    exec .tblCheck s = .next s.succeed := by
  rw [exec, execTblCheck, State.validationError, h, Option.map_none]

theorem exec_tblCheck_of_some {s : State} {a b : Byte}
    (h : s.table.findConflict = some (a, b)) :
    exec .tblCheck s = .next (s.raise ⟨.validationError, pairPos a b⟩) := by
  rw [exec, execTblCheck, State.validationError, h, Option.map_some]

/-- The pair fits in ERR_POS (60_exceptions.md R251). -/
theorem pairPos_lt (a b : Byte) : pairPos a b < 2 ^ 32 := by
  have ha := a.isLt
  have hb := b.isLt
  rw [pairPos]
  omega

/-- Settles O34: the two ends of TBL.CHECK, by the answer of FindConflict. -/
theorem tblCheckReportsTheConflict : Obligations.TblCheckReportsTheConflict := by
  unfold Obligations.TblCheckReportsTheConflict
  refine ⟨decodeWord_encode .tblCheck, fun s => ?_⟩
  rw [← Table.findConflict_eq_none]
  cases hfind : s.table.findConflict with
  | none =>
    exact ⟨_, exec_tblCheck_of_none hfind, fun _ => s.succeed_record, nofun,
      fun hne => absurd rfl hne, rfl, (s.completed_succeed _ _ _).control, ⟨rfl, rfl⟩, fun _ => rfl⟩
  | some pair =>
    obtain ⟨a, b⟩ := pair
    refine ⟨_, exec_tblCheck_of_some hfind, nofun, fun a' b' hpair => ?_, fun _ => ⟨a, b, rfl⟩, rfl,
      s.raise_keepsControl _, ⟨rfl, rfl⟩, s.raise_keepsDmem rfl⟩
    cases hpair
    exact s.raise_record nofun (pairPos_lt a b)

/-! ### The relation ⊑ in its two forms -/

/-- Settles O36: a conflict is `⊑` between two distinct valid entries, which for entries of the form
of R40 is the list relation on their codewords. -/
theorem prefixInTheBitLayoutIsPrefixOfCodewords :
    Obligations.PrefixInTheBitLayoutIsPrefixOfCodewords := by
  unfold Obligations.PrefixInTheBitLayoutIsPrefixOfCodewords
  refine ⟨fun a b => Entry.prefixOf_iff, fun T hwf => ⟨fun hfree x y hne hx hy hprefix => ?_,
    fun hfree x y => Bool.eq_false_iff.2 fun hc => ?_⟩⟩
  · exact hne (Table.prefixFree_eq hfree hx hy
      ((Entry.prefixOf_iff (hwf x) (hwf y) hx hy).2 hprefix))
  · obtain ⟨hne, hx, hy, hprefix⟩ := Table.conflict_valid hc
    exact hfree x y hne hx hy ((Entry.prefixOf_iff (hwf x) (hwf y) hx hy).1 hprefix)

end Sys2Proof.Machine
end

section
/-! PROOF. The rest of an invalid entry is not observable: what O37 rests on. -/

namespace Sys2Proof.Machine

/-! ### Tables with the same codebook -/

namespace Table.SameCodebook

variable {T U : Table}

theorem valid_eq (h : T.SameCodebook U) (x : Byte) :
    (U.entry x).valid = (T.entry x).valid := by
  rcases h x with heq | ⟨hT, hU⟩
  · rw [heq]
  · rw [hT, hU]

theorem entry_eq (h : T.SameCodebook U) {x : Byte} (hv : (T.entry x).valid = true) :
    U.entry x = T.entry x := by
  rcases h x with heq | ⟨hT, -⟩
  · exact heq.symm
  · exact absurd (hT.symm.trans hv) Bool.false_ne_true

theorem refl (T : Table) : T.SameCodebook T := fun _ => .inl rfl

theorem clear (T U : Table) :
    Table.SameCodebook (T.map Entry.invalidate) (U.map Entry.invalidate) :=
  fun x => .inr ⟨T.valid_clear x, U.valid_clear x⟩

/-- The entry that is set may differ in the rest of an invalid entry too. -/
theorem setEntry (h : T.SameCodebook U) (x : Byte) {e f : Entry}
    (hef : e = f ∨ (e.valid = false ∧ f.valid = false)) :
    (T.setEntry x e).SameCodebook (U.setEntry x f) := fun y => by
  by_cases hy : y = x
  · rw [hy, Table.entry_setEntry_same, Table.entry_setEntry_same]
    exact hef
  · rw [Table.entry_setEntry_ne _ _ hy, Table.entry_setEntry_ne _ _ hy]
    exact h y

theorem conflict_eq (h : T.SameCodebook U) (a b : Byte) : U.conflict a b = T.conflict a b := by
  rw [Bool.eq_iff_iff, Table.conflict_iff, Table.conflict_iff, h.valid_eq, h.valid_eq]
  refine and_congr_right fun _ => and_congr_right fun ha => and_congr_right fun hb => ?_
  rw [h.entry_eq ha, h.entry_eq hb]

theorem findConflict_eq (h : T.SameCodebook U) : U.findConflict = T.findConflict := by
  simp only [Table.findConflict, h.valid_eq, h.conflict_eq]

end Table.SameCodebook

/-! ### A state with another table -/

/-- The state with the table `U` in the place of its own. -/
def State.withTable (s : State) (U : Table) : State := { s with table := U }

section
variable (s : State) (U : Table)

@[simp] theorem State.withTable_srcAddr : (s.withTable U).srcAddr = s.srcAddr := rfl
@[simp] theorem State.withTable_srcLen : (s.withTable U).srcLen = s.srcLen := rfl
@[simp] theorem State.withTable_dstAddr : (s.withTable U).dstAddr = s.dstAddr := rfl
@[simp] theorem State.withTable_dstCap : (s.withTable U).dstCap = s.dstCap := rfl
@[simp] theorem State.withTable_table : (s.withTable U).table = U := rfl
@[simp] theorem State.withTable_dmem : (s.withTable U).dmem = s.dmem := rfl
@[simp] theorem State.withTable_regionError : (s.withTable U).regionError = s.regionError := rfl

end

theorem State.SameButInvalidEntries.exists_withTable {s u : State}
    (h : s.SameButInvalidEntries u) : ∃ U, s.table.SameCodebook U ∧ u = s.withTable U :=
  ⟨u.table, h.2, h.1⟩

theorem State.sameButInvalidEntries_withTable {s : State} {U : Table}
    (h : s.table.SameCodebook U) : s.SameButInvalidEntries (s.withTable U) := ⟨rfl, h⟩

/-! ### What a command reads from the table -/

section
variable {s : State} {U : Table} (h : s.table.SameCodebook U)
include h

theorem State.validationError_withTable :
    (s.withTable U).validationError = s.validationError := by
  rw [State.validationError, State.withTable_table, h.findConflict_eq, State.validationError]

theorem State.decodeCheck_withTable (v : Bool) :
    (s.withTable U).decodeCheck v = s.decodeCheck v := by
  rw [State.decodeCheck, State.withTable_regionError, State.validationError_withTable h,
    State.decodeCheck]

theorem State.matchesAt_withTable (m : Memory) (k : Nat) :
    (s.withTable U).matchesAt m k = s.matchesAt m k := by
  funext x
  cases hv : (s.table.entry x).valid with
  | true =>
    simp only [State.matchesAt, State.withTable_table, h.entry_eq hv]
    rfl
  | false => simp [State.matchesAt, h.valid_eq, hv]

theorem State.matchChoice_withTable (m : Memory) (n k : Nat) :
    (s.withTable U).matchChoice m n k = s.matchChoice m n k := by
  rw [State.matchChoice, State.matchSet, State.matchesAt_withTable h]
  rfl

/-- DECODE reads the length of a matching entry only, which is valid. -/
theorem State.decodeLoop_withTable (room n k : Nat) (m : Memory) :
    (s.withTable U).decodeLoop room n k m = s.decodeLoop room n k m := by
  induction room generalizing n k m with
  | zero =>
    unfold State.decodeLoop
    rw [State.matchChoice_withTable h]
    rfl
  | succ room ih =>
    unfold State.decodeLoop
    rw [State.matchChoice_withTable h, State.withTable_srcLen, State.withTable_dstAddr,
      State.withTable_table]
    cases hx : s.matchChoice m n k with
    | none => rfl
    | some x =>
      have hv : (s.table.entry x).valid = true := by
        have hmatch := State.matchChoice_some hx
        simp only [State.matchesAt, Bool.and_eq_true] at hmatch
        exact hmatch.1.1
      simp only [h.entry_eq hv, ih]

/-- ENCODE reads an entry behind its check of `valid` only. -/
theorem State.encodeLoop_withTable (n i o : Nat) (m : Memory) :
    (s.withTable U).encodeLoop n i o m = s.encodeLoop n i o m := by
  induction n generalizing i o m with
  | zero => rfl
  | succ n ih =>
    simp only [State.encodeLoop, State.withTable_table, State.withTable_srcAddr,
      State.withTable_dstAddr, State.withTable_dstCap, ih]
    cases hv : (s.table.entry (m.read (s.srcAddr.toNat + i))).valid with
    | true => rw [h.entry_eq hv, hv]
    | false => rw [h.valid_eq, hv, if_pos rfl, if_pos rfl]

end

/-! ### Steps in step -/

/-- Both outcomes are next states, which differ only inside invalid entries. -/
def NextAlike (o p : Host.Outcome State Fault Refusal) : Prop :=
  ∃ t v, o = .next t ∧ p = .next v ∧ t.SameButInvalidEntries v

theorem NextAlike.of_withTable {t : State} {V : Table} (h : t.table.SameCodebook V) :
    NextAlike (.next t) (.next (t.withTable V)) :=
  ⟨_, _, rfl, rfl, State.sameButInvalidEntries_withTable h⟩

/-- A command's completions in two states that differ only inside invalid entries. -/
theorem exec_nextAlike (i : Instr) {s : State} {U : Table} (h : s.table.SameCodebook U) :
    NextAlike (exec i s) (exec i (s.withTable U)) := by
  cases i with
  | nop => exact .of_withTable (t := s.succeed) h
  | tblClear =>
    exact .of_withTable (t := State.succeed { s with table := s.table.map Entry.invalidate })
      (.clear _ _)
  | tblWrite sym =>
    cases hlen : badLength s.tblLen with
    | true =>
      rw [exec_tblWrite_of_badLength hlen,
        exec_tblWrite_of_badLength (s := s.withTable U) hlen]
      exact .of_withTable (t := s.raise _) h
    | false =>
      have hgood := ne_true_of_eq_false hlen
      rw [exec_tblWrite_of_not_badLength hgood,
        exec_tblWrite_of_not_badLength (s := s.withTable U) hgood]
      exact .of_withTable (t := State.succeed { s with table := s.table.setEntry sym _ })
        (h.setEntry sym (.inl rfl))
  | tblInval sym =>
    exact .of_withTable (t := State.succeed { s with table := s.table.setEntry sym _ })
      (h.setEntry sym (.inr ⟨Entry.invalidate_valid _, Entry.invalidate_valid _⟩))
  | tblRead sym =>
    cases hv : (s.table.entry sym).valid with
    | true =>
      rw [exec_tblRead_of_valid hv,
        exec_tblRead_of_valid (s := s.withTable U) ((h.valid_eq sym).trans hv),
        State.withTable_table, h.entry_eq hv]
      exact .of_withTable (t := State.succeed { s with tblLen := _, tblBits := _ }) h
    | false =>
      rw [exec_tblRead_of_invalid hv,
        exec_tblRead_of_invalid (s := s.withTable U) ((h.valid_eq sym).trans hv)]
      exact .of_withTable (t := State.succeed { s with tblLen := 0, tblBits := 0 }) h
  | tblCheck =>
    rw [exec, exec, execTblCheck, execTblCheck, State.validationError_withTable h]
    cases s.validationError with
    | some e => exact .of_withTable (t := s.raise e) h
    | none => exact .of_withTable (t := s.succeed) h
  | encode =>
    rw [exec, exec, execEncode, execEncode, State.withTable_regionError, State.withTable_srcLen,
      State.withTable_dmem, State.encodeLoop_withTable h]
    cases s.regionError with
    | some e => exact .of_withTable (t := s.raise e) h
    | none =>
      cases s.encodeLoop s.srcLen.toNat 0 0 s.dmem with
      | error e => exact .of_withTable (t := s.raise e) h
      | ok r => exact .of_withTable (t := State.complete { s with dmem := r.1 } .none 0 r.2) h
  | decode v =>
    rw [exec, exec, execDecode, execDecode, State.decodeCheck_withTable h, State.withTable_dstCap,
      State.withTable_dmem, State.decodeLoop_withTable h]
    cases s.decodeCheck v with
    | some e => exact .of_withTable (t := s.raise e) h
    | none =>
      cases s.decodeLoop s.dstCap.toNat 0 0 s.dmem with
      | error e => exact .of_withTable (t := s.raise e) h
      | ok r => exact .of_withTable (t := State.complete { s with dmem := r.1 } .none 0 r.2) h

theorem completeWord_nextAlike (w : Word) {s : State} {U : Table}
    (h : s.table.SameCodebook U) :
    NextAlike (completeWord w s) (completeWord w (s.withTable U)) := by
  unfold completeWord
  cases decodeWord w with
  | ok i => exact exec_nextAlike i h
  | error e => exact .of_withTable (t := s.raise ⟨.illegalCmd, 0⟩) h

/-! ### The bus does not see the table -/

section
variable (s : State) (U : Table)

theorem State.writeOperand_withTable (t : State) :
    (s.withTable U).writeOperand (t.withTable U) = (s.writeOperand t).withTable U :=
  (apply_ite (State.withTable · U) (s.busy = true) s.blocked t).symm

theorem State.submit_withTable (w : Word) :
    (s.withTable U).submit w = (s.submit w).withTable U :=
  (apply_ite (State.withTable · U) (s.busy = true) s.reject (s.accept w)).symm

theorem State.writeReg_withTable (v : Word) (r : Reg) :
    (s.withTable U).writeReg v r = (s.writeReg v r).withTable U := by
  cases hr : r.isOperand with
  | true =>
    rw [State.writeReg_operand hr, State.writeReg_operand hr, ← State.writeOperand_withTable]
    rfl
  | false =>
    cases r with
    | cmd => exact s.submit_withTable U v
    | srcAddr | srcLen | dstAddr | dstCap | tblLen | tblBits => cases hr
    | _ => rfl

theorem State.accessDmem_withTable (t : Txn) (a : Nat) :
    (s.withTable U).accessDmem t a = ((s.accessDmem t a).1.withTable U, (s.accessDmem t a).2) := by
  cases hb : s.busy with
  | true => rw [State.accessDmem_of_busy hb, State.accessDmem_of_busy (s := s.withTable U) hb]; rfl
  | false =>
    cases ht : t.access with
    | read =>
      rw [State.accessDmem_read hb a ht, State.accessDmem_read (s := s.withTable U) hb a ht]; rfl
    | write v =>
      rw [State.accessDmem_write hb a ht, State.accessDmem_write (s := s.withTable U) hb a ht]; rfl

/-- A transaction has the same answer and the same effect with every table (10_state.md R43). -/
theorem State.busAccess_withTable (t : Txn) :
    (s.withTable U).busAccess t = ((s.busAccess t).1.withTable U, (s.busAccess t).2) := by
  cases htarget : t.target s.dmemSize with
  | illegal =>
    rw [State.busAccess_of_illegal htarget,
      State.busAccess_of_illegal (s := s.withTable U) htarget]
  | reserved =>
    rw [State.busAccess_of_reserved htarget,
      State.busAccess_of_reserved (s := s.withTable U) htarget]
  | dmem a =>
    rw [State.busAccess_of_dmem htarget, State.busAccess_of_dmem (s := s.withTable U) htarget,
      State.accessDmem_withTable]
  | register r =>
    cases ht : t.access with
    | read =>
      rw [State.busAccess_read_register htarget ht,
        State.busAccess_read_register (s := s.withTable U) htarget ht]
      cases r <;> rfl
    | write v =>
      have htarget' : t.target (s.withTable U).dmemSize = .register r := htarget
      simp only [State.busAccess, htarget, htarget', ht, State.writeReg_withTable]

theorem State.transact_withTable (t : Txn) :
    (s.withTable U).transact t = (s.transact t).withTable U := by
  rw [State.transact, State.busAccess_withTable]
  rfl

end

theorem step_host_reset {s : State} {rest : List Stimulus} (hm : s.mover = .host)
    (hs : s.stimuli = .reset :: rest) :
    step s = .next (s.withWorld rest s.schedule.tail s.response).resetBlock := by
  simp only [step, hm, hostStep, State.afterTurn_stimuli, hs]
  rfl

/-- A step in two states that differ only inside invalid entries. -/
theorem step_nextAlike {s : State} {U : Table} (h : s.table.SameCodebook U) :
    NextAlike (step s) (step (s.withTable U)) := by
  cases hm : s.mover with
  | engine =>
    cases hj : s.job with
    | idle =>
      rw [step_engine_idle hm hj, step_engine_idle (s := s.withTable U) hm hj]
      exact .of_withTable (t := s.afterTurn) h
    | pending w =>
      rw [step_engine_pending hm hj, step_engine_pending (s := s.withTable U) hm hj]
      exact completeWord_nextAlike w (s := s.afterTurn) h
  | host =>
    cases hs : s.stimuli with
    | nil =>
      rw [step_host_nothing_left hm hs, step_host_nothing_left (s := s.withTable U) hm hs]
      exact .of_withTable (t := s.afterTurn) h
    | cons stimulus rest =>
      cases stimulus with
      | txn t =>
        have htransact := (s.withWorld rest s.schedule.tail s.response).transact_withTable U t
        rw [step_host_txn hm hs, step_host_txn (s := s.withTable U) hm hs]
        exact htransact ▸ .of_withTable (by rwa [State.transact_table])
      | wait =>
        rw [step_host_wait hm hs, step_host_wait (s := s.withTable U) hm hs]
        exact .of_withTable (t := s.withWorld _ _ _) h
      | reset =>
        rw [step_host_reset hm hs, step_host_reset (s := s.withTable U) hm hs]
        exact ⟨_, _, rfl, rfl, rfl, .refl _⟩

/-- Settles O37: no command, transaction or reset reads the rest of an invalid entry. -/
theorem invalidEntriesAreUnobservable : Obligations.InvalidEntriesAreUnobservable := by
  unfold Obligations.InvalidEntriesAreUnobservable
  intro s u h
  obtain ⟨U, hsame, rfl⟩ := h.exists_withTable
  exact step_nextAlike hsame

end Sys2Proof.Machine
end

section
/-! PROOF. ENCODE as a function of the table, the source and the job parameters; where it succeeds
and where it fails; and the round trip through DECODE: what O40 to O44 and O53 rest on. -/

namespace Sys2Proof.Machine

/-! ### A job that ends with an output -/

/-- The end of a job that succeeds with the output `bytes`: they stand from DST_ADDR on, and OUT_LEN
counts them (42_encode.md R172, 43_decode.md R193). -/
def State.output (s : State) (bytes : List Byte) : State :=
  { s with dmem := s.dmem.writeBytes s.dstAddr.toNat bytes }.complete .none 0 bytes.length

section
variable (s : State) (bytes : List Byte)

@[simp] theorem State.output_table : (s.output bytes).table = s.table := rfl
@[simp] theorem State.output_errCode : (s.output bytes).errCode = .none := rfl

theorem State.output_keepsControl : s.KeepsControl (s.output bytes) :=
  ⟨rfl, rfl, rfl, rfl, rfl, rfl, rfl, rfl, rfl, rfl, rfl⟩

theorem State.output_keepsTblRegs : s.KeepsTblRegs (s.output bytes) := ⟨rfl, rfl⟩

theorem State.output_destBytes : (s.output bytes).destBytes bytes.length = bytes :=
  Memory.readBytes_writeBytes _ _ _

theorem State.output_keepsDmemOutside :
    s.KeepsDmemOutside (s.output bytes) s.dstAddr.toNat bytes.length :=
  fun _ hb => Memory.read_writeBytes_outside _ _ hb

end

section
variable {s : State} {bytes : List Byte} (hfit : bytes.length ≤ s.dstCap.toNat)
include hfit

/-- OUT_LEN counts an output that fits in DST_CAP without losing bits (42_encode.md R175). -/
theorem State.output_outLen : (s.output bytes).outLen.toNat = bytes.length := by
  rw [State.output, State.complete_outLen, BitVec.toNat_ofNat]
  exact Nat.mod_eq_of_lt (hfit.trans_lt s.dstCap.isLt)

theorem State.output_record : (s.output bytes).Record .none 0 bytes.length :=
  ⟨rfl, rfl, State.output_outLen hfit, rfl, rfl⟩

/-- The bytes that OUT_LEN counts are the output. -/
theorem State.output_destBytes_outLen :
    (s.output bytes).destBytes (s.output bytes).outLen.toNat = bytes := by
  rw [State.output_outLen hfit, State.output_destBytes]

end

/-! ### ENCODE by its result -/

/-- What ENCODE computes from the table, the source bytes and the job parameters: its output, or its
first error (42_encode.md R170, R173). -/
def State.encodeResult (s : State) : Except JobError (List Byte) :=
  match s.regionError with
  | some e => .error e
  | none => (s.table.encodeList s.dstCap.toNat s.sourceBytes 0 0).map (List.map bitChar)

/-- The end of a job with a given result. -/
def State.endJob (s : State) : Except JobError (List Byte) → State
  | .error e => s.raise e
  | .ok bytes => s.output bytes

theorem State.encodeResult_of_regionError {s : State} {e : JobError}
    (h : s.regionError = some e) : s.encodeResult = .error e := by
  rw [State.encodeResult, h]

theorem State.encodeResult_of_regionsOk {s : State} (hr : s.RegionsOk) :
    s.encodeResult =
      (s.table.encodeList s.dstCap.toNat s.sourceBytes 0 0).map (List.map bitChar) := by
  rw [State.encodeResult, (s.regionError_eq_none).2 hr]

/-- ENCODE ends as its result says. -/
theorem exec_encode_eq (s : State) : exec .encode s = .next (s.endJob s.encodeResult) := by
  cases he : s.regionError with
  | some e =>
    rw [State.encodeResult_of_regionError he]
    exact exec_of_regionError (List.mem_cons_self ..) he
  | none =>
    have hr := (s.regionError_eq_none).1 he
    rw [exec, execEncode_eq hr, State.encodeResult_of_regionsOk hr]
    cases s.table.encodeList s.dstCap.toNat s.sourceBytes 0 0 with
    | error e => rfl
    | ok bits =>
      rw [Except.map, State.endJob, State.output, List.length_map]

/-- ENCODE succeeds exactly when its regions pass their checks, every source symbol has an entry and
the codewords fit, and its output is then the codewords in order (42_encode.md R172). -/
theorem State.encodeResult_eq_ok {s : State} {bytes : List Byte} :
    s.encodeResult = .ok bytes ↔ s.RegionsOk ∧ s.table.covers s.sourceBytes ∧
      (s.table.codeOf s.sourceBytes).length ≤ s.dstCap.toNat ∧
      bytes = (s.table.codeOf s.sourceBytes).map bitChar := by
  have hlist (bits : Codeword) :=
    Table.encodeList_ok (T := s.table) (xs := s.sourceBytes) (i := 0) (Nat.zero_le s.dstCap.toNat)
      bits
  simp only [Nat.zero_add] at hlist
  constructor
  · intro h
    cases he : s.regionError with
    | some e =>
      rw [State.encodeResult_of_regionError he] at h
      cases h
    | none =>
      have hr := (s.regionError_eq_none).1 he
      rw [State.encodeResult_of_regionsOk hr] at h
      cases hl : s.table.encodeList s.dstCap.toNat s.sourceBytes 0 0 with
      | error e =>
        rw [hl] at h
        cases h
      | ok bits =>
        rw [hl] at h
        cases h
        obtain ⟨hcovers, hfit, rfl⟩ := (hlist bits).1 hl
        exact ⟨hr, hcovers, hfit, rfl⟩
  · rintro ⟨hr, hcovers, hfit, rfl⟩
    rw [State.encodeResult_of_regionsOk hr, (hlist _).2 ⟨hcovers, hfit, rfl⟩]
    rfl

theorem State.length_of_encodeResult {s : State} {bytes : List Byte}
    (h : s.encodeResult = .ok bytes) : bytes.length ≤ s.dstCap.toNat := by
  obtain ⟨-, -, hfit, rfl⟩ := State.encodeResult_eq_ok.1 h
  exact (List.length_map _).trans_le hfit

/-- An error of ENCODE has a code of its own. -/
theorem State.encodeResult_error_code {s : State} {e : JobError} (h : s.encodeResult = .error e) :
    e.code ≠ .none := by
  cases he : s.regionError with
  | some e' =>
    rw [State.encodeResult_of_regionError he] at h
    cases h
    rcases State.regionError_eq_some he with ⟨rfl, -⟩ | ⟨rfl, -⟩ | ⟨rfl, -⟩ <;> nofun
  | none =>
    rw [State.encodeResult_of_regionsOk ((s.regionError_eq_none).1 he)] at h
    cases hl : s.table.encodeList s.dstCap.toNat s.sourceBytes 0 0 with
    | error e' =>
      rw [hl] at h
      cases h
      rcases (Table.encodeList_error_code hl).1 with hcode | hcode <;> rw [hcode] <;> nofun
    | ok bits =>
      rw [hl] at h
      cases h

/-! ### Success -/

theorem exec_encode_of_covers {s : State} (hr : s.RegionsOk)
    (hcovers : s.table.covers s.sourceBytes)
    (hfit : (s.table.codeOf s.sourceBytes).length ≤ s.dstCap.toNat) :
    exec .encode s = .next (s.output ((s.table.codeOf s.sourceBytes).map bitChar)) := by
  rw [exec_encode_eq, State.encodeResult_eq_ok.2 ⟨hr, hcovers, hfit, rfl⟩, State.endJob]

/-- What a successful ENCODE says of the state before it, and the state after it. -/
theorem exec_encode_success {s t : State} (h : exec .encode s = .next t)
    (hcode : t.errCode = .none) :
    s.RegionsOk ∧ s.table.covers s.sourceBytes ∧
      (s.table.codeOf s.sourceBytes).length ≤ s.dstCap.toNat ∧
      t = s.output ((s.table.codeOf s.sourceBytes).map bitChar) := by
  cases (exec_encode_eq s).symm.trans h
  cases hres : s.encodeResult with
  | error e =>
    rw [hres] at hcode
    exact absurd hcode (State.encodeResult_error_code hres)
  | ok bytes =>
    obtain ⟨hr, hcovers, hfit, rfl⟩ := State.encodeResult_eq_ok.1 hres
    exact ⟨hr, hcovers, hfit, rfl⟩

/-- Settles O40: success is the success of `encodeResult`, and the sum of the lengths is the length
of the concatenated codewords. -/
theorem encodeWritesTheConcatenation : Obligations.EncodeWritesTheConcatenation := by
  unfold Obligations.EncodeWritesTheConcatenation
  have hsum (s : State) : (s.sourceBytes.map fun x => (s.table.entry x).len.toNat).sum =
      (s.table.codeOf s.sourceBytes).length := (s.table.length_codeOf _).symm
  simp only [hsum]
  refine ⟨fun s hr hcovers hfit => ?_, fun s t h hcode => ?_⟩
  · have hlen := List.length_map (as := s.table.codeOf s.sourceBytes) bitChar
    have hroom := hlen.trans_le hfit
    refine ⟨_, exec_encode_of_covers hr hcovers hfit, hlen ▸ State.output_record hroom,
      State.output_destBytes_outLen hroom, ?_, s.output_keepsControl _, s.output_keepsTblRegs _,
      rfl⟩
    rw [State.output_outLen hroom]
    exact s.output_keepsDmemOutside _
  · obtain ⟨hr, hcovers, hfit, -⟩ := exec_encode_success h hcode
    exact ⟨hr, hcovers, hfit⟩

/-! ### Failure at a symbol -/

theorem State.length_sourceBytes (s : State) : s.sourceBytes.length = s.srcLen.toNat :=
  s.dmem.length_readBytes _ _

section
variable {s : State} {before after : List Byte} {x : Byte}

/-- An index of the source fits in ERR_POS (60_exceptions.md R251). -/
theorem State.length_lt_of_sourceBytes (hsource : s.sourceBytes = before ++ x :: after) :
    before.length < 2 ^ 32 := by
  have hlen := s.length_sourceBytes
  rw [hsource, List.length_append, List.length_cons] at hlen
  have hlt := s.srcLen.isLt
  omega

variable (hr : s.RegionsOk) (hsource : s.sourceBytes = before ++ x :: after)
  (hbefore : s.table.covers before) (hfit : (s.table.codeOf before).length ≤ s.dstCap.toNat)
include hr hsource hbefore hfit

theorem exec_encode_lookupError (hx : (s.table.entry x).valid = false) :
    exec .encode s = .next (s.raise ⟨.lookupError, before.length⟩) := by
  obtain ⟨hlookup, -⟩ := Table.encodeList_error (T := s.table) (cap := s.dstCap.toNat) (x := x)
    (post := after) (i := 0) (o := 0) hbefore (by rwa [Nat.zero_add])
  rw [exec_encode_eq, State.encodeResult_of_regionsOk hr, hsource, hlookup hx, Nat.zero_add]
  rfl

theorem exec_encode_outputOverflow (hx : (s.table.entry x).valid = true)
    (hroom : s.dstCap.toNat < (s.table.codeOf before).length + (s.table.entry x).length) :
    exec .encode s = .next (s.raise ⟨.outputOverflow, before.length⟩) := by
  obtain ⟨-, hoverflow⟩ := Table.encodeList_error (T := s.table) (cap := s.dstCap.toNat) (x := x)
    (post := after) (i := 0) (o := 0) hbefore (by rwa [Nat.zero_add])
  rw [exec_encode_eq, State.encodeResult_of_regionsOk hr, hsource,
    hoverflow hx (by rwa [Nat.zero_add]), Nat.zero_add]
  rfl

end

/-- Settles O41: EncodeLoop stops at `x` in both cases, and both errors spoil at most the
destination. -/
theorem encodeFailsAtTheFirstFailingSymbol : Obligations.EncodeFailsAtTheFirstFailingSymbol := by
  unfold Obligations.EncodeFailsAtTheFirstFailingSymbol
  intro s before after x hr hsource hbefore hfit
  have hpos := State.length_lt_of_sourceBytes hsource
  exact ⟨fun hx => ⟨_, exec_encode_lookupError hr hsource hbefore hfit hx,
      s.raise_record nofun hpos, s.raise_keepsDmemOutside _, s.raise_keepsControl _, ⟨rfl, rfl⟩,
      rfl⟩,
    fun hx hroom => ⟨_, exec_encode_outputOverflow hr hsource hbefore hfit hx hroom,
      s.raise_record nofun hpos, s.raise_keepsDmemOutside _, s.raise_keepsControl _, ⟨rfl, rfl⟩,
      rfl⟩⟩

/-! ### Enough room -/

/-- The length of a symbol's codeword, 0 for one without an entry (42_encode.md R176: the sum is
over the valid symbols). -/
def Table.validLength (T : Table) (x : Byte) : Nat :=
  if (T.entry x).valid then (T.entry x).len.toNat else 0

theorem Table.validLength_le {T : Table} (hwf : T.wf) (x : Byte) : T.validLength x ≤ 32 := by
  unfold Table.validLength
  split
  next hv =>
    obtain ⟨-, hle, -⟩ := Entry.wf_valid (hwf x) hv
    exact hle
  next => exact Nat.zero_le _

/-- 32 bits for each symbol are always enough (42_encode.md R176). -/
theorem Table.sum_validLength_le {T : Table} (hwf : T.wf) (xs : List Byte) :
    (xs.map T.validLength).sum ≤ 32 * xs.length := by
  have hsum := List.sum_le_card_nsmul (xs.map T.validLength) 32 fun n hn => by
    obtain ⟨x, -, rfl⟩ := List.mem_map.1 hn
    exact T.validLength_le hwf x
  rwa [List.length_map, smul_eq_mul, Nat.mul_comm] at hsum

theorem Table.length_codeOf_of_covers {T : Table} {xs : List Byte} (h : T.covers xs) :
    (T.codeOf xs).length = (xs.map T.validLength).sum := by
  rw [T.length_codeOf, List.map_congr_left fun x hx => (if_pos (h x hx)).symm]
  rfl

/-- The symbols before the first one without an entry. -/
theorem Table.exists_first_invalid {T : Table} {xs : List Byte} (h : ¬T.covers xs) :
    ∃ before x after, xs = before ++ x :: after ∧ T.covers before ∧ (T.entry x).valid = false := by
  cases hfind : xs.find? fun x => !(T.entry x).valid with
  | none => exact absurd (fun x hx => by simpa using List.find?_eq_none.1 hfind x hx) h
  | some x =>
    obtain ⟨hx, before, after, hxs, hbefore⟩ := List.find?_eq_some_iff_append.1 hfind
    exact ⟨before, x, after, hxs, fun y hy => by simpa using hbefore y hy, by simpa using hx⟩

/-- Settles O42: the room is enough for the codewords of any covered beginning of the source, so the
first symbol without an entry decides, and there is success without one. -/
theorem encodeWithEnoughRoomNeverOverflows : Obligations.EncodeWithEnoughRoomNeverOverflows := by
  unfold Obligations.EncodeWithEnoughRoomNeverOverflows
  intro s hr hwf hroom
  have hroom : (s.sourceBytes.map s.table.validLength).sum ≤ s.dstCap.toNat :=
    hroom.elim id ((s.table.sum_validLength_le hwf _).trans_eq
      (by rw [s.length_sourceBytes])).trans
  have hfit {before after : List Byte} (hsource : s.sourceBytes = before ++ after)
      (hbefore : s.table.covers before) :
      (s.table.codeOf before).length ≤ s.dstCap.toNat := by
    rw [hsource, List.map_append, List.sum_append] at hroom
    rw [Table.length_codeOf_of_covers hbefore]
    exact (Nat.le_add_right _ _).trans hroom
  have hsuccess (hcovers : s.table.covers s.sourceBytes) :=
    exec_encode_of_covers hr hcovers (hfit (List.append_nil _).symm hcovers)
  have hlookup {before after : List Byte} {x : Byte}
      (hsource : s.sourceBytes = before ++ x :: after) (hbefore : s.table.covers before) :=
    exec_encode_lookupError hr hsource hbefore (hfit hsource hbefore)
  refine ⟨fun hcovers => ⟨_, hsuccess hcovers, rfl⟩, fun before after x hsource hbefore hx =>
    ⟨_, hlookup hsource hbefore hx,
      s.raise_record nofun (State.length_lt_of_sourceBytes hsource)⟩, ?_⟩
  by_cases hcovers : s.table.covers s.sourceBytes
  · exact ⟨_, hsuccess hcovers, nofun⟩
  · obtain ⟨before, x, after, hsource, hbefore, hx⟩ := Table.exists_first_invalid hcovers
    exact ⟨_, hlookup hsource hbefore hx, nofun⟩

/-! ### The result as a function -/

/-- The region checks read the job parameters and the size of DMEM only (20_memory.md R73). -/
theorem State.regionError_congr {s u : State} (hsrcAddr : u.srcAddr = s.srcAddr)
    (hsrcLen : u.srcLen = s.srcLen) (hdstAddr : u.dstAddr = s.dstAddr)
    (hdstCap : u.dstCap = s.dstCap) (hsize : u.dmemSize = s.dmemSize) :
    u.regionError = s.regionError := by
  have hsrcEnd : u.srcEnd = s.srcEnd := by rw [State.srcEnd, hsrcAddr, hsrcLen, State.srcEnd]
  have hdstEnd : u.dstEnd = s.dstEnd := by rw [State.dstEnd, hdstAddr, hdstCap, State.dstEnd]
  have hsrcOk : u.srcOk = s.srcOk := by rw [State.srcOk, hsrcEnd, hsize, State.srcOk]
  have hdstOk : u.dstOk = s.dstOk := by rw [State.dstOk, hdstEnd, hsize, State.dstOk]
  have hoverlap : u.overlap = s.overlap := by
    rw [State.overlap, hsrcEnd, hdstEnd, hsrcAddr, hsrcLen, hdstAddr, hdstCap, State.overlap]
  rw [State.regionError, hsrcOk, hdstOk, hoverlap, State.regionError]

/-- Settles O43: `encodeResult` reads nothing else, and it decides the record and the output. -/
theorem encodeDependsOnlyOnItsInputs : Obligations.EncodeDependsOnlyOnItsInputs := by
  unfold Obligations.EncodeDependsOnlyOnItsInputs
  intro s u htable hsrcAddr hsrcLen hdstAddr hdstCap hsize hsource
  have hresult : u.encodeResult = s.encodeResult := by
    rw [State.encodeResult, State.regionError_congr hsrcAddr hsrcLen hdstAddr hdstCap hsize, htable,
      hdstCap, hsource, State.encodeResult]
  refine ⟨_, _, exec_encode_eq s, exec_encode_eq u, ?_⟩
  rw [hresult]
  cases hres : s.encodeResult with
  | error e => exact ⟨rfl, rfl, rfl, fun hcode =>
      absurd hcode (State.encodeResult_error_code hres)⟩
  | ok bytes =>
    refine ⟨rfl, rfl, rfl, fun _ => ?_⟩
    rw [State.endJob, State.endJob,
      State.output_destBytes_outLen (State.length_of_encodeResult (hresult.trans hres)),
      State.output_destBytes_outLen (State.length_of_encodeResult hres)]

/-! ### DECODE of codewords -/

theorem exec_decode_of_ok {s : State} {v : Bool} {ys : List Byte} (hr : s.RegionsOk)
    (hv : v = true → s.table.prefixFree)
    (h : s.decodeList s.dstCap.toNat 0 0 = .ok ys) :
    exec (.decode v) s = .next (s.output ys) := by
  rw [exec, execDecode_eq hr hv, h, State.output]

/-- The loop of DECODE ends at the end of the source (43_decode.md R191). -/
theorem State.decodeList_of_end {s : State} {k : Nat} (hk : s.srcLen.toNat ≤ k) (room n : Nat) :
    s.decodeList room n k = .ok [] := by
  rw [State.decodeList, if_pos hk]

/-- DECODE and DECODE.V with a prefix-free table give the symbols back whose codewords are the
source (43_decode.md R193, R196). -/
theorem exec_decode_of_codeOf {s : State} {ys : List Byte} (v : Bool) (hr : s.RegionsOk)
    (hwf : s.table.wf) (hfree : s.table.prefixFree) (hcovers : s.table.covers ys)
    (hsource : s.sourceBytes = (s.table.codeOf ys).map bitChar)
    (hroom : ys.length ≤ s.dstCap.toNat) : exec (.decode v) s = .next (s.output ys) := by
  have hlen : s.srcLen.toNat = (s.table.codeOf ys).length := by
    rw [← s.length_sourceBytes, hsource, List.length_map]
  have hstart : s.SourceAt 0 (s.table.codeOf ys) :=
    (s.sourceStartsWith_iff _).1 ⟨hlen.ge, by rwa [← hlen]⟩
  refine exec_decode_of_ok hr (fun _ => hfree) ?_
  rw [State.decodeList_prefixFree hwf hfree hcovers hroom hstart,
    State.decodeList_of_end (by rw [hlen, Nat.zero_add])]
  exact congrArg Except.ok (List.append_nil ys)

/-! ### An empty source -/

theorem exec_encode_of_srcLen_zero {s : State} (hr : s.RegionsOk) (hlen : s.srcLen = 0) :
    exec .encode s = .next (s.output []) := by
  have hsource : s.sourceBytes = [] :=
    List.eq_nil_of_length_eq_zero (by rw [s.length_sourceBytes, hlen]; rfl)
  have h := exec_encode_of_covers hr (by rw [hsource]; exact s.table.covers_nil)
    (by rw [hsource]; exact Nat.zero_le _)
  rwa [hsource] at h

theorem exec_decode_of_srcLen_zero {s : State} {v : Bool} (hr : s.RegionsOk)
    (hv : v = true → s.table.prefixFree) (hlen : s.srcLen = 0) :
    exec (.decode v) s = .next (s.output []) :=
  exec_decode_of_ok hr hv (State.decodeList_of_end (by rw [hlen]; rfl) _ _)

/-- Settles O44: each of the jobs ends with the empty output. -/
theorem emptySourceSucceeds : Obligations.EmptySourceSucceeds := by
  unfold Obligations.EmptySourceSucceeds
  intro s i hr hlen hi
  have hexec : exec i s = .next (s.output []) := by
    rcases hi with rfl | rfl | ⟨rfl, hfree⟩
    · exact exec_encode_of_srcLen_zero hr hlen
    · exact exec_decode_of_srcLen_zero hr nofun hlen
    · exact exec_decode_of_srcLen_zero hr (fun _ => hfree) hlen
  exact ⟨_, hexec, State.output_record (Nat.zero_le _), fun _ => rfl, s.output_keepsControl _,
    s.output_keepsTblRegs _, rfl⟩

/-! ### The round trip -/

/-- Settles O53: the source of the DECODE is the codewords of the source of the ENCODE. -/
theorem decodeInvertsEncode : Obligations.DecodeInvertsEncode := by
  unfold Obligations.DecodeInvertsEncode
  intro s t u v hwf hfree henc hcode htable _ hsource hr hroom
  obtain ⟨-, hcovers, hfit, rfl⟩ := exec_encode_success henc hcode
  rw [State.output_destBytes_outLen ((List.length_map _).trans_le hfit)] at hsource
  rw [State.output_table] at htable
  rw [← htable] at hwf hfree hcovers hsource
  rw [← s.length_sourceBytes] at hroom ⊢
  exact ⟨_, exec_decode_of_codeOf v hr hwf hfree hcovers hsource hroom, State.output_record hroom,
    u.output_destBytes _⟩

end Sys2Proof.Machine
end

section
/-! PROOF. DECODE and DECODE.V as functions of the table, the source, the job parameters and the
choices; where they succeed and where they fail; and the decoder's state machine: what O45 to O52
rest on. -/

namespace Sys2Proof.Machine

/-! ### DECODE by its result -/

/-- What DECODE computes from the table, the source bytes, the job parameters and the choices: its
symbols, or its first error (43_decode.md R191, R202). -/
def State.decodeResult (s : State) (v : Bool) : Except JobError (List Byte) :=
  match s.decodeCheck v with
  | some e => .error e
  | none => s.decodeList s.dstCap.toNat 0 0

/-- The checks pass when the regions are in order and, for DECODE.V, the table is prefix-free. -/
theorem State.decodeCheck_eq_none {s : State} {v : Bool} :
    s.decodeCheck v = none ↔ s.RegionsOk ∧ (v = true → s.table.prefixFree) := by
  refine ⟨fun h => ⟨State.regionsOk_of_decodeCheck h, fun hv =>
    State.prefixFree_of_decodeCheck (hv ▸ h)⟩, fun ⟨hr, hv⟩ => ?_⟩
  rw [State.decodeCheck, (s.regionError_eq_none).2 hr]
  cases v with
  | false => rfl
  | true =>
    rw [State.validationError, (s.table.findConflict_eq_none).2 (hv rfl)]
    rfl

/-- An error of the checks has a code of its own. -/
theorem State.decodeCheck_error_code {s : State} {v : Bool} {e : JobError}
    (h : s.decodeCheck v = some e) : e.code ≠ .none := by
  unfold State.decodeCheck at h
  split at h
  next e' he =>
    cases h
    rcases State.regionError_eq_some he with ⟨rfl, -⟩ | ⟨rfl, -⟩ | ⟨rfl, -⟩ <;> nofun
  next =>
    split at h
    next =>
      obtain ⟨p, -, rfl⟩ := Option.map_eq_some_iff.1 h
      nofun
    next => cases h

theorem State.decodeResult_of_decodeCheck {s : State} {v : Bool} {e : JobError}
    (h : s.decodeCheck v = some e) : s.decodeResult v = .error e := by
  rw [State.decodeResult, h]

theorem State.decodeResult_of_checked {s : State} {v : Bool} (hr : s.RegionsOk)
    (hv : v = true → s.table.prefixFree) :
    s.decodeResult v = s.decodeList s.dstCap.toNat 0 0 := by
  rw [State.decodeResult, State.decodeCheck_eq_none.2 ⟨hr, hv⟩]

/-- DECODE ends as its result says. -/
theorem exec_decode_eq (v : Bool) (s : State) :
    exec (.decode v) s = .next (s.endJob (s.decodeResult v)) := by
  cases hc : s.decodeCheck v with
  | some e =>
    rw [State.decodeResult_of_decodeCheck hc, exec, execDecode, hc]
    rfl
  | none =>
    obtain ⟨hr, hv⟩ := State.decodeCheck_eq_none.1 hc
    rw [State.decodeResult_of_checked hr hv, exec, execDecode_eq hr hv]
    cases s.decodeList s.dstCap.toNat 0 0 <;> rfl

/-- An error of DECODE has a code of its own. -/
theorem State.decodeResult_error_code {s : State} {v : Bool} {e : JobError}
    (h : s.decodeResult v = .error e) : e.code ≠ .none := by
  cases hc : s.decodeCheck v with
  | some e' =>
    rw [State.decodeResult_of_decodeCheck hc] at h
    cases h
    exact State.decodeCheck_error_code hc
  | none =>
    rw [State.decodeResult, hc] at h
    rcases (State.decodeList_error_code h).1 with hcode | hcode <;> rw [hcode] <;> nofun

/-! ### Success -/

/-- The source is the bit characters of `c` when it begins with them and ends behind them. -/
theorem State.sourceBytes_eq_iff (s : State) (c : Codeword) :
    s.sourceBytes = c.map bitChar ↔ c.length = s.srcLen.toNat ∧ s.SourceAt 0 c := by
  constructor
  · intro h
    have hlen : c.length = s.srcLen.toNat := by
      rw [← s.length_sourceBytes, h, List.length_map]
    exact ⟨hlen, (s.sourceStartsWith_iff c).1 ⟨hlen.le, by rwa [hlen]⟩⟩
  · rintro ⟨hlen, hat⟩
    obtain ⟨-, hbytes⟩ := (s.sourceStartsWith_iff c).2 hat
    rwa [hlen] at hbytes

/-- What a successful DECODE says of its symbols: they fit, each has an entry, and their codewords
are the source (43_decode.md R193). -/
theorem State.decodeResult_ok {s : State} {v : Bool} {ys : List Byte}
    (h : s.decodeResult v = .ok ys) :
    s.table.covers ys ∧ ys.length ≤ s.dstCap.toNat ∧
      s.sourceBytes = (s.table.codeOf ys).map bitChar := by
  cases hc : s.decodeCheck v with
  | some e =>
    rw [State.decodeResult_of_decodeCheck hc] at h
    cases h
  | none =>
    rw [State.decodeResult, hc] at h
    obtain ⟨hcovers, hroom, hend, hat⟩ := State.decodeList_ok (Nat.zero_le _) h
    rw [Nat.zero_add] at hend
    exact ⟨hcovers, hroom, (s.sourceBytes_eq_iff _).2 ⟨hend, hat⟩⟩

/-- Settles O45: DECODE of codewords ends with the symbols as its output. -/
theorem decodeReturnsTheSymbols : Obligations.DecodeReturnsTheSymbols := by
  unfold Obligations.DecodeReturnsTheSymbols
  intro s v ys hr hwf hfree hcovers hsource hroom
  exact ⟨_, exec_decode_of_codeOf v hr hwf hfree hcovers hsource hroom, State.output_record hroom,
    s.output_destBytes ys, s.output_keepsDmemOutside ys, s.output_keepsControl ys,
    s.output_keepsTblRegs ys, s.output_table ys⟩

theorem Entry.codeword_ne_nil {e : Entry} (hwf : e.wf = true) (hv : e.valid = true) :
    e.codeword ≠ [] := by
  obtain ⟨hpos, -⟩ := Entry.wf_valid hwf hv
  rw [← List.length_pos_iff, Entry.length_codeword]
  exact hpos

/-- Settles O46: a success has the symbols of `decodeResult` as its output. -/
theorem decodeOutputParsesTheSource : Obligations.DecodeOutputParsesTheSource := by
  unfold Obligations.DecodeOutputParsesTheSource
  intro s v
  refine ⟨_, exec_decode_eq v s, fun hcode => ?_⟩
  cases hres : s.decodeResult v with
  | error e =>
    rw [hres] at hcode
    exact absurd hcode (State.decodeResult_error_code hres)
  | ok ys =>
    obtain ⟨hcovers, hroom, hsource⟩ := State.decodeResult_ok hres
    rw [State.endJob, State.output_outLen hroom]
    exact ⟨ys, hcovers, rfl, s.output_destBytes ys, hsource,
      fun hwf y hy => Entry.codeword_ne_nil (hwf y) (hcovers y hy), s.output_keepsDmemOutside ys⟩

/-! ### Failure at a cursor -/

/-- Nothing matches at a cursor before the end of the source (43_decode.md R194). -/
theorem State.decodeList_of_noMatch {s : State} {k : Nat} (hk : k < s.srcLen.toNat)
    (h : ∀ x, s.matchesAt s.dmem k x = false) (room n : Nat) :
    s.decodeList room n k = .error ⟨.decodeError, k⟩ := by
  rw [State.decodeList, if_neg hk.not_ge, State.matchChoice_none.2 h]

/-- Something matches, and no room is left (43_decode.md R191). -/
theorem State.decodeList_of_noRoom {s : State} {k : Nat} (hk : k < s.srcLen.toNat)
    (h : ∃ x, s.matchesAt s.dmem k x = true) (n : Nat) :
    s.decodeList 0 n k = .error ⟨.outputOverflow, k⟩ := by
  obtain ⟨x, hx⟩ := h
  rw [State.decodeList, if_neg hk.not_ge]
  cases hc : s.matchChoice s.dmem n k with
  | none => exact absurd ((State.matchChoice_none.1 hc x).symm.trans hx) Bool.false_ne_true
  | some y => rfl

section
variable {s : State} {ys : List Byte} (hr : s.RegionsOk) (hwf : s.table.wf)
  (hfree : s.table.prefixFree) (hcovers : s.table.covers ys)
  (hstart : s.SourceAt 0 (s.table.codeOf ys)) (hroom : ys.length ≤ s.dstCap.toNat)
include hr hwf hfree hcovers hstart hroom

/-- DECODE goes through the codewords that its source begins with, and fails as it does behind
them. -/
theorem exec_decode_of_error_behind (v : Bool) {e : JobError}
    (h : s.decodeList (s.dstCap.toNat - ys.length) ys.length (s.table.codeOf ys).length =
      .error e) :
    exec (.decode v) s = .next (s.raise e) := by
  rw [exec_decode_eq, State.decodeResult_of_checked hr fun _ => hfree,
    State.decodeList_prefixFree hwf hfree hcovers hroom hstart, Nat.zero_add, Nat.zero_add, h]
  rfl

variable (hk : (s.table.codeOf ys).length < s.srcLen.toNat)
include hk

theorem exec_decode_decodeError (v : Bool)
    (h : ∀ x, s.matchesAt s.dmem (s.table.codeOf ys).length x = false) :
    exec (.decode v) s = .next (s.raise ⟨.decodeError, (s.table.codeOf ys).length⟩) :=
  exec_decode_of_error_behind hr hwf hfree hcovers hstart hroom v
    (State.decodeList_of_noMatch hk h _ _)

theorem exec_decode_outputOverflow (v : Bool)
    (h : ∃ x, s.matchesAt s.dmem (s.table.codeOf ys).length x = true)
    (hfull : ys.length = s.dstCap.toNat) :
    exec (.decode v) s = .next (s.raise ⟨.outputOverflow, (s.table.codeOf ys).length⟩) := by
  refine exec_decode_of_error_behind hr hwf hfree hcovers hstart hroom v ?_
  rw [← hfull, Nat.sub_self]
  exact State.decodeList_of_noRoom hk h _

end

/-- Settles O47: the loop stops behind the codewords of `ys` in both cases, and both errors spoil at
most the destination. -/
theorem decodeFailsAtTheFirstFailingCursor : Obligations.DecodeFailsAtTheFirstFailingCursor := by
  unfold Obligations.DecodeFailsAtTheFirstFailingCursor
  intro s v ys hr hwf hfree hcovers hstart hk hroom
  have hstart := (s.sourceStartsWith_iff _).1 hstart
  have hpos := hk.trans s.srcLen.isLt
  exact ⟨fun h => ⟨_, exec_decode_decodeError hr hwf hfree hcovers hstart hroom hk v h,
      s.raise_record nofun hpos, s.raise_keepsDmemOutside _, s.raise_keepsControl _, ⟨rfl, rfl⟩,
      rfl⟩,
    fun h hfull => ⟨_, exec_decode_outputOverflow hr hwf hfree hcovers hstart hroom hk v h hfull,
      s.raise_record nofun hpos, s.raise_keepsDmemOutside _, s.raise_keepsControl _, ⟨rfl, rfl⟩,
      rfl⟩⟩

/-! ### A truncated source -/

/-- Of two bit sequences that stand at one cursor the shorter is a prefix of the other. -/
theorem State.SourceAt.isPrefix {s : State} {k : Nat} {c d : Codeword} (hc : s.SourceAt k c)
    (hd : s.SourceAt k d) (hle : c.length ≤ d.length) : c <+: d := by
  obtain ⟨r, hr⟩ := Nat.exists_eq_add_of_le hle
  have hbytes := hd.2
  rw [hr, Memory.readBytes_add, hc.2] at hbytes
  exact (List.prefix_map_iff_of_injective fun _ _ => bitChar_injective).1 ⟨_, hbytes⟩

/-- Where the source ends in the middle of a codeword nothing matches (43_decode.md R198): what
matched would be a prefix of the unfinished codeword. -/
theorem State.noMatch_of_truncated {s : State} (hwf : s.table.wf) (hfree : s.table.prefixFree)
    {k : Nat} {x : Byte} {tail : Codeword} (hx : (s.table.entry x).valid = true)
    (hprefix : tail <+: (s.table.entry x).codeword) (hne : tail ≠ (s.table.entry x).codeword)
    (hat : s.SourceAt k tail) (hend : k + tail.length = s.srcLen.toNat) (y : Byte) :
    s.matchesAt s.dmem k y = false := by
  refine Bool.eq_false_iff.2 fun hmatch => hne ?_
  obtain ⟨hy, hcode⟩ := (s.matchesAt_iff k y).1 hmatch
  have hfits := hcode.1
  have hyt : (s.table.entry y).codeword <+: tail := hcode.isPrefix hat (by omega)
  obtain rfl : y = x := Table.prefixFree_eq hfree hy hx
    ((Entry.prefixOf_iff (hwf y) (hwf x) hy hx).2 (hyt.trans hprefix))
  exact hprefix.eq_of_length_le hyt.length_le

/-- Settles O48: nothing matches behind the codewords of `ys`, and the source goes on there. -/
theorem truncatedInputFailsWhereTheCodewordStarts :
    Obligations.TruncatedInputFailsWhereTheCodewordStarts := by
  unfold Obligations.TruncatedInputFailsWhereTheCodewordStarts
  intro s v ys x tail hr hwf hfree hcovers hroom hx hnonempty hprefix hne hsource
  obtain ⟨hend, hat⟩ := (s.sourceBytes_eq_iff _).1 hsource
  obtain ⟨hstart, htail⟩ := (s.sourceAt_append _ _ _).1 hat
  rw [Nat.zero_add] at htail
  rw [List.length_append] at hend
  have hk : (s.table.codeOf ys).length < s.srcLen.toNat := by
    have := List.length_pos_iff.2 hnonempty
    omega
  exact ⟨_, exec_decode_decodeError hr hwf hfree hcovers hstart hroom hk v
      (State.noMatch_of_truncated hwf hfree hx hprefix hne htail hend),
    s.raise_record nofun (hk.trans s.srcLen.isLt)⟩

/-! ### The result as a function -/

/-- The loop reads the source through its matches only. -/
theorem State.decodeList_congr {s u : State} (htable : u.table = s.table)
    (hsrcLen : u.srcLen = s.srcLen)
    (hchoice : ∀ n k, u.matchChoice u.dmem n k = s.matchChoice s.dmem n k) (room n k : Nat) :
    u.decodeList room n k = s.decodeList room n k := by
  induction room generalizing n k with
  | zero => rw [State.decodeList, hsrcLen, hchoice, State.decodeList]
  | succ room ih =>
    rw [State.decodeList, hsrcLen, hchoice, htable, State.decodeList]
    simp only [ih]

/-- The state with another index of its draws (log 6). -/
def State.withDraw (s : State) (d : Nat) : State := { s with draw := d }

@[simp] theorem State.withDraw_decodeCheck (s : State) (d : Nat) (v : Bool) :
    (s.withDraw d).decodeCheck v = s.decodeCheck v := rfl
@[simp] theorem State.withDraw_matchesAt (s : State) (d : Nat) (m : Memory) (k : Nat) (x : Byte) :
    (s.withDraw d).matchesAt m k x = s.matchesAt m k x := rfl

section
variable {s : State} (hwf : s.table.wf) (hfree : s.table.prefixFree)
include hwf hfree

/-- With a prefix-free table the choice is made from one entry at most (43_decode.md R196). -/
theorem State.matchChoice_withDraw (d n k : Nat) :
    (s.withDraw d).matchChoice s.dmem n k = s.matchChoice s.dmem n k := by
  cases hc : s.matchChoice s.dmem n k with
  | none =>
    exact State.matchChoice_none.2 fun x =>
      (s.withDraw_matchesAt d _ k x).trans (State.matchChoice_none.1 hc x)
  | some x =>
    exact State.matchChoice_unique (s := s.withDraw d) hwf hfree
      ((s.withDraw_matchesAt d _ k x).trans (State.matchChoice_some hc))

theorem State.decodeResult_withDraw (v : Bool) (d : Nat) :
    (s.withDraw d).decodeResult v = s.decodeResult v := by
  rw [State.decodeResult, State.withDraw_decodeCheck,
    State.decodeList_congr (u := s.withDraw d) (s := s) rfl rfl
      (State.matchChoice_withDraw hwf hfree d)]
  rfl

end

/-- Settles O49: the draws do not enter the result, and a success writes the symbols of the
result. -/
theorem prefixFreeDecodeIsDeterministic : Obligations.PrefixFreeDecodeIsDeterministic := by
  unfold Obligations.PrefixFreeDecodeIsDeterministic
  intro s hwf hfree
  refine ⟨fun k x y => State.matches_unique hwf hfree, fun v d =>
    ⟨_, _, exec_decode_eq v s, exec_decode_eq v (s.withDraw d), ?_⟩⟩
  rw [State.decodeResult_withDraw hwf hfree]
  cases hres : s.decodeResult v with
  | error e => exact ⟨rfl, rfl, rfl, fun hcode =>
      absurd hcode (State.decodeResult_error_code hres)⟩
  | ok ys => exact ⟨rfl, rfl, rfl, fun _ _ => rfl⟩

/-- Equal source bytes are agreement on the source region. -/
theorem State.agreesOnSource_of_readBytes {s : State} {m : Memory}
    (h : m.readBytes s.srcAddr.toNat s.srcLen.toNat = s.sourceBytes) : s.AgreesOnSource m := by
  intro a hge hlt
  obtain ⟨i, rfl⟩ := Nat.exists_eq_add_of_le hge
  exact List.map_inj_left.1 h i (List.mem_range.2 (by omega))

section
variable {s u : State} (htable : u.table = s.table) (hsrcAddr : u.srcAddr = s.srcAddr)
  (hsrcLen : u.srcLen = s.srcLen) (hdraw : u.draw = s.draw)
  (hsource : u.sourceBytes = s.sourceBytes)
include htable hsrcAddr hsrcLen hdraw hsource

/-- The choice reads the table, the source and the draws only (43_decode.md R192, R195). -/
theorem State.matchChoice_of_sameSource (n k : Nat) :
    u.matchChoice u.dmem n k = s.matchChoice s.dmem n k := by
  have hagree : s.AgreesOnSource u.dmem :=
    State.agreesOnSource_of_readBytes (by rw [← hsource, State.sourceBytes, hsrcAddr, hsrcLen])
  have hmatches : u.matchesAt u.dmem k = s.matchesAt u.dmem k := by
    funext x
    rw [State.matchesAt, htable, hsrcAddr, hsrcLen, State.matchesAt]
  rw [← State.matchChoice_congr hagree, State.matchChoice, State.matchSet, hmatches, hdraw]
  rfl

theorem State.decodeResult_congr (hdstAddr : u.dstAddr = s.dstAddr) (hdstCap : u.dstCap = s.dstCap)
    (hsize : u.dmemSize = s.dmemSize) (v : Bool) : u.decodeResult v = s.decodeResult v := by
  have hcheck : u.decodeCheck v = s.decodeCheck v := by
    rw [State.decodeCheck, State.regionError_congr hsrcAddr hsrcLen hdstAddr hdstCap hsize,
      State.validationError, htable, State.decodeCheck, State.validationError]
  rw [State.decodeResult, hcheck, hdstCap, State.decodeList_congr htable hsrcLen
    (State.matchChoice_of_sameSource htable hsrcAddr hsrcLen hdraw hsource), State.decodeResult]

end

/-- Settles O50: `decodeResult` reads nothing else, and it decides the record and the output. -/
theorem decodeDependsOnlyOnItsInputs : Obligations.DecodeDependsOnlyOnItsInputs := by
  unfold Obligations.DecodeDependsOnlyOnItsInputs
  intro s u v htable hsrcAddr hsrcLen hdstAddr hdstCap hsize hdraw hsource
  have hresult : u.decodeResult v = s.decodeResult v := State.decodeResult_congr htable hsrcAddr
    hsrcLen hdraw hsource hdstAddr hdstCap hsize v
  refine ⟨_, _, exec_decode_eq v s, exec_decode_eq v u, ?_⟩
  rw [hresult]
  cases hres : s.decodeResult v with
  | error e => exact ⟨rfl, rfl, rfl, fun hcode =>
      absurd hcode (State.decodeResult_error_code hres)⟩
  | ok ys =>
    obtain ⟨-, hroom, -⟩ := State.decodeResult_ok hres
    obtain ⟨-, hroom', -⟩ := State.decodeResult_ok (hresult.trans hres)
    refine ⟨rfl, rfl, rfl, fun _ => ?_⟩
    rw [State.endJob, State.endJob, State.output_destBytes_outLen hroom',
      State.output_destBytes_outLen hroom]

/-! ### DECODE.V -/

theorem State.decodeCheck_of_conflict {s : State} (hr : s.RegionsOk) {a b : Byte}
    (h : s.table.findConflict = some (a, b)) :
    s.decodeCheck true = some ⟨.validationError, pairPos a b⟩ := by
  rw [State.decodeCheck, (s.regionError_eq_none).2 hr, State.validationError, h]
  rfl

/-- Settles O51: the validation pass is the last check, and with a prefix-free table both forms go
on with the same loop. -/
theorem decodeVValidatesFirst : Obligations.DecodeVValidatesFirst := by
  unfold Obligations.DecodeVValidatesFirst
  refine fun s hr => ⟨fun a b h => ?_, fun hfree => ?_⟩
  · have hexec : exec (.decode true) s = .next (s.raise ⟨.validationError, pairPos a b⟩) := by
      rw [exec_decode_eq, State.decodeResult_of_decodeCheck (State.decodeCheck_of_conflict hr h),
        State.endJob]
    exact ⟨_, hexec, s.raise_record nofun (pairPos_lt a b), s.raise_keepsDmem rfl,
      s.raise_keepsControl _, ⟨rfl, rfl⟩, rfl⟩
  · rw [exec_decode_eq, exec_decode_eq,
      State.decodeResult_of_checked (v := true) hr fun _ => hfree,
      State.decodeResult_of_checked (v := false) hr nofun]

/-! ### The loop by its cases (43_decode.md R191) -/

section
variable {s : State} {k n : Nat} {m : Memory}

theorem State.decodeLoop_of_end (hk : s.srcLen.toNat ≤ k) (room : Nat) :
    s.decodeLoop room n k m = .ok (m, n) := by
  rw [State.decodeLoop, if_pos hk]

variable (hk : k < s.srcLen.toNat)
include hk

theorem State.decodeLoop_of_none (hx : s.matchChoice m n k = none) (room : Nat) :
    s.decodeLoop room n k m = .error ⟨.decodeError, k⟩ := by
  rw [State.decodeLoop, if_neg hk.not_ge, hx]

variable {x : Byte} (hx : s.matchChoice m n k = some x)
include hx

theorem State.decodeLoop_of_full : s.decodeLoop 0 n k m = .error ⟨.outputOverflow, k⟩ := by
  rw [State.decodeLoop, if_neg hk.not_ge, hx]

theorem State.decodeLoop_of_room (room : Nat) :
    s.decodeLoop (room + 1) n k m = s.decodeLoop room (n + 1) (k + (s.table.entry x).length)
      (m.write (s.dstAddr.toNat + n) x) := by
  rw [State.decodeLoop, if_neg hk.not_ge, hx]

end

/-! ### The decoder's state machine -/

/-- The state machine moves from `p` to `q`. -/
def Phase.Leads (s : State) (v : Bool) (p q : Phase) : Prop := ∃ j, p.run s v j = q

section
variable {s : State} {v : Bool} {p q r : Phase}

theorem Phase.Leads.single (h : p.next s v = q) : p.Leads s v q := ⟨1, h⟩

theorem Phase.Leads.head (h : p.next s v = q) : q.Leads s v r → p.Leads s v r
  | ⟨j, hj⟩ => ⟨j + 1, by rw [Phase.run, h, hj]⟩

end

/-- The final phase that stands for an answer of the loop of DECODE (43_decode.md R190: rows ERROR
and DONE). -/
def Phase.ofLoop : Except JobError (Memory × Nat) → Phase
  | .error e => .error e
  | .ok (m, n) => .done n m

/-- The final phase that stands for the end of the pseudocode (43_decode.md R191). -/
def State.finalPhase (s : State) (v : Bool) : Phase :=
  match s.decodeCheck v with
  | some e => .error e
  | none => .ofLoop (s.decodeLoop s.dstCap.toNat 0 0 s.dmem)

theorem State.finalPhase_of_decodeCheck {s : State} {v : Bool} {e : JobError}
    (h : s.decodeCheck v = some e) : s.finalPhase v = .error e := by
  rw [State.finalPhase, h]

theorem State.finalPhase_of_checked {s : State} {v : Bool} (h : s.decodeCheck v = none) :
    s.finalPhase v = .ofLoop (s.decodeLoop s.dstCap.toNat 0 0 s.dmem) := by
  rw [State.finalPhase, h]

/-- The final phase of the pseudocode completes the job as DECODE does. -/
theorem State.finalPhase_completion (s : State) (v : Bool) :
    ∃ t, (s.finalPhase v).completion s = some t ∧ exec (.decode v) s = .next t := by
  rw [exec, execDecode]
  cases hc : s.decodeCheck v with
  | some e =>
    rw [State.finalPhase_of_decodeCheck hc]
    exact ⟨_, rfl, rfl⟩
  | none =>
    rw [State.finalPhase_of_checked hc]
    cases s.decodeLoop s.dstCap.toNat 0 0 s.dmem <;> exact ⟨_, rfl, rfl⟩

theorem State.le_of_matchChoice {s : State} {m : Memory} {n k : Nat} {x : Byte}
    (h : s.matchChoice m n k = some x) : k + (s.table.entry x).length ≤ s.srcLen.toNat := by
  have hmatch := State.matchChoice_some h
  simp only [State.matchesAt, Bool.and_eq_true, decide_eq_true_eq] at hmatch
  obtain ⟨⟨-, hfits⟩, -⟩ := hmatch
  exact hfits

section
variable {s : State} {k n : Nat} {m : Memory} (v : Bool)

/-- SCAN ends as the loop does at the end of the source and where nothing matches, and otherwise
goes on with EMIT (43_decode.md R190). -/
theorem Phase.leads_scan {room : Nat} (hk : k ≤ s.srcLen.toNat)
    (hemit : ∀ x, k < s.srcLen.toNat → s.matchChoice m n k = some x →
      (Phase.emit k n x m).Leads s v (.ofLoop (s.decodeLoop room n k m))) :
    (Phase.scan k n m).Leads s v (.ofLoop (s.decodeLoop room n k m)) := by
  rcases hk.eq_or_lt with hend | hlt
  · rw [State.decodeLoop_of_end hend.ge]
    exact .single (if_pos hend)
  cases hx : s.matchChoice m n k with
  | none =>
    rw [State.decodeLoop_of_none hlt hx]
    exact .single (by rw [Phase.next, if_neg hlt.ne, hx]; rfl)
  | some x => exact .head (by rw [Phase.next, if_neg hlt.ne, hx]) (hemit x hlt hx)

/-- SCAN and EMIT run through the loop of DECODE: the room is what `n` leaves of DST_CAP, and the
cursor never passes the end of the source (43_decode.md R199). -/
theorem Phase.leads_loop {room : Nat} (hk : k ≤ s.srcLen.toNat)
    (hroom : n + room = s.dstCap.toNat) :
    (Phase.scan k n m).Leads s v (.ofLoop (s.decodeLoop room n k m)) := by
  induction room generalizing n k m with
  | zero =>
    refine Phase.leads_scan v hk fun x hlt hx => ?_
    rw [State.decodeLoop_of_full hlt hx]
    exact .single (if_pos (by omega))
  | succ room ih =>
    refine Phase.leads_scan v hk fun x hlt hx => ?_
    rw [State.decodeLoop_of_room hlt hx]
    exact .head (if_neg (by omega)) (ih (State.le_of_matchChoice hx) (by omega))

end

/-- CHECK and VALIDATE end as the checks of the pseudocode do, and otherwise go on with SCAN
(43_decode.md R190). -/
theorem Phase.leads_finalPhase (s : State) (v : Bool) :
    Phase.check.Leads s v (s.finalPhase v) := by
  have hscan (hc : s.decodeCheck v = none) :
      (Phase.scan 0 0 s.dmem).Leads s v (s.finalPhase v) := by
    rw [State.finalPhase_of_checked hc]
    exact Phase.leads_loop v (Nat.zero_le _) (Nat.zero_add _)
  cases hr : s.regionError with
  | some e =>
    rw [State.finalPhase_of_decodeCheck (by rw [State.decodeCheck, hr])]
    exact .single (by rw [Phase.next, hr])
  | none =>
    have hcheck : s.decodeCheck v = if v then s.validationError else none := by
      rw [State.decodeCheck, hr]
    cases v with
    | false => exact .head (by rw [Phase.next, hr]; rfl) (hscan hcheck)
    | true =>
      refine .head (q := .validate) (by rw [Phase.next, hr]; rfl) ?_
      cases hv : s.validationError with
      | some e =>
        rw [State.finalPhase_of_decodeCheck (hcheck.trans hv)]
        exact .single (by rw [Phase.next, hv])
      | none => exact .head (by rw [Phase.next, hv]) (hscan (hcheck.trans hv))

/-- Settles O52: the state machine reaches the final phase of the pseudocode. -/
theorem decoderStateMachineRefinesThePseudocode :
    Obligations.DecoderStateMachineRefinesThePseudocode := by
  unfold Obligations.DecoderStateMachineRefinesThePseudocode
  intro s v
  obtain ⟨j, hj⟩ := Phase.leads_finalPhase s v
  obtain ⟨t, hcompletion, hexec⟩ := s.finalPhase_completion v
  exact ⟨j, t, by rw [hj, hcompletion], hexec⟩

end Sys2Proof.Machine
end

section
/-! PROOF. The host's `Build`: the used symbols, the codewords of a tree as a prefix code, and the
leaves that merging keeps: what O56 to O58 rest on. -/

namespace Sys2Proof.Machine

/-! ### The used symbols -/

/-- `freq(s) ≥ 1` says that the sequence holds `s` (44_host_codebook_generation.md R221). -/
@[simp] theorem mem_usedSymbols {S : List Byte} {x : Byte} : x ∈ usedSymbols S ↔ x ∈ S := by
  simp [usedSymbols, freqOf, Nat.one_le_iff_ne_zero]

theorem usedSymbols_nodup (S : List Byte) : (usedSymbols S).Nodup := symbols_nodup.filter _

theorem usedSymbols_nil : usedSymbols [] = [] := List.eq_nil_iff_forall_not_mem.2 (by simp)

theorem usedSymbols_replicate (n : Nat) (x : Byte) :
    usedSymbols (List.replicate (n + 1) x) = [x] :=
  List.perm_singleton.1 <|
    (List.perm_ext_iff_of_nodup (usedSymbols_nodup _) (List.nodup_singleton x)).2 (by simp)

/-! ### The codewords of a tree -/

/-- The symbols of the leaves, in the order of the walk. -/
def Tree.symbols : Tree → List Byte
  | .leaf x _ => [x]
  | .internal _ l r => l.symbols ++ r.symbols
  | .single _ r => r.symbols

/-- The walk gives one codeword to each leaf. -/
theorem Tree.assign_symbols (t : Tree) (p : Codeword) : (t.assign p).map Prod.fst = t.symbols := by
  induction t generalizing p with
  | leaf x f => rfl
  | internal f l r ihl ihr => rw [Tree.assign, List.map_append, ihl, ihr, Tree.symbols]
  | single f r ih => exact ih _

/-- The codewords below a node extend the node's path. -/
theorem Tree.prefix_of_mem_assign {t : Tree} {p : Codeword} {e : Byte × Codeword}
    (h : e ∈ t.assign p) : p <+: e.2 := by
  induction t generalizing p with
  | leaf x f => exact List.mem_singleton.1 h ▸ List.prefix_rfl
  | internal f l r ihl ihr =>
    obtain hl | hr := List.mem_append.1 h
    · exact (List.prefix_append p _).trans (ihl hl)
    · exact (List.prefix_append p _).trans (ihr hr)
  | single f r ih => exact (List.prefix_append p _).trans (ih h)

/-- Of two extensions of the two paths that part at a node, neither is a prefix of the other. -/
theorem Codeword.incompRel_of_branches {p c d : Codeword} (hc : p ++ [true] <+: c)
    (hd : p ++ [false] <+: d) : IncompRel (· <+: ·) c d := by
  have apart {w : Codeword} (ht : p ++ [true] <+: w) (hf : p ++ [false] <+: w) : False := by
    have := List.prefix_of_prefix_length_le ht hf (by simp)
    simp at this
  exact ⟨fun h => apart (hc.trans h) hd, fun h => apart hc (hd.trans h)⟩

/-- Of the codewords of two leaves, neither is a prefix of the other. -/
theorem Tree.assign_pairwise (t : Tree) (p : Codeword) :
    (t.assign p).Pairwise fun a b => IncompRel (· <+: ·) a.2 b.2 := by
  induction t generalizing p with
  | leaf x f => exact List.pairwise_singleton _ _
  | internal f l r ihl ihr =>
    exact List.pairwise_append.2 ⟨ihl _, ihr _, fun a ha b hb =>
      Codeword.incompRel_of_branches (prefix_of_mem_assign ha) (prefix_of_mem_assign hb)⟩
  | single f r ih => exact ih _

theorem Tree.incompRel_of_mem_assign {t : Tree} {p : Codeword} {a b : Byte × Codeword}
    (ha : a ∈ t.assign p) (hb : b ∈ t.assign p) (hne : a ≠ b) : IncompRel (· <+: ·) a.2 b.2 :=
  have : Std.Symm fun a b : Byte × Codeword => IncompRel (· <+: ·) a.2 b.2 :=
    ⟨fun _ _ => IncompRel.symm⟩
  (t.assign_pairwise p).forall ha hb hne

/-- Only in a tree that is a leaf the walk ends before it has taken a branch. -/
theorem Tree.assign_ne_nil {t : Tree} (ht : ∀ x f, t ≠ .leaf x f) {p : Codeword}
    {e : Byte × Codeword} (h : e ∈ t.assign p) : e.2 ≠ [] := by
  have branch {q : Codeword} {b : Bool} (hq : q ++ [b] <+: e.2) : e.2 ≠ [] :=
    fun hnil => by simp [hnil] at hq
  cases t with
  | leaf x f => exact absurd rfl (ht x f)
  | internal f l r =>
    obtain hl | hr := List.mem_append.1 h
    · exact branch (prefix_of_mem_assign hl)
    · exact branch (prefix_of_mem_assign hr)
  | single f r => exact branch (prefix_of_mem_assign (t := r) h)

/-! ### The active nodes -/

theorem insertActive_perm (x : ActiveNode) (A : List ActiveNode) :
    (insertActive x A).Perm (x :: A) := by
  induction A with
  | nil => exact .refl _
  | cons y ys ih =>
    rw [insertActive]
    split
    · exact .refl _
    · exact (ih.cons y).trans (.swap x y ys)

theorem foldl_insertActive_perm {α : Type} (f : α → ActiveNode) (l : List α)
    (A : List ActiveNode) :
    (l.foldl (fun A a => insertActive (f a) A) A).Perm (l.map f ++ A) := by
  induction l generalizing A with
  | nil => exact .refl _
  | cons a l ih =>
    calc (l.foldl (fun A a => insertActive (f a) A) (insertActive (f a) A))
      _ |>.Perm (l.map f ++ insertActive (f a) A) := ih _
      _ |>.Perm (l.map f ++ f a :: A) := (insertActive_perm _ _).append_left _
      _ |>.Perm ((a :: l).map f ++ A) := List.perm_middle

/-- The symbols of the leaves of the active nodes. -/
def activeSymbols (A : List ActiveNode) : List Byte := A.flatMap fun a => a.tree.symbols

/-- Each used symbol starts as one leaf (44_host_codebook_generation.md R223). -/
theorem initialActive_perm (S : List Byte) : (initialActive S).Perm
    ((usedSymbols S).zipIdx.map fun p => ⟨.leaf p.1 (freqOf S p.1), p.2⟩) := by
  simpa [initialActive] using foldl_insertActive_perm
    (fun p : Byte × Nat => ⟨.leaf p.1 (freqOf S p.1), p.2⟩) (usedSymbols S).zipIdx []

theorem length_initialActive (S : List Byte) :
    (initialActive S).length = (usedSymbols S).length := by
  simp [(initialActive_perm S).length_eq]

theorem activeSymbols_initialActive (S : List Byte) :
    (activeSymbols (initialActive S)).Perm (usedSymbols S) := by
  refine ((initialActive_perm S).flatMap_right _).trans (.of_eq ?_)
  simp [List.flatMap_map, Tree.symbols, ← List.map_eq_flatMap]

/-- Merging the two first nodes keeps the leaves. -/
theorem activeSymbols_merge (f seq : Nat) (x y : ActiveNode) (rest : List ActiveNode) :
    (activeSymbols (insertActive ⟨.internal f x.tree y.tree, seq⟩ rest)).Perm
      (activeSymbols (x :: y :: rest)) := by
  refine ((insertActive_perm _ _).flatMap_right _).trans (.of_eq ?_)
  simp [activeSymbols, Tree.symbols]

/-- With fuel for every merge, merging ends in one tree with the leaves of all the active nodes
(44_host_codebook_generation.md R224). -/
theorem mergeActive_eq_some {fuel seq : Nat} {A : List ActiveNode} (hne : A ≠ [])
    (hfuel : A.length ≤ fuel + 1) :
    ∃ t, mergeActive fuel seq A = some t ∧ t.symbols.Perm (activeSymbols A) := by
  fun_induction mergeActive fuel seq A with
  | case1 => exact absurd rfl hne
  | case2 fuel seq x => exact ⟨x.tree, rfl, by simp [activeSymbols]⟩
  | case3 seq x y rest => simp at hfuel
  | case4 fuel seq x y rest ih =>
    have hperm := insertActive_perm
      ⟨.internal (x.tree.frequency + y.tree.frequency) x.tree y.tree, seq⟩ rest
    obtain ⟨t, ht, hsym⟩ := ih (fun h => by simp [h] at hperm)
      (by simpa [hperm.length_eq] using hfuel)
    exact ⟨t, ht, hsym.trans (activeSymbols_merge ..)⟩

/-! ### The root -/

/-- A single used symbol gets the synthetic root (44_host_codebook_generation.md R226). -/
theorem buildTree_of_single {S : List Byte} {x : Byte} (h : usedSymbols S = [x]) :
    buildTree S = some (.single (freqOf S x) (.leaf x (freqOf S x))) := by
  simp [buildTree, initialActive, h, insertActive, Tree.frequency]

/-- Any other number of used symbols is merged. -/
theorem buildTree_of_length_ne_one {S : List Byte} (h : (usedSymbols S).length ≠ 1) :
    buildTree S = mergeActive (initialActive S).length (initialActive S).length
      (initialActive S) := by
  rw [buildTree]
  split
  · next x hx => exact absurd (by rw [← length_initialActive, hx]; rfl) h
  · rfl

/-- The tree of a sequence that is not empty has the used symbols at its leaves, and is not itself a
leaf (44_host_codebook_generation.md R223, R226). -/
theorem buildTree_eq_some {S : List Byte} (hS : S ≠ []) :
    ∃ t, buildTree S = some t ∧ t.symbols.Perm (usedSymbols S) ∧ ∀ x f, t ≠ .leaf x f := by
  by_cases hlen : (usedSymbols S).length = 1
  · obtain ⟨x, hx⟩ := List.length_eq_one_iff.1 hlen
    exact ⟨_, buildTree_of_single hx, by simp [hx, Tree.symbols], by simp⟩
  · obtain ⟨x, hx⟩ := List.exists_mem_of_ne_nil S hS
    have hused : usedSymbols S ≠ [] := List.ne_nil_of_mem (mem_usedSymbols.2 hx)
    have hactive : initialActive S ≠ [] := by
      rwa [← List.length_pos_iff, length_initialActive, List.length_pos_iff]
    obtain ⟨t, ht, hmerged⟩ := mergeActive_eq_some (seq := (initialActive S).length) hactive
      (Nat.le_succ _)
    have hsym := hmerged.trans (activeSymbols_initialActive S)
    refine ⟨t, (buildTree_of_length_ne_one hlen).trans ht, hsym, fun x f hleaf => hlen ?_⟩
    rw [← hsym.length_eq, hleaf, Tree.symbols, List.length_singleton]

theorem build_of_buildTree {S : List Byte} {t : Tree} (h : buildTree S = some t) :
    build S = .ok (t, t.assign []) := by
  rw [build, h]

/-- Build refuses the empty sequence (44_host_codebook_generation.md R222). -/
theorem build_nil : build [] = .error .preconditionError := by
  simp [build, buildTree, initialActive, usedSymbols_nil, mergeActive]

/-! ### The obligations -/

/-- Settles O56: the codebook has the leaves of the tree, and the walk to a leaf is neither empty
nor the beginning of the walk to another. -/
theorem buildGivesAPrefixCode : Obligations.BuildGivesAPrefixCode := by
  unfold Obligations.BuildGivesAPrefixCode
  refine ⟨build_nil, fun S hS => ?_⟩
  obtain ⟨t, ht, hsym, hroot⟩ := buildTree_eq_some hS
  refine ⟨t, t.assign [], build_of_buildTree ht, ?_, fun x => ?_, fun p => t.assign_ne_nil hroot,
    fun p hp q hq hne => (Tree.incompRel_of_mem_assign hp hq (ne_of_apply_ne _ hne)).1⟩
  · rw [t.assign_symbols, hsym.nodup_iff]
    exact usedSymbols_nodup S
  · rw [t.assign_symbols, hsym.mem_iff, mem_usedSymbols]

/-- Settles O57: the walk from the synthetic root takes its right branch to the only leaf. -/
theorem buildOfOneSymbolGivesOneBit : Obligations.BuildOfOneSymbolGivesOneBit := by
  unfold Obligations.BuildOfOneSymbolGivesOneBit
  exact fun x n => ⟨_, build_of_buildTree (buildTree_of_single (usedSymbols_replicate n x))⟩

/-- Evaluating Build, and comparing the codebook with `book` as a permutation, gives a worked output
that compares the two as mappings. -/
theorem exists_build_of_perm {S : List Byte} {book : List (Byte × Codeword)}
    {P : List (Byte × Codeword) → Prop} (h : ∃ r ∈ (build S).toOption, r.2.Perm book ∧ P r.2) :
    ∃ t cb, build S = .ok (t, cb) ∧ (∀ p, p ∈ cb ↔ p ∈ book) ∧ P cb := by
  obtain ⟨r, hr, hperm, hP⟩ := h
  cases hb : build S with
  | error e => simp [hb, Except.toOption] at hr
  | ok r' =>
    obtain rfl : r' = r := by simpa [hb, Except.toOption] using hr
    exact ⟨r'.1, r'.2, rfl, fun _ => hperm.mem_iff, hP⟩

/-- Settles O58: Build is evaluated on each row, and on the sequence whose tree is given. -/
theorem buildWorkedOutputs : Obligations.BuildWorkedOutputs := by
  unfold Obligations.BuildWorkedOutputs
  refine ⟨fun row hrow => exists_build_of_perm ?_, by decide +kernel⟩
  revert row
  decide +kernel

end Sys2Proof.Machine
end

section
/-! PROOF. Errors and a pending job under steps of the host: what O7, O24 and O26 rest on. -/

namespace Sys2Proof.Machine

/-! ### Error codes -/

/-- Settles O7: each code's bits are its row of the table, and a write of ERR_CODE is ignored. -/
theorem errCodeReadsTheCodeTable : Obligations.ErrCodeReadsTheCodeTable := by
  unfold Obligations.ErrCodeReadsTheCodeTable
  refine ⟨fun s => ⟨s.readReg .errCode, s.busAccess_readReg .errCode, ?row⟩,
    fun s v => s.busAccess_writeReg .errCode v⟩
  rw [State.readReg]
  cases s.errCode <;> decide

/-! ### Every step goes on -/

/-- Settles O24: `step_next` reads it off the kinds of step that `step_cases` lists and the two ends
of a command. -/
theorem everyStepAnswersANextState : Obligations.EveryStepAnswersANextState := by
  unfold Obligations.EveryStepAnswersANextState
  exact step_next

/-! ### Steps of the host while a job is pending -/

/-- `t` has the job of `s` and all that the job's completion reads or writes, but for DONE, which is
at most cleared (60_exceptions.md R256). -/
structure State.LeavesJobAlone (s t : State) : Prop where
  same : t = { s with
    irqEn := t.irqEn, done := t.done, cmdRejected := t.cmdRejected,
    accessWhileBusy := t.accessWhileBusy, stimuli := t.stimuli, schedule := t.schedule,
    response := t.response }
  done : s.done = false → t.done = false

/-- While BUSY a transaction can write CTRL and STATUS and set the flags of rejected commands and
blocked accesses, and none of these belongs to the job. -/
theorem State.leavesJobAlone_busAccess {s : State} (hb : s.busy = true) (t : Txn) :
    s.LeavesJobAlone (s.busAccess t).1 := by
  have hbusy : s.busy ≠ false := by simp [hb]
  rcases busAccess_cases s t with h | ⟨v, h⟩ | ⟨v, h⟩ | ⟨w, h⟩ | ⟨-, h⟩ | ⟨hidle, -⟩ | ⟨hidle, -⟩
  · rw [h]; exact ⟨rfl, id⟩
  · rw [h]; exact ⟨rfl, id⟩
  · rw [h]; exact ⟨rfl, fun hdone => by rw [State.writeStatus_done, hdone, Bool.false_and]⟩
  · rw [h, State.submit_of_busy hb]; exact ⟨rfl, id⟩
  · rw [h]; exact ⟨rfl, id⟩
  · exact absurd hidle hbusy
  · exact absurd hidle hbusy

/-- The host's turn and its record of the answer belong to the world outside the block. -/
theorem State.leavesJobAlone_transact {s : State} (hb : s.busy = true) (rest : List Stimulus)
    (x : Txn) : s.LeavesJobAlone ({ s.afterTurn with stimuli := rest }.transact x) := by
  have hbusy : State.busy { s.afterTurn with stimuli := rest } = true := hb
  obtain ⟨hsame, hdone⟩ := State.leavesJobAlone_busAccess hbusy x
  exact ⟨by rw [State.transact, hsame]; rfl, hdone⟩

/-- Without the reset input a step of the host leaves a pending job alone. -/
theorem step_host_leavesJobAlone {s : State} (hb : s.busy = true) (hm : s.mover = .host)
    (hreset : ∀ rest, s.stimuli ≠ .reset :: rest) :
    ∃ t, step s = .next t ∧ s.LeavesJobAlone t := by
  have hengine : s.mover ≠ .engine := by simp [hm]
  rcases step_cases s with h | ⟨_, _, he, -⟩ | ⟨_, _, he, -⟩ | ⟨x, rest, -, -, h⟩ | ⟨rest, -, hr, -⟩
  · exact ⟨_, h, rfl, id⟩
  · exact absurd he hengine
  · exact absurd he hengine
  · exact ⟨_, h, State.leavesJobAlone_transact hb rest x⟩
  · exact absurd hr (hreset rest)

/-- Settles O26: each register named is one that `LeavesJobAlone` keeps. -/
theorem hostCannotDisturbAPendingJob : Obligations.HostCannotDisturbAPendingJob := by
  unfold Obligations.HostCannotDisturbAPendingJob
  intro s w hj hm hreset
  obtain ⟨t, ht, hsame, hdone⟩ := step_host_leavesJobAlone (s.busy_iff.2 ⟨w, hj⟩) hm hreset
  refine ⟨t, ht, ?_⟩
  rw [hsame]
  exact ⟨hj, rfl, rfl, rfl, rfl, rfl, rfl, rfl, rfl, rfl, rfl, rfl, rfl, hdone⟩

end Sys2Proof.Machine
end

section
/-! PROOF. The state after a reset and the jobs on its empty table: what O1, O2 and O3 rest on. -/

namespace Sys2Proof.Machine

/-! ### The registers after a reset -/

/-- The registers belong to the block, not to the world outside it (10_state.md R20). -/
@[simp] theorem State.withWorld_readReg (s : State) (l : List Stimulus) (a : List Agent)
    (r : Option Response) (q : Reg) : (s.withWorld l a r).readReg q = s.readReg q := rfl

/-- The reset leaves the world outside as it is (70_reset_and_hazards.md R280, log 11). -/
theorem State.resetBlock_eq_withWorld (s : State) : s.resetBlock =
    (State.atReset s.dmemSize (s.draw + 1)).withWorld s.stimuli s.schedule s.response := rfl

/-- After a reset no field of STATUS is set (10_state.md R28). -/
theorem State.statusWord_atReset (size : Config.DmemSize) (epoch : Nat) :
    (State.atReset size epoch).statusWord = 0 := by
  simp [State.statusWord, bitAt, State.busy_eq, State.atReset]

theorem State.readReg_atReset (size : Config.DmemSize) (epoch : Nat) (r : Reg) :
    (State.atReset size epoch).readReg r = r.resetValue size := by
  cases r with
  | status => exact State.statusWord_atReset size epoch
  | _ => rfl

theorem State.readReg_resetBlock (s : State) (r : Reg) :
    s.resetBlock.readReg r = r.resetValue s.dmemSize := by
  rw [State.resetBlock_eq_withWorld, State.withWorld_readReg, State.readReg_atReset]

/-- The table after a reset is empty (70_reset_and_hazards.md R282). -/
theorem Table.valid_atReset (x : Byte) :
    (Table.entry (Vector.replicate Config.nsym Entry.atReset) x).valid = false := by
  rw [Table.entry_replicate, Entry.atReset]

/-! ### The obligations -/

/-- Settles O3: ENCODE looks up its first symbol and DECODE matches at its first cursor in vain, and
either error has position 0. -/
theorem emptyTableFailsAtPositionZero : Obligations.EmptyTableFailsAtPositionZero := by
  unfold Obligations.EmptyTableFailsAtPositionZero
  intro s hempty hr hlen
  exact ⟨⟨_, exec_encode_of_empty_table hempty hr hlen, s.raise_record nofun (by decide)⟩,
    ⟨_, exec_decode_of_empty_table hempty hr hlen, s.raise_record nofun (by decide)⟩⟩

/-- Settles O1: the reset state of the reference size is one of the states after a reset. -/
theorem resetStateHoldsTheSpecValues : Obligations.ResetStateHoldsTheSpecValues := by
  unfold Obligations.ResetStateHoldsTheSpecValues
  exact ⟨State.readReg_atReset _ _, Table.valid_atReset, rfl, rfl, rfl⟩

/-- Settles O2: the step is the reset of the block, which no pending job keeps from it. -/
theorem resetInputRestoresTheResetState : Obligations.ResetInputRestoresTheResetState := by
  unfold Obligations.ResetInputRestoresTheResetState
  intro s rest hm hs
  exact ⟨_, step_host_reset hm hs, State.readReg_resetBlock _, Table.valid_atReset, rfl, rfl, rfl,
    rfl, rfl⟩

end Sys2Proof.Machine
end
